-- ==== Sys2Proof/Word.lean ====
section
/-! DEFINITION. The words the block moves (spec/00_scope.md R5 and R6): the items of the four channels and
the two accumulators.  Every value is unsigned; bit 0 is the least significant bit. -/

namespace Sys2Proof

/-- One byte of PIN, of a wire frame, and the width of `SUM` (R5 `SUM_WIDTH`). -/
abbrev Byte := BitVec 8

/-- A 16-bit value: the width of `CRC` (R5 `CRC_WIDTH`), of the descriptor's `len` (`LEN_WIDTH`), of `CNT` and of a
response's `value`. -/
abbrev Half := BitVec 16

/-- One item of channel CMD, a command descriptor (R5 `DESC_WIDTH`). -/
abbrev Descriptor := BitVec 64

/-- One item of channel RSP, a response word (R5 `RSP_WIDTH`). -/
abbrev Response := BitVec 32

/-- `zeros(n)` of R6: the list of n bytes 0x00. -/
abbrev zeros (n : Nat) : List Byte := List.replicate n 0

end Sys2Proof
end

