-- ==== Sys2Proof/Config.lean ====
section
/-! DEFINITION. What one build of the block and the platform around it fix (spec/00_scope.md R5): the build
parameter `SUM8_COMPLEMENT` and the capacities of the four channels.  The values this hardware takes are
`Platform.thisHardware` in Machine/Operands.lean. -/

namespace Sys2Proof

/-- The parameters the spec leaves as arguments of a model.  No command reads or writes them by address and none
changes at run time (10_state.md R16); a statement over all states holds for every value of them
[DESIGN CHOICE, notes/assumptions/9.md]. -/
structure Platform where
  /-- `SUM8_COMPLEMENT` (41_sum8.md R79): whether the Arithmetic8 trailer byte is `0xFF - SUM` instead of `SUM`. -/
  sum8Complement : Bool
  /-- How many items channel CMD holds; `none` is unbounded (20_memory.md R29). -/
  cmdCap : Option Nat
  /-- How many items channel PIN holds; `none` is unbounded (R29). -/
  pinCap : Option Nat
  /-- How many items channel WOUT holds before its consumer accepts no more; `none` is unbounded (R29). -/
  woutCap : Option Nat
  /-- How many items channel RSP holds before its consumer accepts no more; `none` is unbounded (R29). -/
  rspCap : Option Nat
  deriving DecidableEq, Repr

end Sys2Proof
end

