-- ==== Sys2Proof/Syntax.lean ====
section
/-! DEFINITION. The command set "XMF command set, version 1" (spec/30_encoding.md R41, R42; spec/opcode_table.json): one
constructor of `Instr` for each row of the table, with the operands R41 marks "u". -/

namespace Sys2Proof

/-- The `mode` operand of a frame command (R46): bit 0 is Arithmetic8, bit 1 is CRC16. -/
inductive ChecksumMode where
  | arithmetic8
  | crc16
  deriving DecidableEq, Repr

/-- The `size` operand of `FDATA` (R45): bit 0 selects 128 bytes, bit 1 selects 1024 bytes. -/
inductive BlockSize where
  | small
  | large
  deriving DecidableEq, Repr

/-- The three errors a command can be refused with (60_exceptions.md R135).  A refusal is an effect of the command
(R139), not a stop of the machine. -/
inductive CmdError where
  /-- R136: reserved opcode, or a reserved or must-be-zero field that is not 0. -/
  | illegalCommand
  /-- R137: a well-formed `FDATA` with `len > blocksize(size)`. -/
  | payloadTooLong
  /-- R138: a well-formed `FMETA` with `len + len(dec(fsize)) > 127`. -/
  | nameTooLong
  deriving DecidableEq, Repr

/-- The seven commands (R42), each with the fields it uses (R41). -/
inductive Instr where
  /-- `SUM8 len` (41_sum8.md R77). -/
  | sum8 (len : Half)
  /-- `CRC16 len` (40_crc16.md R68). -/
  | crc16 (len : Half)
  /-- `RDSUM` (41_sum8.md R78). -/
  | rdsum
  /-- `RDCRC` (40_crc16.md R69). -/
  | rdcrc
  /-- `FDATA mode, size, seq, len` (42_framer.md R86). -/
  | fdata (mode : ChecksumMode) (size : BlockSize) (seq : Byte) (len : Half)
  /-- `FMETA mode, len, fsize` (42_framer.md R90). -/
  | fmeta (mode : ChecksumMode) (len : Half) (fsize : BitVec 32)
  /-- `FTERM mode` (42_framer.md R94). -/
  | fterm (mode : ChecksumMode)
  deriving DecidableEq, Repr

end Sys2Proof
end

