-- ==== Sys2Proof/Machine/Checksum.lean ====
section
/-! DEFINITION. The two accumulators' update functions and the checksums of a byte list (spec/40_crc16.md R65, R67;
spec/41_sum8.md R75, R76, R79). -/

namespace Sys2Proof.Machine

/-- `CRC_POLY` of 00_scope.md R5. -/
def crcPoly : Half := 0x1021

/-- `CRC_INIT` of 00_scope.md R5: every CRC computation starts from 0. -/
def crcInit : Half := 0x0000

/-- One of the eight inner steps of R65: bit 15 is tested before the shift, the polynomial is XORed in after it. -/
def crcShift (c : Half) : Half :=
  if c.getLsbD 15 then (c <<< 1) ^^^ crcPoly else c <<< 1

/-- `n` inner steps of R65 in a row. -/
def crcShifts : Nat → Half → Half
  | 0, c => c
  | n + 1, c => crcShifts n (crcShift c)

/-- `crc_step(c, b)` of R65: the byte enters at bits 15:8, then eight inner steps. -/
def crcStep (c : Half) (b : Byte) : Half :=
  crcShifts 8 (c ^^^ (b ++ (0 : Byte)))

/-- `crc16(bs)` of R67: no reflection, no final XOR. -/
def crc16 (bs : List Byte) : Half := bs.foldl crcStep crcInit

/-- `sum_step(s, b)` of R75: 8-bit addition, the carry out of bit 7 is dropped. -/
def sumStep (s b : Byte) : Byte := s + b

/-- `sum8(bs)` of R76. -/
def sum8 (bs : List Byte) : Byte := bs.foldl sumStep 0

/-- `a8_trailer(SUM)` of R79, with the build parameter `SUM8_COMPLEMENT` as its first argument. -/
def a8Trailer (complement : Bool) (s : Byte) : Byte := if complement then ~~~s else s

end Sys2Proof.Machine
end

