-- ==== Sys2Proof/Machine/Operands.lean ====
section
/-! DEFINITION. The operand forms (spec/30_encoding.md R44 to R47) and the parts of a wire packet as functions of the
operands (spec/30_encoding.md R52 to R61, spec/42_framer.md R84, R85, R87, R91, R92). -/

namespace Sys2Proof

/-- The values this hardware takes (00_scope.md R5): `SUM8_COMPLEMENT` is false; the channel capacities, which R29
leaves free, are unbounded [DESIGN CHOICE, notes/assumptions/4.md]. -/
def Platform.thisHardware : Platform :=
  { sum8Complement := false, cmdCap := none, pinCap := none, woutCap := none, rspCap := none }

end Sys2Proof

namespace Sys2Proof.Machine

/-- `blocksize(size)` of R45: the only two payload sizes. -/
def blocksize : BlockSize → Nat
  | .small => 128
  | .large => 1024

/-- `header(size)` of R52: SOH for a 128-byte block, STX for a 1024-byte block. -/
def header : BlockSize → Byte
  | .small => 0x01
  | .large => 0x02

/-- `NOT_8(seq)`, the complement byte of R53. -/
def seqComplement (seq : Byte) : Byte := ~~~seq

/-- The decimal numeral of `n` as ASCII digits, most significant first, by the recursion of R92; the first argument
bounds the number of digits. -/
def decDigits : Nat → Nat → List Byte
  | 0, _ => []
  | k + 1, n =>
    if n < 10 then [BitVec.ofNat 8 (0x30 + n)]
    else decDigits k (n / 10) ++ [BitVec.ofNat 8 (0x30 + n % 10)]

/-- `dec(n)` of R92 for the 32-bit file size: at most ten digits. -/
def dec (n : BitVec 32) : List Byte := decDigits 10 n.toNat

/-- `pad(bs, B)` of R87. -/
def pad (bs : List Byte) (n : Nat) : List Byte := bs ++ zeros (n - bs.length)

/-- `meta(nm, n)` of R91, the metadata payload (layout R60). -/
def metaPayload (name : List Byte) (fsize : BitVec 32) : List Byte :=
  pad (name ++ [0x00] ++ dec fsize) 128

/-- The high and the low byte of a CRC, in the order they leave on WOUT (20_memory.md R30 item 1). -/
def crcHigh (c : Half) : Byte := c.extractLsb' 8 8

/-- See `crcHigh`. -/
def crcLow (c : Half) : Byte := c.extractLsb' 0 8

/-- `trailer(mode, pay)` of R85, with the build parameter `SUM8_COMPLEMENT` as its first argument. -/
def trailer (complement : Bool) (mode : ChecksumMode) (pay : List Byte) : List Byte :=
  match mode with
  | .arithmetic8 => [a8Trailer complement (sum8 pay)]
  | .crc16 => [crcHigh (crc16 pay), crcLow (crc16 pay)]

/-- The length of a trailer (R55). -/
def trailerLength : ChecksumMode → Nat
  | .arithmetic8 => 1
  | .crc16 => 2

/-- `frame(size, s, pay, mode)` of R84: the wire packet of R52. -/
def frame (complement : Bool) (size : BlockSize) (seq : Byte) (pay : List Byte) (mode : ChecksumMode) : List Byte :=
  [header size, seq, seqComplement seq] ++ pay ++ trailer complement mode pay

end Sys2Proof.Machine
end

