-- ==== Sys2Proof/WellFormed.lean ====
section
/-! DEFINITION. Which commands are accepted (spec/30_encoding.md R41, R43): the two length tests on operands that
their fields can hold and the command refuses. -/

namespace Sys2Proof

/-- The length test of a command, if it fails: the third test of 60_exceptions.md R140 (R137, R138). -/
def Instr.lengthError : Instr → Option CmdError
  | .sum8 _ => none
  | .crc16 _ => none
  | .rdsum => none
  | .rdcrc => none
  | .fdata _ size _ len => if len.toNat > Machine.blocksize size then some .payloadTooLong else none
  | .fmeta _ len fsize => if len.toNat + (Machine.dec fsize).length > 127 then some .nameTooLong else none
  | .fterm _ => none

/-- A command the block accepts: every operand within the range R41 gives it. -/
abbrev Instr.WellFormed (i : Instr) : Prop := i.lengthError = none

end Sys2Proof
end

