-- ==== Sys2Proof/Decode.lean ====
section
/-! DEFINITION. The decoder of command descriptors, total on all 2^64 values (spec/30_encoding.md R40 to R43, R48, R49),
and after it the encoder, written from the same table. -/

namespace Sys2Proof

/-! ### The fields of format D (R40) -/

/-- `op`, bits 63:60. -/
def fieldOp (d : Descriptor) : BitVec 4 := d.extractLsb' 60 4

/-- `rsv`, bits 59:58. -/
def fieldRsv (d : Descriptor) : BitVec 2 := d.extractLsb' 58 2

/-- `size`, bit 57. -/
def fieldSize (d : Descriptor) : BitVec 1 := d.extractLsb' 57 1

/-- `mode`, bit 56. -/
def fieldMode (d : Descriptor) : BitVec 1 := d.extractLsb' 56 1

/-- `seq`, bits 55:48. -/
def fieldSeq (d : Descriptor) : Byte := d.extractLsb' 48 8

/-- `len`, bits 47:32 (R44): the number of PIN bytes that belong to this descriptor, whatever its opcode. -/
def fieldLen (d : Descriptor) : Half := d.extractLsb' 32 16

/-- `fsize`, bits 31:0. -/
def fieldFsize (d : Descriptor) : BitVec 32 := d.extractLsb' 0 32

/-- The `size` bit (R45). -/
def BlockSize.ofBit (b : BitVec 1) : BlockSize := if b = 0 then .small else .large

/-- The `mode` bit (R46). -/
def ChecksumMode.ofBit (b : BitVec 1) : ChecksumMode := if b = 0 then .arithmetic8 else .crc16

/-! ### Decoding -/

/-- The first two tests of R43, and the operands: the row of opcode_table.json the descriptor matches, or
`IllegalCommand` for a reserved opcode (R48) or a non-zero must-be-zero field (R49). -/
def decodeRow (d : Descriptor) : Except CmdError Instr :=
  match (fieldOp d).toNat with
  | 0x1 =>
    if fieldRsv d = 0 ∧ fieldSize d = 0 ∧ fieldMode d = 0 ∧ fieldSeq d = 0 ∧ fieldFsize d = 0 then
      .ok (.sum8 (fieldLen d))
    else .error .illegalCommand
  | 0x2 =>
    if fieldRsv d = 0 ∧ fieldSize d = 0 ∧ fieldMode d = 0 ∧ fieldSeq d = 0 ∧ fieldFsize d = 0 then
      .ok (.crc16 (fieldLen d))
    else .error .illegalCommand
  | 0x3 =>
    if fieldRsv d = 0 ∧ fieldSize d = 0 ∧ fieldMode d = 0 ∧ fieldSeq d = 0 ∧ fieldLen d = 0 ∧ fieldFsize d = 0 then
      .ok .rdsum
    else .error .illegalCommand
  | 0x4 =>
    if fieldRsv d = 0 ∧ fieldSize d = 0 ∧ fieldMode d = 0 ∧ fieldSeq d = 0 ∧ fieldLen d = 0 ∧ fieldFsize d = 0 then
      .ok .rdcrc
    else .error .illegalCommand
  | 0x8 =>
    if fieldRsv d = 0 ∧ fieldFsize d = 0 then
      .ok (.fdata (.ofBit (fieldMode d)) (.ofBit (fieldSize d)) (fieldSeq d) (fieldLen d))
    else .error .illegalCommand
  | 0x9 =>
    if fieldRsv d = 0 ∧ fieldSize d = 0 ∧ fieldSeq d = 0 then
      .ok (.fmeta (.ofBit (fieldMode d)) (fieldLen d) (fieldFsize d))
    else .error .illegalCommand
  | 0xA =>
    if fieldRsv d = 0 ∧ fieldSize d = 0 ∧ fieldSeq d = 0 ∧ fieldLen d = 0 ∧ fieldFsize d = 0 then
      .ok (.fterm (.ofBit (fieldMode d)))
    else .error .illegalCommand
  | _ => .error .illegalCommand

/-- Decoding a descriptor (R43), the tests in the order of 60_exceptions.md R140: the row, then its length test. -/
def decode (d : Descriptor) : Except CmdError Instr :=
  match decodeRow d with
  | .error e => .error e
  | .ok i =>
    match i.lengthError with
    | some e => .error e
    | none => .ok i

/-- What the decoder reads from the bits `w` of a table row: a descriptor is one 64-bit item and has no byte order
(20_memory.md R30 item 5), so the table's numbering of bits is the descriptor's own [DEDUCED, notes/assumptions/12.md].
The row is answered without the length test, which is the command's own (42_framer.md R88, R93). -/
def decodeTableWord (nbits w : Nat) : Option Instr :=
  if nbits ≤ 64 then
    match decodeRow (BitVec.ofNat 64 (w % 2 ^ nbits)) with
    | .ok i => some i
    | .error _ => none
  else none

/-! ### Encoding -/

/-- The `size` bit of R45. -/
def BlockSize.toBit : BlockSize → BitVec 1
  | .small => 0
  | .large => 1

/-- The `mode` bit of R46. -/
def ChecksumMode.toBit : ChecksumMode → BitVec 1
  | .arithmetic8 => 0
  | .crc16 => 1

/-- A descriptor of format D (R40) from its fields, `rsv` = 0. -/
def assemble (op : BitVec 4) (size mode : BitVec 1) (seq : Byte) (len : Half) (fsize : BitVec 32) : Descriptor :=
  op ++ (0 : BitVec 2) ++ size ++ mode ++ seq ++ len ++ fsize

/-- The descriptor of a command (R41, R42); a field the command does not use is 0. -/
def encode : Instr → Descriptor
  | .sum8 len => assemble 0x1 0 0 0 len 0
  | .crc16 len => assemble 0x2 0 0 0 len 0
  | .rdsum => assemble 0x3 0 0 0 0 0
  | .rdcrc => assemble 0x4 0 0 0 0 0
  | .fdata mode size seq len => assemble 0x8 size.toBit mode.toBit seq len 0
  | .fmeta mode len fsize => assemble 0x9 0 mode.toBit 0 len fsize
  | .fterm mode => assemble 0xA 0 mode.toBit 0 0 0

end Sys2Proof
end

