-- ==== Sys2Proof/Machine/Flags.lean ====
section
/-! DEFINITION. The block has no status flags and no sticky error bit (spec/10_state.md R15).  What another machine
would keep in flags, this one reports once in the response word (spec/30_encoding.md R50, R51), computed here. -/

namespace Sys2Proof.Machine

/-- `status` of a command that completed (R51). -/
def statusDone : Byte := 0x00

/-- `status` of a refused command (R51). -/
def statusOf : CmdError → Byte
  | .illegalCommand => 0x01
  | .payloadTooLong => 0x02
  | .nameTooLong => 0x03

/-- A response word (R50): `status` in bits 31:24, zero in bits 23:16, `value` in bits 15:0. -/
def response (status : Byte) (value : Half) : Response := status ++ (0 : Byte) ++ value

/-- `status` of a response word, bits 31:24. -/
def responseStatus (r : Response) : Byte := r.extractLsb' 24 8

/-- The zero field of a response word, bits 23:16. -/
def responseZero (r : Response) : Byte := r.extractLsb' 16 8

/-- `value` of a response word, bits 15:0. -/
def responseValue (r : Response) : Half := r.extractLsb' 0 16

/-- `zext_16(SUM)` of R50. -/
def zextSum (s : Byte) : Half := s.setWidth 16

end Sys2Proof.Machine
end

