-- ==== Sys2Proof/Machine/State.lean ====
section
/-! DEFINITION. The state of the block and of the four channels it is driven by (spec/10_state.md R10 to R13, R17, R21;
spec/20_memory.md R25, R26), the reasons a step can stop, and the state after reset.  The block has no memory, no
program counter, no flags and no control register (R14 to R16, R25). -/

namespace Sys2Proof.Machine

/-- `PHASE` (10_state.md R13): where the block is inside a command. -/
inductive Phase where
  | idle
  | drain
  | absorb
  | hdr
  | seq
  | nseq
  | pay
  | trl
  | rsp
  deriving DecidableEq, Repr

/-- One item of channel WOUT: a wire byte and the `last` marker beside it (20_memory.md R26, 30_encoding.md R57). -/
structure WireByte where
  byte : Byte
  last : Bool
  deriving DecidableEq, Repr

structure State where
  /-- `CRC`, the CRC-16/CCITT accumulator (R10). -/
  crc : Half
  /-- `SUM`, the arithmetic checksum accumulator (R11). -/
  sum : Byte
  /-- `DESC`, the descriptor of the command in progress (R12). -/
  desc : Descriptor
  /-- `PHASE` (R13). -/
  phase : Phase
  /-- `CNT`, the bytes handled in the current phase (R13). -/
  cnt : Half
  /-- The level of the reset input `RST` (70_reset_and_hazards.md R155): true while it is asserted. -/
  rst : Bool
  /-- Channel CMD: descriptors the host has put and the block has not taken, oldest first (20_memory.md R26). -/
  cmd : List Descriptor
  /-- Channel PIN: bytes the host has put and the block has not taken, oldest first (R26). -/
  pin : List Byte
  /-- Channel WOUT: wire bytes the block has put and the host has not taken, oldest first (R26). -/
  wout : List WireByte
  /-- Channel RSP: response words the block has put and the host has not taken, oldest first (R26). -/
  rsp : List Response
  /-- What the build and the platform fix (00_scope.md R5); no step and no action of the host changes it. -/
  platform : Platform
  deriving DecidableEq, Repr

/-- The one reason a step can stop with a fault. -/
inductive Fault where
  /-- Raised by the sequencer (Machine/Sequencer.lean) where `PHASE` holds a phase that the command latched in `DESC`
  never enters, for example `PAY` during `RDCRC`.  42_framer.md R89 gives such a state no step and no run from reset
  reaches one (the invariant `Coherent` of Safety.lean rules them out).  Safe: the model stops
  [DESIGN CHOICE, notes/assumptions/7.md]. -/
  | strayPhase
  deriving DecidableEq, Repr

/-- The reasons a step can be refused. -/
inductive Refusal where
  /-- Raised by `exec` for an instruction that has no meaning yet; no arm of this model raises it.  Safe. -/
  | notModelled (mnemonic : String)
  deriving DecidableEq, Repr

/-- The state after reset (10_state.md R21, 70_reset_and_hazards.md R155): `CRC` = 0, `SUM` = 0, `PHASE` = IDLE.  `CNT`
and `DESC`, which R21 leaves unspecified, are 0 [DESIGN CHOICE, notes/assumptions/1.md]; the channels, which the block
neither empties nor fills at reset, hold nothing [DESIGN CHOICE, notes/assumptions/2.md]. -/
def State.reset : State :=
  { crc := 0x0000, sum := 0x00, desc := 0, phase := .idle, cnt := 0, rst := false,
    cmd := [], pin := [], wout := [], rsp := [], platform := Platform.thisHardware }

end Sys2Proof.Machine
end

