-- ==== Sys2Proof/Machine/Ops.lean ====
section
/-! DEFINITION. The primitives of the pseudocode (spec/00_scope.md R7) over the state: taking and putting items of the
four channels (spec/20_memory.md R26, R29, R33), clearing and absorbing (spec/10_state.md R18, R19), and refusing a
command (spec/60_exceptions.md R139).  A primitive that has to wait for the environment answers none, and changes
nothing. -/

namespace Sys2Proof.Machine

/-- Whether a channel of capacity `cap` that holds `n` items accepts another (20_memory.md R29). -/
def hasRoom (cap : Option Nat) (n : Nat) : Bool :=
  match cap with
  | none => true
  | some c => decide (n < c)

/-- `DESC <- CmdTake()`: the oldest descriptor leaves CMD and is latched (R7, 10_state.md R12). -/
def cmdTake (s : State) : Option (Descriptor × State) :=
  match s.cmd with
  | [] => none
  | d :: ds => some (d, { s with cmd := ds, desc := d })

/-- `PinTake()`: the oldest byte leaves PIN (R7). -/
def pinTake (s : State) : Option (Byte × State) :=
  match s.pin with
  | [] => none
  | b :: bs => some (b, { s with pin := bs })

/-- `WoutPut(b, last)` (R7); none when the consumer of WOUT accepts no more. -/
def woutPut (b : Byte) (last : Bool) (s : State) : Option State :=
  if hasRoom s.platform.woutCap s.wout.length then some { s with wout := s.wout ++ [⟨b, last⟩] } else none

/-- `RspPut(status, value)` (R7); none when the consumer of RSP accepts no more. -/
def rspPut (status : Byte) (value : Half) (s : State) : Option State :=
  if hasRoom s.platform.rspCap s.rsp.length then some { s with rsp := s.rsp ++ [response status value] } else none

/-- `clear()` of 10_state.md R19. -/
def clear (s : State) : State := { s with crc := crcInit, sum := 0x00 }

/-- `absorb(b)` of 10_state.md R18: both accumulators take the byte, whatever the command and its mode. -/
def absorb (b : Byte) (s : State) : State := { s with crc := crcStep s.crc b, sum := sumStep s.sum b }

/-- `raise <Error>(desc)` (00_scope.md R7), the nearest thing the block has to taking an exception: nothing is saved,
no register but the sequencer's changes, and the command goes on to drain its PIN bytes (60_exceptions.md R139,
42_framer.md R89 line IDLE).  The error itself is a function of the descriptor and is not kept. -/
def raise (s : State) : State := { s with phase := .drain, cnt := 0 }

/-- The end of every command, refused or not: the block is in IDLE again, and there is nothing to restore
(60_exceptions.md R141). -/
def toIdle (s : State) : State := { s with phase := .idle }

end Sys2Proof.Machine
end

