-- ==== Sys2Proof/Machine/Sequencer.lean ====
section
/-! DEFINITION. The byte-by-byte machine of spec/42_framer.md R89, and a whole command as a run of it.

R89 fixes the steps by `PHASE`; what a command contributes to them (which phases it enters, the header, the payload
bytes, the response) is its `Plan`.  `planTick` is one line of R89 for a plan, `advance` runs lines until the command
has answered or the block holds. -/

namespace Sys2Proof.Machine

/-- The accumulator a response's `value` is taken from (30_encoding.md R50). -/
inductive Accumulator where
  | sum
  | crc
  deriving DecidableEq, Repr

/-- Where the payload bytes of a frame come from: the three forms of `paybyte` (42_framer.md R89). -/
inductive PaySource where
  /-- `FDATA`: `len` bytes from PIN, then zeros (R86). -/
  | supplied (len : Half)
  /-- `FMETA`: `len` name bytes from PIN, NUL, the digits of `fsize`, then zeros (R90). -/
  | metadata (len : Half) (fsize : BitVec 32)
  /-- `FTERM`: zeros (R94). -/
  | zeros
  deriving DecidableEq, Repr

/-- What one command asks of the sequencer. -/
inductive Plan where
  /-- Take and discard `len` PIN bytes, answer the error (60_exceptions.md R139). -/
  | refuse (len : Half) (err : CmdError)
  /-- Clear, absorb `len` PIN bytes, answer an accumulator (`SUM8`, `CRC16`). -/
  | engine (len : Half) (acc : Accumulator)
  /-- Answer an accumulator (`RDSUM`, `RDCRC`). -/
  | readback (acc : Accumulator)
  /-- Clear, put one frame on WOUT, answer zero (`FDATA`, `FMETA`, `FTERM`). -/
  | framing (size : BlockSize) (seq : Byte) (mode : ChecksumMode) (src : PaySource)
  deriving DecidableEq, Repr

/-- One line of R89: the block moves, or it holds, or R89 has no line for the phase and the command. -/
inductive Move where
  | moves (s : State)
  | hold
  | stray
  deriving DecidableEq, Repr

/-- A step that has taken its items and put its items, or holds. -/
def Move.ofOption : Option State → Move
  | some s => .moves s
  | none => .hold

/-- The value of an accumulator as a response carries it (R50). -/
def Accumulator.value : Accumulator → State → Half
  | .sum, s => zextSum s.sum
  | .crc, s => s.crc

/-- `paybyte(i)` (R86, R90, R94): none says that the byte is taken from PIN. -/
def PaySource.paybyte : PaySource → Nat → Option Byte
  | .supplied len, i => if i < len.toNat then none else some 0x00
  | .metadata len fsize, i =>
    if i < len.toNat then none
    else if i = len.toNat then some 0x00
    else if i ≤ len.toNat + (dec fsize).length then some ((dec fsize).getD (i - len.toNat - 1) 0x00)
    else some 0x00
  | .zeros, _ => some 0x00

/-- The payload byte of the PAY line, taken from PIN where `paybyte` says so. -/
def payTake (src : PaySource) (s : State) : Option (Byte × State) :=
  match src.paybyte s.cnt.toNat with
  | none => pinTake s
  | some b => some (b, s)

/-- The `status` and `value` a plan answers with (30_encoding.md R50, R51). -/
def Plan.answer : Plan → State → Byte × Half
  | .refuse _ err, _ => (statusOf err, 0x0000)
  | .engine _ acc, s => (statusDone, acc.value s)
  | .readback acc, s => (statusDone, acc.value s)
  | .framing _ _ _ _, _ => (statusDone, 0x0000)

/-! ### The lines of R89 -/

/-- IDLE, after the descriptor has been taken, latched and decoded. -/
def idleLine : Plan → State → Move
  | .refuse _ _, s => .moves (raise s)
  | .engine _ _, s => .moves { clear s with phase := .absorb, cnt := 0 }
  | .readback _, s => .moves { s with phase := .rsp }
  | .framing _ _ _ _, s => .moves { clear s with phase := .hdr }

/-- DRAIN: take and discard, or go on to the response. -/
def drainLine (len : Half) (s : State) : Move :=
  if s.cnt < len then .ofOption ((pinTake s).map fun (_, s') => { s' with cnt := s'.cnt + 1 })
  else .moves { s with phase := .rsp }

/-- ABSORB: take and absorb, or go on to the response. -/
def absorbLine (len : Half) (s : State) : Move :=
  if s.cnt < len then .ofOption ((pinTake s).map fun (b, s') => { absorb b s' with cnt := s'.cnt + 1 })
  else .moves { s with phase := .rsp }

/-- HDR, SEQ and NSEQ: one byte each. -/
def hdrLine (size : BlockSize) (s : State) : Move :=
  .ofOption ((woutPut (header size) false s).map fun s' => { s' with phase := .seq })

/-- See `hdrLine`. -/
def seqLine (seq : Byte) (s : State) : Move :=
  .ofOption ((woutPut seq false s).map fun s' => { s' with phase := .nseq })

/-- See `hdrLine`. -/
def nseqLine (seq : Byte) (s : State) : Move :=
  .ofOption ((woutPut (seqComplement seq) false s).map fun s' => { s' with phase := .pay, cnt := 0 })

/-- PAY: taking the PIN byte, putting the WOUT byte and absorbing are one step, so a byte is not taken while WOUT accepts
none [DEDUCED, notes/assumptions/13.md]. -/
def payLine (size : BlockSize) (src : PaySource) (s : State) : Move :=
  .ofOption do
    let (b, s₁) ← payTake src s
    let s₂ ← woutPut b false s₁
    if s.cnt.toNat + 1 = blocksize size then some { absorb b s₂ with phase := .trl, cnt := 0 }
    else some { absorb b s₂ with cnt := s.cnt + 1 }

/-- TRL: the checksum byte, or the CRC high byte first. -/
def trlLine (mode : ChecksumMode) (s : State) : Move :=
  match mode with
  | .arithmetic8 =>
    .ofOption ((woutPut (a8Trailer s.platform.sum8Complement s.sum) true s).map fun s' => { s' with phase := .rsp })
  | .crc16 =>
    if s.cnt = 0 then .ofOption ((woutPut (crcHigh s.crc) false s).map fun s' => { s' with cnt := 1 })
    else .ofOption ((woutPut (crcLow s.crc) true s).map fun s' => { s' with phase := .rsp })

/-- RSP: the response, after every other effect (20_memory.md R37), and IDLE again. -/
def rspLine (p : Plan) (s : State) : Move :=
  .ofOption ((rspPut (p.answer s).1 (p.answer s).2 s).map toIdle)

/-- One step of R89 for the command whose plan is `p`. -/
def planTick (p : Plan) (s : State) : Move :=
  match s.phase, p with
  | .idle, p => idleLine p s
  | .drain, .refuse len _ => drainLine len s
  | .absorb, .engine len _ => absorbLine len s
  | .hdr, .framing size _ _ _ => hdrLine size s
  | .seq, .framing _ seq _ _ => seqLine seq s
  | .nseq, .framing _ seq _ _ => nseqLine seq s
  | .pay, .framing size _ _ src => payLine size src s
  | .trl, .framing _ _ mode _ => trlLine mode s
  | .rsp, p => rspLine p s
  | _, _ => .stray

/-! ### A whole command -/

/-- Steps of R89 until the command has answered (IDLE again) or the block holds; the first argument bounds their
number. -/
def advance : Nat → Plan → State → Host.Outcome State Fault Refusal
  | 0, _, s => .next s
  | n + 1, p, s =>
    match planTick p s with
    | .moves s' => if s'.phase = .idle then .next s' else advance n p s'
    | .hold => .next s
    | .stray => .fault .strayPhase

/-- More steps than any command takes from any state, so that the bound of `advance` is never met: at most
65535 + 3 (70_reset_and_hazards.md R164), and a `CNT` that no run reaches wraps once. -/
def commandBound : Nat := 140000

/-- Run a command from where the block is in it (IDLE with the descriptor latched, or a later phase after a hold) to
its response or to the next hold (42_framer.md R89: a whole command may be taken as one step). -/
def perform (p : Plan) (s : State) : Host.Outcome State Fault Refusal := advance commandBound p s

end Sys2Proof.Machine
end

