-- ==== Sys2Proof/Machine/Crc16.lean ====
section
/-! DEFINITION. The commands of the CRC generator (spec/40_crc16.md R68, R69). -/

namespace Sys2Proof.Machine

/-- `CRC16` (R68): clear, absorb `len` bytes from PIN, answer `CRC`. -/
def crc16Plan (len : Half) : Plan := .engine len .crc

/-- The meaning of `CRC16`. -/
def execCrc16 (len : Half) (s : State) : Host.Outcome State Fault Refusal := perform (crc16Plan len) s

/-- `RDCRC` (R69): answer `CRC`. -/
def rdcrcPlan : Plan := .readback .crc

/-- The meaning of `RDCRC`. -/
def execRdcrc (s : State) : Host.Outcome State Fault Refusal := perform rdcrcPlan s

end Sys2Proof.Machine
end

