-- ==== Sys2Proof/Machine/Framer.lean ====
section
/-! DEFINITION. The commands of the packet framer (spec/42_framer.md R86, R88, R90, R93, R94). -/

namespace Sys2Proof.Machine

/-- `FDATA` (R86): refused with `PayloadTooLong` if `len > blocksize(size)` (R88), else one frame of the bytes on PIN. -/
def fdataPlan (mode : ChecksumMode) (size : BlockSize) (seq : Byte) (len : Half) : Plan :=
  if len.toNat > blocksize size then .refuse len .payloadTooLong
  else .framing size seq mode (.supplied len)

/-- The meaning of `FDATA`. -/
def execFdata (mode : ChecksumMode) (size : BlockSize) (seq : Byte) (len : Half) (s : State) :
    Host.Outcome State Fault Refusal :=
  perform (fdataPlan mode size seq len) s

/-- `FMETA` (R90): refused with `NameTooLong` if name and digits exceed 127 bytes (R93), else the metadata block, header
0x01 and block number 0 (30_encoding.md R56). -/
def fmetaPlan (mode : ChecksumMode) (len : Half) (fsize : BitVec 32) : Plan :=
  if len.toNat + (dec fsize).length > 127 then .refuse len .nameTooLong
  else .framing .small 0x00 mode (.metadata len fsize)

/-- The meaning of `FMETA`. -/
def execFmeta (mode : ChecksumMode) (len : Half) (fsize : BitVec 32) (s : State) : Host.Outcome State Fault Refusal :=
  perform (fmetaPlan mode len fsize) s

/-- `FTERM` (R94): the terminator block, header 0x01, block number 0, 128 zero bytes. -/
def ftermPlan (mode : ChecksumMode) : Plan := .framing .small 0x00 mode .zeros

/-- The meaning of `FTERM`. -/
def execFterm (mode : ChecksumMode) (s : State) : Host.Outcome State Fault Refusal := perform (ftermPlan mode) s

end Sys2Proof.Machine
end

