-- ==== Sys2Proof/Machine/Sum8.lean ====
section
/-! DEFINITION. The commands of the checksum accumulator (spec/41_sum8.md R77, R78). -/

namespace Sys2Proof.Machine

/-- `SUM8` (R77): clear, absorb `len` bytes from PIN, answer `zext_16(SUM)`. -/
def sum8Plan (len : Half) : Plan := .engine len .sum

/-- The meaning of `SUM8`. -/
def execSum8 (len : Half) (s : State) : Host.Outcome State Fault Refusal := perform (sum8Plan len) s

/-- `RDSUM` (R78): answer `zext_16(SUM)`. -/
def rdsumPlan : Plan := .readback .sum

/-- The meaning of `RDSUM`. -/
def execRdsum (s : State) : Host.Outcome State Fault Refusal := perform rdsumPlan s

end Sys2Proof.Machine
end

