-- ==== Sys2Proof/Machine/Dispatch.lean ====
section
/-! DEFINITION. The meaning of each command, one arm per constructor (spec/30_encoding.md R42). -/

namespace Sys2Proof.Machine

def exec (i : Instr) (s : State) : Host.Outcome State Fault Refusal :=
  match i with
  | .sum8 len => Sys2Proof.Machine.execSum8 len s
  | .crc16 len => Sys2Proof.Machine.execCrc16 len s
  | .rdsum => Sys2Proof.Machine.execRdsum s
  | .rdcrc => Sys2Proof.Machine.execRdcrc s
  | .fdata mode size seq len => Sys2Proof.Machine.execFdata mode size seq len s
  | .fmeta mode len fsize => Sys2Proof.Machine.execFmeta mode len fsize s
  | .fterm mode => Sys2Proof.Machine.execFterm mode s

end Sys2Proof.Machine
end

