-- ==== Sys2Proof/Machine/Fetch.lean ====
section
/-! DEFINITION. From a descriptor to the command it stands for, and the one step of spec/42_framer.md R89 for the whole
block.  The block fetches nothing from a memory: its next command is the oldest descriptor on CMD (spec/20_memory.md
R35, R39), and a command that holds goes on from the descriptor latched in `DESC` (spec/10_state.md R12). -/

namespace Sys2Proof.Machine

/-- Run the command of descriptor `d` from where the block is in it.  A descriptor that matches no row is refused with
its own `len` (30_encoding.md R44, R48, R49; 60_exceptions.md R139). -/
def runDescriptor (d : Descriptor) (s : State) : Host.Outcome State Fault Refusal :=
  match decodeRow d with
  | .ok i => exec i s
  | .error e => perform (.refuse (fieldLen d) e) s

/-- The block's next step: none of its own while `RST` is asserted (70_reset_and_hazards.md R155); in IDLE the next
descriptor, or a hold on empty CMD; in any other phase the command in progress.  A hold keeps all state (R163): it
answers the state unchanged [DESIGN CHOICE, notes/assumptions/3.md]. -/
def nextStep (s : State) : Host.Outcome State Fault Refusal :=
  if s.rst then .next s
  else if s.phase = .idle then
    match cmdTake s with
    | none => .next s
    | some (d, s') => runDescriptor d s'
  else runDescriptor s.desc s

/-! ### The byte-by-byte step of the whole block -/

/-- The plan of a command. -/
def planOfInstr : Instr → Plan
  | .sum8 len => sum8Plan len
  | .crc16 len => crc16Plan len
  | .rdsum => rdsumPlan
  | .rdcrc => rdcrcPlan
  | .fdata mode size seq len => fdataPlan mode size seq len
  | .fmeta mode len fsize => fmetaPlan mode len fsize
  | .fterm mode => ftermPlan mode

/-- The plan of a descriptor, refused descriptors included. -/
def planOfDescriptor (d : Descriptor) : Plan :=
  match decodeRow d with
  | .ok i => planOfInstr i
  | .error e => .refuse (fieldLen d) e

/-- One step of R89: in IDLE it takes, latches and decodes the next descriptor; in any other phase it is the line of
that phase for the command in `DESC`. -/
def tick (s : State) : Move :=
  if s.rst then .hold
  else if s.phase = .idle then
    match cmdTake s with
    | none => .hold
    | some (d, s') => planTick (planOfDescriptor d) s'
  else planTick (planOfDescriptor s.desc) s

/-- `n` steps of R89 in a row; none if one of them is not enabled. -/
def ticks : Nat → State → Option State
  | 0, s => some s
  | n + 1, s =>
    match tick s with
    | .moves s' => ticks n s'
    | .hold => none
    | .stray => none

end Sys2Proof.Machine
end

