-- ==== Sys2Proof/Machine/Step.lean ====
section
/-! DEFINITION. The one step of the machine: the next command to its response, or to the next hold (spec/42_framer.md
R89 last paragraph, spec/20_memory.md R36 item 3; the finer step is `tick` of Machine/Fetch.lean)
[DESIGN CHOICE, notes/assumptions/5.md], and the state in which the next step runs a given instruction. -/

namespace Sys2Proof.Machine

/-- One step. -/
def step (s : State) : Host.Outcome State Fault Refusal := nextStep s

/-- The same state with the descriptor of bits `w` at the head of CMD, where the next step takes it, the block in IDLE
and `RST` released, so that the next step takes it at all
[DEDUCED, notes/assumptions/6.md]. -/
def State.withFetchWord (s : State) (nbits w : Nat) : State :=
  { s with cmd := BitVec.ofNat 64 (w % 2 ^ nbits) :: s.cmd, phase := .idle, rst := false }

end Sys2Proof.Machine
end

