-- ==== Sys2Proof/Machine/Environment.lean ====
section
/-! DEFINITION. What the outside world does to the block between two of its steps: the host's end of the four channels
(spec/20_memory.md R26, R29, R33) and the reset input (spec/70_reset_and_hazards.md R155, R157). -/

namespace Sys2Proof.Machine

/-- One action of the environment [DESIGN CHOICE, notes/assumptions/8.md].  There is none that removes an item from CMD or
PIN: 70_reset_and_hazards.md R157 has the host empty both after a reset inside a command, while 20_memory.md R39 gives it
no way to withdraw a descriptor, and the model follows R39 [DESIGN CHOICE, notes/assumptions/8.md]. -/
inductive HostAction where
  /-- Put a descriptor on CMD. -/
  | putCmd (d : Descriptor)
  /-- Put a byte on PIN. -/
  | putPin (b : Byte)
  /-- Take the oldest item from WOUT. -/
  | takeWout
  /-- Take the oldest word from RSP. -/
  | takeRsp
  /-- Assert `RST`. -/
  | assertRst
  /-- Release `RST`. -/
  | releaseRst
  deriving DecidableEq, Repr

/-- Releasing `RST` leaves the registers at their reset values (10_state.md R21) and every channel as it is (R157).
`CNT` and `DESC`, unspecified there, take the values `State.reset` has for them
[DESIGN CHOICE, notes/assumptions/1.md]. -/
def releaseReset (s : State) : State :=
  { s with
    crc := State.reset.crc, sum := State.reset.sum, phase := State.reset.phase, cnt := State.reset.cnt,
    desc := State.reset.desc, rst := false }

/-- The state after an action; none where the channel's capacity or emptiness does not allow it, or where `RST` is
released while it is not asserted. -/
def act (a : HostAction) (s : State) : Option State :=
  match a with
  | .putCmd d => if hasRoom s.platform.cmdCap s.cmd.length then some { s with cmd := s.cmd ++ [d] } else none
  | .putPin b => if hasRoom s.platform.pinCap s.pin.length then some { s with pin := s.pin ++ [b] } else none
  | .takeWout => match s.wout with
    | [] => none
    | _ :: ws => some { s with wout := ws }
  | .takeRsp => match s.rsp with
    | [] => none
    | _ :: rs => some { s with rsp := rs }
  | .assertRst => some { s with rst := true }
  | .releaseRst => if s.rst then some (releaseReset s) else none

end Sys2Proof.Machine
end

