-- ==== Sys2Proof/Machine/Session.lean ====
section
/-! DEFINITION. The host that drives the block, as an environment (spec/43_host_session.md): which commands with which PIN
bytes the Session Orchestrator issues, in answer to what it reads from the transport.  It is no part of the block
(spec/00_scope.md R4) and no step of the machine uses it; no rule of the block depends on the host behaving so.

Its suspension points are exactly the transport reads (R121), so one event here is the result of one read, or the response
word of the command just issued, which the host takes before it reads again; everything the host does until its next event
follows at once.  What that file leaves open is a parameter or a choice of
notes/assumptions/11.md [DESIGN CHOICE]. -/

namespace Sys2Proof.Machine

/-- The protocol variant, fixed for a session (R106). -/
inductive Variant where
  | xmodem
  | ymodem
  deriving DecidableEq, Repr

/-- The host's error kinds (60_exceptions.md R144), with one of its own for a command the block refuses. -/
inductive HostError where
  | syncTimeout
  | retryExhausted
  | ackTimeout
  | cancelled
  | transportError
  | storageError
  /-- The block refused the command, or the name or size does not fit the descriptor's fields (R118 item 6). -/
  | refusedByBlock
  deriving DecidableEq, Repr

/-- What the host does when waitACK returns 'C' after a data block: OPEN, `HOST_ON_C_REPLY` of 00_scope.md R5. -/
inductive OnCReply where
  | asNak
  | waitAgain
  | abort
  deriving DecidableEq, Repr

/-- The host's bounds, OPEN in 00_scope.md R5, and U8 of 93_implementation_defined.md.  Whether `syncAttempts`,
`waitAckAttempts` and `eotAttempts` may be 0 is not said; here a bound of 0 acts as 1: a wait makes at least one read, and
EOT is sent at least once [DESIGN CHOICE, notes/assumptions/11.md]. -/
structure HostParams where
  syncAttempts : Nat
  waitAckAttempts : Nat
  maxRetry : Nat
  eotAttempts : Nat
  onCReply : OnCReply
  /-- Whether "wait once" after the metadata block is one byte read (true) or one waitACK (false). -/
  metaReplyIsOneRead : Bool
  deriving DecidableEq, Repr

/-- Where the host is (R107), with the number of reads the current wait has made so far. -/
inductive Stage where
  | handshake (reads : Nat)
  | metaReply (reads : Nat)
  | dataReply (reads : Nat)
  | eotReply (sends reads : Nat)
  | secondSync (reads : Nat)
  | termReply (reads : Nat)
  | done
  | aborted (e : HostError)
  deriving DecidableEq, Repr

/-- What the host sends out: a command to the block with the bytes it puts on PIN (and the frame's bytes forwarded to the
transport), or one byte to the transport itself. -/
inductive HostOutput where
  | command (i : Instr) (pin : List Byte)
  | raw (b : Byte)
  deriving DecidableEq, Repr

/-- The TransferSession of R106, the file it sends, what it has sent out so far, oldest first, and whether the response of
the last command is still to be taken from RSP (R110). -/
structure Session where
  variant : Variant
  checksumMode : Option ChecksumMode
  blockSize : BlockSize
  blockNumber : Byte
  filePosition : Nat
  retryCount : Nat
  name : List Byte
  file : List Byte
  stage : Stage
  responseDue : Bool
  outputs : List HostOutput
  deriving DecidableEq, Repr

/-- The result of one transport read. -/
inductive ReadResult where
  | timeout
  | byte (b : Byte)
  deriving DecidableEq, Repr

/-- What the host goes on with: the result of a transport read, the response word of the block, or a failure of a
collaborator (R120). -/
inductive HostEvent where
  | read (r : ReadResult)
  | response (w : Response)
  | transportFailed
  | storageFailed
  deriving DecidableEq, Repr

/-- The single-byte wire symbols of 30_encoding.md R58 that the host sends or reads. -/
def wireEot : Byte := 0x04

/-- See `wireEot`. -/
def wireAck : Byte := 0x06

/-- See `wireEot`. -/
def wireNak : Byte := 0x15

/-- See `wireEot`. -/
def wireCan : Byte := 0x18

/-- See `wireEot`. -/
def wireC : Byte := 0x43

/-- The start of a transfer: block numbers start at 1 (R106, R117).  The block size before the first data block, which R106
does not give, is 128; nothing reads it before `chooseSize` sets it [DESIGN CHOICE, notes/assumptions/11.md]. -/
def startSession (variant : Variant) (name file : List Byte) : Session :=
  { variant := variant, checksumMode := none, blockSize := .small, blockNumber := 1, filePosition := 0, retryCount := 0,
    name := name, file := file, stage := .handshake 0, responseDue := false, outputs := [] }

/-- The block size policy (R111). -/
def chooseSize (variant : Variant) (remaining : Nat) : BlockSize :=
  match variant with
  | .xmodem => .small
  | .ymodem => if 128 ≤ remaining then .large else .small

/-- The bytes of the block at `filePosition`: up to `blocksize` of them (R110 step 3). -/
def blockBytes (s : Session) : List Byte := (s.file.drop s.filePosition).take (blocksize s.blockSize)

/-- Write one byte to the transport and wait at a stage. -/
def Session.write (s : Session) (b : Byte) (stage : Stage) : Session :=
  { s with outputs := s.outputs ++ [.raw b], stage := stage }

/-- Issue a command with its PIN bytes; its response is then due, and after it the host waits at a stage. -/
def Session.issue (s : Session) (i : Instr) (pin : List Byte) (stage : Stage) : Session :=
  { s with outputs := s.outputs ++ [.command i pin], stage := stage, responseDue := true }

/-- End the session with an error kind; nothing is sent (R116). -/
def Session.abort (s : Session) (e : HostError) : Session := { s with stage := .aborted e }

/-- Frame and send the block at `filePosition`, at the first attempt and at every retry alike (R110 steps 3 and 4,
R112). -/
def sendBlock (s : Session) : Session :=
  match s.checksumMode with
  | none => s
  | some m =>
    s.issue (.fdata m s.blockSize s.blockNumber (BitVec.ofNat 16 (blockBytes s).length)) (blockBytes s) (.dataReply 0)

/-- The next block, or EOT when the file source is exhausted (R110, R114). -/
def nextBlock (s : Session) : Session :=
  if s.filePosition < s.file.length then
    sendBlock { s with blockSize := chooseSize s.variant (s.file.length - s.filePosition), retryCount := 0 }
  else s.write wireEot (.eotReply 1 0)

/-- The metadata block (R109); a name and size the block would refuse or no descriptor can carry fail the transfer
(R118 item 6). -/
def sendMetadata (s : Session) : Session :=
  match s.checksumMode with
  | none => s
  | some m =>
    let i := Instr.fmeta m (BitVec.ofNat 16 s.name.length) (BitVec.ofNat 32 s.file.length)
    if s.name.length < 2 ^ 16 ∧ s.file.length < 2 ^ 32 ∧ i.lengthError = none then s.issue i s.name (.metaReply 0)
    else s.abort .refusedByBlock

/-- The handshake has chosen the checksum mode (R108). -/
def afterHandshake (m : ChecksumMode) (s : Session) : Session :=
  let s := { s with checksumMode := some m }
  match s.variant with
  | .xmodem => nextBlock s
  | .ymodem => sendMetadata s

/-- The outcome of one read inside waitACK (R113). -/
inductive AckRead where
  | cancelled
  | reply (b : Byte)
  | timedOut
  | wait (reads : Nat)
  deriving DecidableEq, Repr

/-- waitACK, one read (R113): `reads` is how many it has made before.  A bound of 0 acts as 1, see `HostParams`
[DESIGN CHOICE, notes/assumptions/11.md]. -/
def waitAck (p : HostParams) (reads : Nat) (r : ReadResult) : AckRead :=
  let onwards := if reads + 1 < p.waitAckAttempts then .wait (reads + 1) else .timedOut
  match r with
  | .byte b =>
    if b = wireCan then .cancelled
    else if b = wireNak ∨ b = wireAck ∨ b = wireC then .reply b
    else onwards
  | .timeout => onwards

/-- NAK to a data block: the retry count grows by one, and then the block is retried unchanged, or given up if the count
exceeds the bound (R110 step 5, R112). -/
def retryBlock (p : HostParams) (s : Session) : Session :=
  let s := { s with retryCount := s.retryCount + 1 }
  if s.retryCount > p.maxRetry then s.abort .retryExhausted else sendBlock s

/-- ACK to a data block (R110 step 5, R117): the 8-bit block number wraps, the position advances past the block, and the
retry count is reset, after the last block too. -/
def acknowledgeBlock (s : Session) : Session :=
  nextBlock { s with
    blockNumber := s.blockNumber + 1, filePosition := s.filePosition + (blockBytes s).length, retryCount := 0 }

/-- No ACK to EOT: send EOT again, not the data, up to the bound (R114); 0 acts as 1, see `HostParams`
[DESIGN CHOICE, notes/assumptions/11.md]. -/
def retryEot (p : HostParams) (sends : Nat) (s : Session) : Session :=
  if sends < p.eotAttempts then s.write wireEot (.eotReply (sends + 1) 0) else s.abort .ackTimeout

/-- The terminator block (R115). -/
def sendTerminator (s : Session) : Session :=
  match s.checksumMode with
  | none => s
  | some m => s.issue (.fterm m) [] (.termReply 0)

/-- The result of one read, by the stage it is read in (R107 to R116).  A bound of 0 on a handshake acts as 1, see
`HostParams` [DESIGN CHOICE, notes/assumptions/11.md]. -/
def onRead (p : HostParams) (s : Session) (r : ReadResult) : Session :=
  match s.stage with
  | .handshake n =>
    if r = .byte wireC then afterHandshake .crc16 s
    else if r = .byte wireNak then afterHandshake .arithmetic8 s
    else if n + 1 < p.syncAttempts then { s with stage := .handshake (n + 1) }
    else s.abort .syncTimeout
  | .metaReply n =>
    if p.metaReplyIsOneRead then nextBlock s
    else match waitAck p n r with
      | .wait k => { s with stage := .metaReply k }
      | _ => nextBlock s
  | .dataReply n =>
    match waitAck p n r with
    | .cancelled => s.abort .cancelled
    | .timedOut => s.abort .cancelled
    | .wait k => { s with stage := .dataReply k }
    | .reply b =>
      if b = wireAck then acknowledgeBlock s
      else if b = wireNak then retryBlock p s
      else match p.onCReply with
        | .asNak => retryBlock p s
        | .waitAgain => { s with stage := .dataReply 0 }
        | .abort => s.abort .cancelled
  | .eotReply k n =>
    match waitAck p n r with
    | .cancelled => s.abort .cancelled
    | .timedOut => retryEot p k s
    | .wait n' => { s with stage := .eotReply k n' }
    | .reply b =>
      if b = wireAck then
        match s.variant with
        | .xmodem => { s with stage := .done }
        | .ymodem => { s with stage := .secondSync 0 }
      else retryEot p k s
  | .secondSync n =>
    if r = .byte wireC then sendTerminator s
    else if n + 1 < p.syncAttempts then { s with stage := .secondSync (n + 1) }
    else s.abort .syncTimeout
  | .termReply n =>
    match waitAck p n r with
    | .cancelled => s.abort .cancelled
    | .timedOut => s.abort .ackTimeout
    | .wait k => { s with stage := .termReply k }
    | .reply b => if b = wireAck then { s with stage := .done } else s.abort .ackTimeout
  | .done => s
  | .aborted _ => s

/-- The session is over (R116). -/
def Session.over (s : Session) : Bool :=
  match s.stage with
  | .done => true
  | .aborted _ => true
  | _ => false

/-- The response of the last command, taken from RSP: its status must be 0x00 (R110); any other fails the transfer with a
kind of its own (R118 item 6, 60_exceptions.md R144), whichever frame command it answers
[DESIGN CHOICE, notes/assumptions/11.md]. -/
def takeResponse (s : Session) (w : Response) : Session :=
  let s := { s with responseDue := false }
  if responseStatus w = statusDone then s else s.abort .refusedByBlock

/-- One event: a collaborator's failure ends a running session with its own kind (R120, 60_exceptions.md R144).  While a
response is due the host makes no read, and while none is due RSP is empty (one word for each command), so the other event
cannot come and changes nothing [DESIGN CHOICE, notes/assumptions/11.md]. -/
def onEvent (p : HostParams) (s : Session) (r : HostEvent) : Session :=
  if s.over then s
  else match r with
    | .transportFailed => s.abort .transportError
    | .storageFailed => s.abort .storageError
    | .response w => if s.responseDue then takeResponse s w else s
    | .read r => if s.responseDue then s else onRead p s r

/-- A session under a list of events. -/
def runSession (p : HostParams) (s : Session) (rs : List HostEvent) : Session := rs.foldl (onEvent p) s

/-- The commands of a list of outputs, in order. -/
def commandsOf : List HostOutput → List (Instr × List Byte)
  | [] => []
  | .command i pin :: os => (i, pin) :: commandsOf os
  | .raw _ :: os => commandsOf os

/-- The checksum mode a frame command carries. -/
def modeOf : Instr → Option ChecksumMode
  | .sum8 _ => none
  | .crc16 _ => none
  | .rdsum => none
  | .rdcrc => none
  | .fdata mode _ _ _ => some mode
  | .fmeta mode _ _ => some mode
  | .fterm mode => some mode

end Sys2Proof.Machine
end

