-- ==== Sys2Proof/Safety.lean ====
section
/-! DEFINITION. The terms the claims use: what the block waits for, when a command has everything it needs, which states
are coherent, and which are reachable. -/

namespace Sys2Proof.Machine

/-! ### Holds (spec/70_reset_and_hazards.md R163) -/

/-- What lifts a hold. -/
inductive WaitsFor where
  | reset
  | descriptor
  | pinByte
  | woutRoom
  | rspRoom
  deriving DecidableEq, Repr

/-- What the block waits for, read from R163 and the fields of `DESC`: CMD in IDLE; PIN in ABSORB, PAY and DRAIN while
`CNT` is below `DESC.len`; WOUT in HDR, SEQ, NSEQ, PAY and TRL; RSP in RSP; the release of `RST` (R155).  None when the
next step is enabled. -/
def waitsFor (s : State) : Option WaitsFor :=
  let pinDry := s.cnt < fieldLen s.desc ∧ s.pin = []
  let woutFull := hasRoom s.platform.woutCap s.wout.length = false
  if s.rst then some .reset
  else
    match s.phase with
    | .idle => if s.cmd = [] then some .descriptor else none
    | .drain | .absorb => if pinDry then some .pinByte else none
    | .hdr | .seq | .nseq | .trl => if woutFull then some .woutRoom else none
    | .pay => if pinDry then some .pinByte else if woutFull then some .woutRoom else none
    | .rsp => if hasRoom s.platform.rspCap s.rsp.length = false then some .rspRoom else none

/-- The block makes no step until the environment acts. -/
abbrev Holds (s : State) : Prop := waitsFor s ≠ none

/-! ### What a command needs from the environment (spec/70_reset_and_hazards.md R164) -/

/-- A channel of capacity `cap` that holds `n` items accepts `k` more without any being taken. -/
def accepts (cap : Option Nat) (n k : Nat) : Prop :=
  match cap with
  | none => True
  | some c => n + k ≤ c

/-- The host has supplied the `len` bytes of a command. -/
abbrev Supplied (len : Half) (s : State) : Prop := len.toNat ≤ s.pin.length

/-- The consumer of WOUT accepts `k` more items. -/
abbrev WoutAccepts (k : Nat) (s : State) : Prop := accepts s.platform.woutCap s.wout.length k

/-- The consumer of RSP accepts one more word. -/
abbrev RspAccepts (s : State) : Prop := accepts s.platform.rspCap s.rsp.length 1

/-- How many steps of R89 a command still takes once it has left IDLE, if every item it needs is there (R164): one for
each byte left to take or put, one to leave ABSORB or DRAIN, one for the response. -/
def stepsLeft (p : Plan) (phase : Phase) (cnt : Half) : Nat :=
  match phase, p with
  | .drain, .refuse len _ => len.toNat - cnt.toNat + 2
  | .absorb, .engine len _ => len.toNat - cnt.toNat + 2
  | .hdr, .framing size _ mode _ => 3 + blocksize size + trailerLength mode + 1
  | .seq, .framing size _ mode _ => 2 + blocksize size + trailerLength mode + 1
  | .nseq, .framing size _ mode _ => 1 + blocksize size + trailerLength mode + 1
  | .pay, .framing size _ mode _ => blocksize size - cnt.toNat + trailerLength mode + 1
  | .trl, .framing _ _ mode _ => trailerLength mode - cnt.toNat + 1
  | .rsp, _ => 1
  | _, _ => 0

/-- The bytes of a frame as they appear on WOUT: the marker is 1 on the final byte and 0 on every other
(spec/30_encoding.md R57). -/
def marked : List Byte → List WireByte
  | [] => []
  | [b] => [⟨b, true⟩]
  | b :: c :: bs => ⟨b, false⟩ :: marked (c :: bs)

/-- The payload of `FDATA` (42_framer.md R86): the `len` bytes at the head of PIN, padded to the block size. -/
def dataPayload (size : BlockSize) (len : Half) (s : State) : List Byte :=
  pad (s.pin.take len.toNat) (blocksize size)

/-- The payload of `FMETA` (R90): the `len` name bytes at the head of PIN, NUL, the digits, zeros. -/
def namePayload (len : Half) (fsize : BitVec 32) (s : State) : List Byte :=
  metaPayload (s.pin.take len.toNat) fsize

/-- The number of bytes a command puts on WOUT (20_memory.md R27, 30_encoding.md R55). -/
def woutCount : Instr → Nat
  | .sum8 _ => 0
  | .crc16 _ => 0
  | .rdsum => 0
  | .rdcrc => 0
  | .fdata mode size _ _ => 3 + blocksize size + trailerLength mode
  | .fmeta mode _ _ => 3 + 128 + trailerLength mode
  | .fterm mode => 3 + 128 + trailerLength mode

/-- How many steps of R89 a descriptor takes from IDLE to IDLE if nothing holds (70_reset_and_hazards.md R164). -/
def stepCount (d : Descriptor) : Nat :=
  match decode d with
  | .error _ => (fieldLen d).toNat + 3
  | .ok i =>
    match i with
    | .sum8 len => len.toNat + 3
    | .crc16 len => len.toNat + 3
    | .rdsum => 2
    | .rdcrc => 2
    | .fdata mode size _ _ => blocksize size + 5 + trailerLength mode
    | .fmeta mode _ _ => 128 + 5 + trailerLength mode
    | .fterm mode => 128 + 5 + trailerLength mode

/-- The environment has supplied everything the next descriptor needs, so that no step of its command holds
(R164): its `len` bytes, room for what it puts on WOUT, room for its response. -/
def Unhindered (d : Descriptor) (s : State) : Prop :=
  s.rst = false ∧ s.phase = .idle ∧ Supplied (fieldLen d) s ∧ RspAccepts s ∧
    ∀ i, decode d = .ok i → WoutAccepts (woutCount i) s

/-! ### Capacities and the consumers of the outputs (spec/20_memory.md R29) -/

/-- The same state on a platform whose channels are unbounded. -/
def State.unbounded (s : State) : State :=
  { s with platform := { s.platform with cmdCap := none, pinCap := none, woutCap := none, rspCap := none } }

/-- The same state after the host has taken `j` items from WOUT and `k` words from RSP. -/
def State.afterTaking (j k : Nat) (s : State) : State := { s with wout := s.wout.drop j, rsp := s.rsp.drop k }

/-! ### Coherent states -/

/-- `PHASE` and `CNT` are where 42_framer.md R89 can have left them inside the command whose plan is `p`. -/
def phaseFits (p : Plan) (phase : Phase) (cnt : Half) : Bool :=
  match phase, p with
  | .idle, _ => true
  | .drain, .refuse len _ => decide (cnt ≤ len)
  | .absorb, .engine len _ => decide (cnt ≤ len)
  | .hdr, .framing _ _ _ _ => true
  | .seq, .framing _ _ _ _ => true
  | .nseq, .framing _ _ _ _ => true
  | .pay, .framing size _ _ _ => decide (cnt.toNat < blocksize size)
  | .trl, .framing _ _ mode _ => decide (cnt = 0 ∨ mode = .crc16 ∧ cnt = 1)
  | .rsp, _ => true
  | _, _ => false

/-- A channel holds no more than its capacity. -/
def within (cap : Option Nat) (n : Nat) : Bool :=
  match cap with
  | none => true
  | some c => decide (n ≤ c)

/-- The states a run can reach: the phase belongs to the command latched in `DESC`, and no channel holds more than its
capacity. -/
abbrev Coherent (s : State) : Prop :=
  phaseFits (planOfDescriptor s.desc) s.phase s.cnt = true ∧
  within s.platform.cmdCap s.cmd.length = true ∧ within s.platform.pinCap s.pin.length = true ∧
  within s.platform.woutCap s.wout.length = true ∧ within s.platform.rspCap s.rsp.length = true

/-- A response word the block can have put (spec/30_encoding.md R50, R51): the status is one of the four, bits 23:16 are
0, and a refusal's value is 0. -/
abbrev ResponseOk (r : Response) : Prop :=
  (responseStatus r).toNat ≤ 3 ∧ responseZero r = 0 ∧ (responseStatus r ≠ statusDone → responseValue r = 0)

/-! ### The bytes the accumulators stand for (spec/10_state.md R18, R19, R22) -/

/-- The descriptor the next step works on: the oldest on CMD in IDLE, the latched one in any other phase; none where there
is none or `RST` is asserted. -/
def currentDescriptor (s : State) : Option Descriptor :=
  if s.rst then none else if s.phase = .idle then s.cmd.head? else some s.desc

/-- The accepted command the next step works on. -/
def currentCommand (s : State) : Option Instr := (currentDescriptor s).bind fun d => (decode d).toOption

/-- All the bytes a command absorbs when `data` are the bytes PIN supplies, from its first on (R22): the `len` bytes of
`SUM8` and `CRC16`, the payload of a frame command; none says that the command absorbs nothing and clears nothing. -/
def absorbedBytes (data : List Byte) : Instr → Option (List Byte)
  | .sum8 len => some (data.take len.toNat)
  | .crc16 len => some (data.take len.toNat)
  | .rdsum => none
  | .rdcrc => none
  | .fdata _ size _ len => some (pad (data.take len.toNat) (blocksize size))
  | .fmeta _ len fsize => some (metaPayload (data.take len.toNat) fsize)
  | .fterm _ => some (zeros 128)

/-- How many bytes a command absorbs in all (10_state.md R23). -/
def absorbedTotal : Instr → Nat
  | .sum8 len => len.toNat
  | .crc16 len => len.toNat
  | .rdsum => 0
  | .rdcrc => 0
  | .fdata _ size _ _ => blocksize size
  | .fmeta _ _ _ => 128
  | .fterm _ => 128

/-- How many bytes the command `i` has absorbed where its phase is that of `s`: none before the payload, `CNT` inside it,
all of them afterwards. -/
def absorbedSoFar (i : Instr) (s : State) : Nat :=
  match s.phase with
  | .hdr | .seq | .nseq => 0
  | .absorb | .pay => s.cnt.toNat
  | .idle | .drain | .trl | .rsp => absorbedTotal i

/-- The list the accumulators stand for after a step from `s` to `t`, if it was `bs` before.  An absorbing command starts a
new list when it leaves IDLE, and goes on with the old one after a hold; the bytes are those PIN supplies behind the ones
already absorbed, and those the command makes.  Read-back, a refused descriptor and waiting leave the list. -/
def absorbedAfter (s t : State) (bs : List Byte) : List Byte :=
  match currentCommand s with
  | none => bs
  | some i =>
    match absorbedBytes ((if s.phase = .idle then [] else bs) ++ s.pin) i with
    | none => bs
    | some all => all.take (absorbedSoFar i t)

/-- `bs` is the list the accumulators of `s` stand for: they are its checksums, and inside a command it is as long as the
phase says and made of that command's bytes. -/
def StandFor (s : State) (bs : List Byte) : Prop :=
  s.crc = crc16 bs ∧ s.sum = sum8 bs ∧
  (s.phase ≠ .idle → ∀ i all, decode s.desc = .ok i → absorbedBytes bs i = some all →
    bs.length = absorbedSoFar i s ∧ bs = all.take (absorbedSoFar i s))

/-! ### What tells two states apart (spec/10_state.md R12, R13) -/

/-- The phases whose lines in 42_framer.md R89 read `CNT`; every other phase sets it before it is read. -/
def readsCnt : Phase → Bool
  | .drain | .absorb | .pay | .trl => true
  | .idle | .hdr | .seq | .nseq | .rsp => false

/-- The two states differ at most in `DESC`, and in `CNT` where the phase does not read it. -/
def AlikeToTheSequencer (s t : State) : Prop :=
  s.crc = t.crc ∧ s.sum = t.sum ∧ s.phase = t.phase ∧ s.rst = t.rst ∧ s.cmd = t.cmd ∧ s.pin = t.pin ∧
  s.wout = t.wout ∧ s.rsp = t.rsp ∧ s.platform = t.platform ∧ (readsCnt s.phase = true → s.cnt = t.cnt)

/-! ### Runs -/

/-- A capacity of at least one item (spec/20_memory.md R29). -/
def capOk : Option Nat → Bool
  | none => true
  | some c => decide (1 ≤ c)

/-- The capacities R29 allows. -/
abbrev PlatformOk (p : Platform) : Prop :=
  capOk p.cmdCap = true ∧ capOk p.pinCap = true ∧ capOk p.woutCap = true ∧ capOk p.rspCap = true

/-- The states that runs from reset reach: steps of R89 and actions of the environment, in any order, on any platform
R29 allows. -/
inductive Reachable : State → Prop where
  | reset (p : Platform) (h : PlatformOk p) : Reachable { State.reset with platform := p }
  | tick (s s' : State) (h : Reachable s) (h' : tick s = .moves s') : Reachable s'
  | act (a : HostAction) (s s' : State) (h : Reachable s) (h' : act a s = some s') : Reachable s'

/-! ### Polynomials over GF(2) (spec/40_crc16.md R70 item 6) -/

open Polynomial in
/-- The polynomial whose coefficient of x^i is bit i. -/
noncomputable def bitPoly {w : Nat} (v : BitVec w) : (ZMod 2)[X] :=
  (Finset.range w).sum fun i => if v.getLsbD i then X ^ i else 0

open Polynomial in
/-- The polynomial of a byte list, first byte and most significant bit first. -/
noncomputable def messagePoly (bs : List Byte) : (ZMod 2)[X] := bs.foldl (fun m b => m * X ^ 8 + bitPoly b) 0

open Polynomial in
/-- G(x) = x^16 + x^12 + x^5 + 1. -/
noncomputable def generator : (ZMod 2)[X] := X ^ 16 + X ^ 12 + X ^ 5 + 1

end Sys2Proof.Machine
end

