-- ==== Sys2Proof/Certificates/Slice0/Obligations.lean ====
section
/-! DEFINITION. The statements for the provers, from the numbered rules of spec/. -/

open Sys2Proof Sys2Proof.Machine

/-! ### Reset -/

/-- 10_state.md R21: what reset leaves in the registers it gives a value.  (What `State.reset` holds in `CNT`, `DESC` and
the channels is the model's choice, notes/assumptions/1.md and 2.md, and not stated here.) -/
def Obligations.ResetClearsAccumulatorsAndIsIdle : Prop :=
  State.reset.crc = 0x0000 ∧ State.reset.sum = 0x00 ∧ State.reset.phase = .idle

/-- 70_reset_and_hazards.md R155, R157: while `RST` is asserted the block makes no step, whatever phase it was in; when it
is released the registers are those of reset, and the command in progress has gone without a further byte or a response:
the four channels are as they were.  (That `step` answers the same state while `RST` is asserted, the clause
`step s₁ = .next s₁`, is the model's choice, notes/assumptions/3.md.) -/
def Obligations.ResetAbandonsTheCommandInProgress : Prop :=
  ∀ s : State, ∃ s₁, act .assertRst s = some s₁ ∧ tick s₁ = .hold ∧ step s₁ = .next s₁ ∧
    ∃ s₂, act .releaseRst s₁ = some s₂ ∧ s₂.crc = 0x0000 ∧ s₂.sum = 0x00 ∧ s₂.phase = .idle ∧ s₂.rst = false ∧
      s₂.cmd = s.cmd ∧ s₂.pin = s.pin ∧ s₂.wout = s.wout ∧ s₂.rsp = s.rsp

/-- 10_state.md R12, R13, R21, 93_implementation_defined.md U14: in IDLE the contents of `CNT` and `DESC` are not
observable.  Two states that differ only there step alike, holds included: the same channels, accumulators and phase, the
same `DESC` as soon as a command has been taken, and the same `CNT` in the phases that read it.  The same holds of `CNT`
alone in the other phases that set it before they read it, so the likeness is carried past every hold. -/
def Obligations.IdleCntAndDescAreUnobservable : Prop :=
  (∀ (s t : State) (c : Half) (d : Descriptor), s.phase = .idle → step s = .next t →
    ∃ t', step { s with cnt := c, desc := d } = .next t' ∧ AlikeToTheSequencer t t' ∧
      (s.rst = false → s.cmd ≠ [] → t'.desc = t.desc)) ∧
  ∀ (s t : State) (c : Half), readsCnt s.phase = false → step s = .next t →
    ∃ t', step { s with cnt := c } = .next t' ∧ AlikeToTheSequencer t t' ∧ t'.desc = t.desc

/-! ### Encoding -/

/-- 30_encoding.md R40, R41, R43: every command with every operand value its fields admit decodes to itself, and is
accepted exactly when it passes its length test. -/
def Obligations.DecodeOfEncodeIsTheCommand : Prop :=
  ∀ i : Instr, decodeRow (encode i) = .ok i ∧ (i.WellFormed → decode (encode i) = .ok i)

/-- 30_encoding.md R40, R49: no bit of a descriptor is ignored; each command has exactly one descriptor. -/
def Obligations.EveryAcceptedDescriptorIsTheEncodingOfItsCommand : Prop :=
  ∀ (d : Descriptor) (i : Instr), decode d = .ok i → i.WellFormed ∧ encode i = d

/-- 30_encoding.md R64: the thirteen descriptors written out there decode to the commands beside them. -/
def Obligations.WrittenDescriptorsDecodeToTheirCommands : Prop :=
  decode 0x1000000900000000 = .ok (.sum8 9) ∧
  decode 0x2000000900000000 = .ok (.crc16 9) ∧
  decode 0x2000000000000000 = .ok (.crc16 0) ∧
  decode 0x3000000000000000 = .ok .rdsum ∧
  decode 0x4000000000000000 = .ok .rdcrc ∧
  decode 0x8001000500000000 = .ok (.fdata .arithmetic8 .small 1 5) ∧
  decode 0x8101000500000000 = .ok (.fdata .crc16 .small 1 5) ∧
  decode 0x8302040000000000 = .ok (.fdata .crc16 .large 2 1024) ∧
  decode 0x82FF012C00000000 = .ok (.fdata .arithmetic8 .large 255 300) ∧
  decode 0x9100000500000005 = .ok (.fmeta .crc16 5 5) ∧
  decode 0x9000000500000005 = .ok (.fmeta .arithmetic8 5 5) ∧
  decode 0xA100000000000000 = .ok (.fterm .crc16) ∧
  decode 0xA000000000000000 = .ok (.fterm .arithmetic8)

/-- 60_exceptions.md R136: a descriptor is `IllegalCommand` exactly for a reserved opcode, a non-zero `rsv`, or a non-zero
field that its command's row marks "0". -/
def Obligations.IllegalCommandIsExactlyReservedOpcodeOrField : Prop :=
  ∀ d : Descriptor, decode d = .error .illegalCommand ↔
    (fieldOp d ∈ ([0x0, 0x5, 0x6, 0x7, 0xB, 0xC, 0xD, 0xE, 0xF] : List (BitVec 4)) ∨ fieldRsv d ≠ 0 ∨
    (fieldOp d = 0x1 ∨ fieldOp d = 0x2) ∧
      (fieldSize d ≠ 0 ∨ fieldMode d ≠ 0 ∨ fieldSeq d ≠ 0 ∨ fieldFsize d ≠ 0) ∨
    (fieldOp d = 0x3 ∨ fieldOp d = 0x4) ∧
      (fieldSize d ≠ 0 ∨ fieldMode d ≠ 0 ∨ fieldSeq d ≠ 0 ∨ fieldLen d ≠ 0 ∨ fieldFsize d ≠ 0) ∨
    fieldOp d = 0x8 ∧ fieldFsize d ≠ 0 ∨
    fieldOp d = 0x9 ∧ (fieldSize d ≠ 0 ∨ fieldSeq d ≠ 0) ∨
    fieldOp d = 0xA ∧ (fieldSize d ≠ 0 ∨ fieldSeq d ≠ 0 ∨ fieldLen d ≠ 0 ∨ fieldFsize d ≠ 0))

/-- 60_exceptions.md R137, R138: the two length errors, each of one command that is otherwise well formed. -/
def Obligations.LengthErrorsAreExactlyTheirCommandsOverlong : Prop :=
  ∀ d : Descriptor,
    (decode d = .error .payloadTooLong ↔ ∃ mode size seq len,
      decodeRow d = .ok (.fdata mode size seq len) ∧ len.toNat > blocksize size) ∧
    (decode d = .error .nameTooLong ↔ ∃ mode len fsize,
      decodeRow d = .ok (.fmeta mode len fsize) ∧ len.toNat + (dec fsize).length > 127)

/-- opcode_table.json: a descriptor is a row's command exactly when `d AND mask = match`. -/
def Obligations.DecodingFollowsMatchAndMaskOfTheOpcodeTable : Prop :=
  ∀ d : Descriptor,
    (d &&& 0xFFFF0000FFFFFFFF = 0x1000000000000000 ↔ ∃ len, decodeRow d = .ok (.sum8 len)) ∧
    (d &&& 0xFFFF0000FFFFFFFF = 0x2000000000000000 ↔ ∃ len, decodeRow d = .ok (.crc16 len)) ∧
    (d &&& 0xFFFFFFFFFFFFFFFF = 0x3000000000000000 ↔ decodeRow d = .ok .rdsum) ∧
    (d &&& 0xFFFFFFFFFFFFFFFF = 0x4000000000000000 ↔ decodeRow d = .ok .rdcrc) ∧
    (d &&& 0xFC000000FFFFFFFF = 0x8000000000000000 ↔
      ∃ mode size seq len, decodeRow d = .ok (.fdata mode size seq len)) ∧
    (d &&& 0xFEFF000000000000 = 0x9000000000000000 ↔ ∃ mode len fsize, decodeRow d = .ok (.fmeta mode len fsize)) ∧
    (d &&& 0xFEFFFFFFFFFFFFFF = 0xA000000000000000 ↔ ∃ mode, decodeRow d = .ok (.fterm mode))

/-! ### The CRC-16/CCITT generator -/

/-- 40_crc16.md R66: the two worked traces, with the bit each inner step shifts out, and the further single steps. -/
def Obligations.WorkedCrcTracesAreReproduced : Prop :=
  ([1, 2, 3, 4, 5, 6, 7, 8].map (crcShifts · 0x3100)) =
    [0x6200, 0xC400, 0x9821, 0x2063, 0x40C6, 0x818C, 0x1339, 0x2672] ∧
  ([0, 1, 2, 3, 4, 5, 6, 7].map fun k => (crcShifts k 0x3100).getLsbD 15) =
    [false, false, true, true, false, false, true, false] ∧
  (0x0000 : Half) ^^^ ((0x31 : Byte) ++ (0 : Byte)) = (0x3100 : Half) ∧
  (0x2672 : Half) ^^^ ((0x32 : Byte) ++ (0 : Byte)) = (0x1472 : Half) ∧
  ([1, 2, 3, 4, 5, 6, 7, 8].map (crcShifts · 0x1472)) =
    [0x28E4, 0x51C8, 0xA390, 0x5701, 0xAE02, 0x4C25, 0x984A, 0x20B5] ∧
  ([0, 1, 2, 3, 4, 5, 6, 7].map fun k => (crcShifts k 0x1472).getLsbD 15) =
    [false, false, false, true, false, true, false, true] ∧
  crcStep 0x0000 0x31 = 0x2672 ∧ crcStep 0x2672 0x32 = 0x20B5 ∧
  crcStep 0x0000 0x00 = 0x0000 ∧ crcStep 0x0000 0x01 = 0x1021 ∧ crcStep 0x0000 0x80 = 0x9188 ∧
  crcStep 0x0000 0xFF = 0x1EF0 ∧ crcStep 0x0000 0x41 = 0x58E5 ∧ crcStep 0xFFFF 0x00 = 0xE1F0 ∧
  crcStep 0x00FF 0xFF = 0xE1F0 ∧ crcStep 0xFF00 0xFF = 0x0000 ∧ crcStep 0x0001 0x00 = 0x0100 ∧
  crcStep 0x1234 0x56 = 0x3C40

/-- 40_crc16.md R70 items 2 and 3: the CRC is linear over XOR, and a step depends only on `c XOR (b << 8)`. -/
def Obligations.CrcIsLinearOverXor : Prop :=
  (∀ (c₁ c₂ : Half) (b₁ b₂ : Byte), crcStep (c₁ ^^^ c₂) (b₁ ^^^ b₂) = crcStep c₁ b₁ ^^^ crcStep c₂ b₂) ∧
  (∀ (c : Half) (b : Byte), crcStep c b = crcStep (c ^^^ (b ++ (0 : Byte))) 0) ∧
  (∀ xs ys : List Byte, xs.length = ys.length → crc16 (xs.zipWith (· ^^^ ·) ys) = crc16 xs ^^^ crc16 ys)

/-- 40_crc16.md R70 items 1 and 5: zeros in front change nothing, and the accumulator is the only state. -/
def Obligations.CrcContinuesFromTheAccumulatorAlone : Prop :=
  (∀ n, crc16 (zeros n) = 0) ∧ (∀ n bs, crc16 (zeros n ++ bs) = crc16 bs) ∧
  (∀ xs ys : List Byte, crc16 (xs ++ ys) = ys.foldl crcStep (crc16 xs))

/-- 40_crc16.md R70 item 4: a receiver that runs the CRC over payload and trailer, high byte first, gets zero. -/
def Obligations.CrcOverPayloadAndTrailerIsZero : Prop :=
  ∀ bs : List Byte, crc16 (bs ++ [crcHigh (crc16 bs), crcLow (crc16 bs)]) = 0x0000

/-- 40_crc16.md R70 item 6 (marked there as general knowledge): the bit-serial CRC is the remainder of M(x) x^16 divided
by G(x) over GF(2). -/
def Obligations.CrcIsThePolynomialRemainder : Prop :=
  ∀ bs : List Byte, bitPoly (crc16 bs) = (messagePoly bs * Polynomial.X ^ 16) %ₘ generator

/-! ### The checksum accumulator -/

/-- 41_sum8.md R75, R76: reducing after every addition or once at the end gives the same byte; and the examples. -/
def Obligations.Sum8IsTheSumModulo256 : Prop :=
  (∀ s b : Byte, (sumStep s b).toNat = (s.toNat + b.toNat) % 256) ∧
  sumStep 0x00 0x00 = 0x00 ∧ sumStep 0x14 0x6F = 0x83 ∧ sumStep 0xFF 0x01 = 0x00 ∧ sumStep 0xFF 0xFF = 0xFE ∧
  sumStep 0x80 0x80 = 0x00 ∧ sum8 [] = 0x00 ∧
  (∀ (b : Byte) (bs : List Byte), sum8 (bs ++ [b]) = sumStep (sum8 bs) b) ∧
  (∀ bs : List Byte, (sum8 bs).toNat = (bs.map BitVec.toNat).sum % 256)

/-- 41_sum8.md R80: order and zeros do not matter, sums add up, equal bytes multiply, and a 1024-byte payload's unreduced
sum is at most 261120, which needs 18 bits. -/
def Obligations.Sum8Laws : Prop :=
  (∀ xs ys : List Byte, xs.Perm ys → sum8 xs = sum8 ys) ∧
  (∀ (bs : List Byte) (n : Nat), sum8 (bs ++ zeros n) = sum8 bs) ∧
  (∀ xs ys : List Byte, (sum8 (xs ++ ys)).toNat = ((sum8 xs).toNat + (sum8 ys).toNat) % 256) ∧
  (∀ (n : Nat) (b : Byte), (sum8 (List.replicate n b)).toNat = (n * b.toNat) % 256) ∧
  sum8 (List.replicate 128 0xFF) = 0x80 ∧ (∀ b : Byte, sum8 (List.replicate 1024 b) = 0x00) ∧
  (∀ bs : List Byte, bs.length = 1024 → (bs.map BitVec.toNat).sum ≤ 261120) ∧
  ((List.replicate 1024 (0xFF : Byte)).map BitVec.toNat).sum = 261120 ∧ 2 ^ 17 ≤ 261120 ∧ 261120 < 2 ^ 18

/-! ### The parts of a packet -/

/-- 42_framer.md R92: `dec` by its own recursion, its length by the size of the number, and the examples. -/
def Obligations.DecIsTheDecimalNumeral : Prop :=
  dec 0 = [0x30] ∧
  (∀ n : BitVec 32, 10 ≤ n.toNat →
    dec n = dec (BitVec.ofNat 32 (n.toNat / 10)) ++ [BitVec.ofNat 8 (0x30 + n.toNat % 10)]) ∧
  (∀ n : BitVec 32, 1 ≤ n.toNat → n.toNat ≤ 9 → dec n = [BitVec.ofNat 8 (0x30 + n.toNat)]) ∧
  (∀ (n : BitVec 32) (k : Nat), 10 ^ k ≤ n.toNat → n.toNat < 10 ^ (k + 1) → (dec n).length = k + 1) ∧
  dec 5 = [0x35] ∧ dec 1024 = [0x31, 0x30, 0x32, 0x34] ∧
  dec 4294967295 = [0x34, 0x32, 0x39, 0x34, 0x39, 0x36, 0x37, 0x32, 0x39, 0x35]

/-- 42_framer.md R92 read backwards: the digits of `dec n` are decimal digits and evaluate to `n`, so no file size is sent
as another. -/
def Obligations.DecDigitsEvaluateToTheFileSize : Prop :=
  ∀ n : BitVec 32,
    (∀ b ∈ dec n, 0x30 ≤ b.toNat ∧ b.toNat ≤ 0x39) ∧
    (dec n).foldl (fun v b => 10 * v + (b.toNat - 0x30)) 0 = n.toNat ∧
    ((dec n).head? = some 0x30 → n = 0)

/-- 30_encoding.md R53: the three spellings of the complement byte are one value, and the examples. -/
def Obligations.SeqComplementHasThreeEqualSpellings : Prop :=
  (∀ seq : Byte, seqComplement seq = 0xFF ^^^ seq ∧ seqComplement seq = (0xFF - seq) &&& 0xFF ∧
    (seqComplement seq).toNat = 0xFF - seq.toNat) ∧
  seqComplement 0x00 = 0xFF ∧ seqComplement 0x01 = 0xFE ∧ seqComplement 0x7F = 0x80 ∧
  seqComplement 0x80 = 0x7F ∧ seqComplement 0xFF = 0x00

/-- 30_encoding.md R60: the metadata payload, index by index, for a name of n bytes and a size of k digits. -/
def Obligations.MetadataPayloadLayout : Prop :=
  ∀ (name : List Byte) (fsize : BitVec 32), name.length + 1 + (dec fsize).length ≤ 128 →
    (metaPayload name fsize).length = 128 ∧
    (∀ i, i < name.length → (metaPayload name fsize)[i]? = name[i]?) ∧
    (metaPayload name fsize)[name.length]? = some 0x00 ∧
    (∀ i, i < (dec fsize).length → (metaPayload name fsize)[name.length + 1 + i]? = (dec fsize)[i]?) ∧
    (∀ i, name.length + 1 + (dec fsize).length ≤ i → i < 128 → (metaPayload name fsize)[i]? = some 0x00)

/-- 30_encoding.md R55, 42_framer.md R84, R95 items 1, 2, 3 and 6: a frame has one of the four lengths, starts with its
header, number and complement, carries its payload whole, and its trailer is the payload's checksum: in Arithmetic8
(without the complement variant) the byte sum, in CRC16 two bytes that bring the CRC to zero. -/
def Obligations.FrameShape : Prop :=
  ∀ (size : BlockSize) (seq : Byte) (pay : List Byte), pay.length = blocksize size →
    (frame false size seq pay .arithmetic8).length = (match size with | .small => 132 | .large => 1028) ∧
    (frame false size seq pay .crc16).length = (match size with | .small => 133 | .large => 1029) ∧
    ∀ (k : Bool) (mode : ChecksumMode),
      (frame k size seq pay mode)[0]? = some (if size = .small then 0x01 else 0x02) ∧
      (frame k size seq pay mode)[1]? = some seq ∧ (frame k size seq pay mode)[2]? = some (~~~seq) ∧
      ((frame k size seq pay mode).drop 3).take (blocksize size) = pay ∧
      (frame k size seq pay mode).drop (3 + blocksize size) = trailer k mode pay ∧
      trailer false .arithmetic8 pay = [sum8 pay] ∧ crc16 (pay ++ trailer k .crc16 pay) = 0x0000

/-- 30_encoding.md R50, R51: the fields of a response word are where the table puts them, for every status and value. -/
def Obligations.ResponseWordFields : Prop :=
  (∀ (st : Byte) (v : Half), (response st v).toNat = st.toNat * 2 ^ 24 + v.toNat) ∧
  statusDone = 0x00 ∧ statusOf .illegalCommand = 0x01 ∧ statusOf .payloadTooLong = 0x02 ∧ statusOf .nameTooLong = 0x03

/-! ### The commands

Each result statement gives the whole next state, so that it is the command's frame as well: what the update does not name
is unchanged.  `CNT` is left as the lines of 42_framer.md R89 leave it.  That one `exec` is a whole command is the model's
choice among those R89 allows (notes/assumptions/5.md). -/

/-- 41_sum8.md R77. -/
def Obligations.Sum8AnswersTheSumOfItsBytes : Prop :=
  ∀ (len : Half) (s : State), s.phase = .idle → Supplied len s → RspAccepts s →
    exec (.sum8 len) s = .next { s with
      crc := crc16 (s.pin.take len.toNat), sum := sum8 (s.pin.take len.toNat), pin := s.pin.drop len.toNat,
      rsp := s.rsp ++ [response 0x00 ((sum8 (s.pin.take len.toNat)).setWidth 16)], cnt := len }

/-- 40_crc16.md R68. -/
def Obligations.Crc16AnswersTheCrcOfItsBytes : Prop :=
  ∀ (len : Half) (s : State), s.phase = .idle → Supplied len s → RspAccepts s →
    exec (.crc16 len) s = .next { s with
      crc := crc16 (s.pin.take len.toNat), sum := sum8 (s.pin.take len.toNat), pin := s.pin.drop len.toNat,
      rsp := s.rsp ++ [response 0x00 (crc16 (s.pin.take len.toNat))], cnt := len }

/-- 41_sum8.md R78 and 40_crc16.md R69: read-back answers the accumulator and changes nothing but RSP. -/
def Obligations.ReadbackAnswersTheAccumulator : Prop :=
  ∀ s : State, s.phase = .idle → RspAccepts s →
    exec .rdsum s = .next { s with rsp := s.rsp ++ [response 0x00 (s.sum.setWidth 16)] } ∧
    exec .rdcrc s = .next { s with rsp := s.rsp ++ [response 0x00 s.crc] }

/-- 42_framer.md R86: an accepted `FDATA` puts exactly the frame of its padded bytes on WOUT, the final byte marked. -/
def Obligations.FdataPutsTheFrameOfItsPaddedBytes : Prop :=
  ∀ (mode : ChecksumMode) (size : BlockSize) (seq : Byte) (len : Half) (s : State),
    len.toNat ≤ blocksize size → s.phase = .idle → Supplied len s → RspAccepts s →
    WoutAccepts (3 + blocksize size + trailerLength mode) s →
    exec (.fdata mode size seq len) s = .next { s with
      crc := crc16 (dataPayload size len s), sum := sum8 (dataPayload size len s), pin := s.pin.drop len.toNat,
      wout := s.wout ++ marked (frame s.platform.sum8Complement size seq (dataPayload size len s) mode),
      rsp := s.rsp ++ [response 0x00 0x0000], cnt := if mode = .crc16 then 1 else 0 }

/-- 42_framer.md R90, R91: an accepted `FMETA` puts exactly the metadata block on WOUT, header 0x01, number 0x00. -/
def Obligations.FmetaPutsTheMetadataBlock : Prop :=
  ∀ (mode : ChecksumMode) (len : Half) (fsize : BitVec 32) (s : State),
    len.toNat + (dec fsize).length ≤ 127 → s.phase = .idle → Supplied len s → RspAccepts s →
    WoutAccepts (3 + 128 + trailerLength mode) s →
    exec (.fmeta mode len fsize) s = .next { s with
      crc := crc16 (namePayload len fsize s), sum := sum8 (namePayload len fsize s), pin := s.pin.drop len.toNat,
      wout := s.wout ++ marked (frame s.platform.sum8Complement .small 0x00 (namePayload len fsize s) mode),
      rsp := s.rsp ++ [response 0x00 0x0000], cnt := if mode = .crc16 then 1 else 0 }

/-- 42_framer.md R94: `FTERM` puts the terminator block on WOUT; both accumulators end at zero. -/
def Obligations.FtermPutsTheTerminatorBlock : Prop :=
  ∀ (mode : ChecksumMode) (s : State), s.phase = .idle → RspAccepts s →
    WoutAccepts (3 + 128 + trailerLength mode) s →
    exec (.fterm mode) s = .next { s with
      crc := 0x0000, sum := 0x00,
      wout := s.wout ++ marked (frame s.platform.sum8Complement .small 0x00 (zeros 128) mode),
      rsp := s.rsp ++ [response 0x00 0x0000], cnt := if mode = .crc16 then 1 else 0 }

/-- 42_framer.md R94, corner cases: `FTERM` does what `FDATA` with size 128, number 0 and no byte does, in every state. -/
def Obligations.FtermIsFdataOfNothing : Prop :=
  ∀ (mode : ChecksumMode) (s : State), exec (.fterm mode) s = exec (.fdata mode .small 0x00 0) s

/-- 42_framer.md R88: `FDATA` with `len > blocksize(size)` is refused: its bytes are taken and discarded, the answer is
0x02, and nothing else changes.  The last lengths that are accepted are 128 and 1024. -/
def Obligations.OverlongFdataIsRefused : Prop :=
  (∀ (mode : ChecksumMode) (size : BlockSize) (seq : Byte) (len : Half) (s : State),
    len.toNat > blocksize size → s.phase = .idle → Supplied len s → RspAccepts s →
    exec (.fdata mode size seq len) s = .next { s with
      pin := s.pin.drop len.toNat, rsp := s.rsp ++ [response 0x02 0x0000], cnt := len }) ∧
  ∀ (mode : ChecksumMode) (seq : Byte),
    (Instr.fdata mode .small seq 128).WellFormed ∧ ¬ (Instr.fdata mode .small seq 129).WellFormed ∧
    (Instr.fdata mode .large seq 1024).WellFormed ∧ ¬ (Instr.fdata mode .large seq 1025).WellFormed

/-- 42_framer.md R93: `FMETA` whose name and digits exceed 127 bytes is refused likewise, with the answer 0x03.  With one
digit the last name that is accepted has 126 bytes, with ten digits 117. -/
def Obligations.OverlongFmetaIsRefused : Prop :=
  (∀ (mode : ChecksumMode) (len : Half) (fsize : BitVec 32) (s : State),
    len.toNat + (dec fsize).length > 127 → s.phase = .idle → Supplied len s → RspAccepts s →
    exec (.fmeta mode len fsize) s = .next { s with
      pin := s.pin.drop len.toNat, rsp := s.rsp ++ [response 0x03 0x0000], cnt := len }) ∧
  ∀ mode : ChecksumMode,
    (Instr.fmeta mode 126 5).WellFormed ∧ ¬ (Instr.fmeta mode 127 5).WellFormed ∧
    (Instr.fmeta mode 117 4294967295).WellFormed ∧ ¬ (Instr.fmeta mode 118 4294967295).WellFormed

/-- 60_exceptions.md R139: a descriptor that decodes to an error, whichever, takes its `len` bytes and answers its code;
`CRC`, `SUM` and WOUT are unchanged and the block is in IDLE again, the next descriptor at the head of CMD.  If PIN has too
few bytes, the block takes those there are and holds in DRAIN (42_framer.md R89, 70_reset_and_hazards.md R163; that one
step runs up to the response or the hold is the model's choice, notes/assumptions/5.md). -/
def Obligations.RefusedDescriptorIsDrainedAndAnswered : Prop :=
  ∀ (d : Descriptor) (ds : List Descriptor) (e : CmdError) (s : State),
    s.cmd = d :: ds → decode d = .error e → s.rst = false → s.phase = .idle →
    (Supplied (fieldLen d) s → RspAccepts s → step s = .next { s with
      cmd := ds, desc := d, pin := s.pin.drop (fieldLen d).toNat, rsp := s.rsp ++ [response (statusOf e) 0x0000],
      cnt := fieldLen d }) ∧
    (s.pin.length < (fieldLen d).toNat → step s = .next { s with
      cmd := ds, desc := d, pin := [], phase := .drain, cnt := BitVec.ofNat 16 s.pin.length })

/-- 20_memory.md R27, R35, 30_encoding.md R44, R50: every descriptor, accepted or refused, takes exactly its `len` bytes
from PIN, puts exactly the number of bytes of its row on WOUT, and answers with exactly one word (that one step is the
whole command is the model's choice, notes/assumptions/5.md). -/
def Obligations.EveryDescriptorTakesItsLenBytesAndAnswersOnce : Prop :=
  ∀ (d : Descriptor) (ds : List Descriptor) (s : State), s.cmd = d :: ds → Unhindered d s →
    ∃ t, step s = .next t ∧ t.phase = .idle ∧ t.cmd = ds ∧ t.pin = s.pin.drop (fieldLen d).toNat ∧
      t.wout.length = s.wout.length + (match decode d with | .ok i => woutCount i | .error _ => 0) ∧
      t.wout.take s.wout.length = s.wout ∧ ∃ r, t.rsp = s.rsp ++ [r]

/-- What `exec` can change, from whatever phase it starts and wherever it stops, a hold included (10_state.md R23,
20_memory.md R26, R27, R39): never CMD, `DESC`, `RST` or the platform; PIN only by taking from its head; WOUT and RSP only
by putting at their end; read-back no accumulator and no byte; the engine commands no byte of WOUT; a frame command that
is too long no accumulator and no byte of WOUT. -/
def Obligations.CommandFrame : Prop :=
  ∀ (i : Instr) (s t : State), exec i s = .next t →
    t.desc = s.desc ∧ t.rst = s.rst ∧ t.platform = s.platform ∧ t.cmd = s.cmd ∧
    (∃ taken, s.pin = taken ++ t.pin) ∧ (∃ put, t.wout = s.wout ++ put) ∧
    (t.rsp = s.rsp ∨ ∃ r, t.rsp = s.rsp ++ [r]) ∧
    (i = .rdsum ∨ i = .rdcrc → t.crc = s.crc ∧ t.sum = s.sum ∧ t.pin = s.pin ∧ t.wout = s.wout ∧ t.cnt = s.cnt) ∧
    (∀ len, i = .sum8 len ∨ i = .crc16 len → t.wout = s.wout) ∧
    (∀ mode, i = .fterm mode → t.pin = s.pin) ∧
    (i.lengthError ≠ none → t.crc = s.crc ∧ t.sum = s.sum ∧ t.wout = s.wout)

/-- 42_framer.md R95 item 5: what a frame command puts on WOUT and leaves in the accumulators depends on its operands and
its PIN bytes alone, whatever commands ran before it. -/
def Obligations.FramesDependOnOperandsAndPinBytesAlone : Prop :=
  ∀ (i : Instr) (s t s' t' : State), i.WellFormed →
    (∃ mode size seq len, i = .fdata mode size seq len) ∨ (∃ mode len fsize, i = .fmeta mode len fsize) ∨
      (∃ mode, i = .fterm mode) →
    s.phase = .idle → t.phase = .idle → s.platform.sum8Complement = t.platform.sum8Complement → s.pin = t.pin →
    exec i s = .next s' → exec i t = .next t' → s'.phase = .idle → t'.phase = .idle →
    s'.wout.drop s.wout.length = t'.wout.drop t.wout.length ∧ s'.crc = t'.crc ∧ s'.sum = t'.sum ∧ s'.pin = t'.pin

/-- 41_sum8.md R79: the build parameter `SUM8_COMPLEMENT` changes only the Arithmetic8 trailer byte on WOUT, to
`(0xFF - sum8(pay)) AND 0xFF`; the accumulators, the responses, every CRC16 frame and everything else are the same in
either case. -/
def Obligations.ComplementParameterChangesOnlyTheTrailerByte : Prop :=
  (∀ (k : Bool) (pay : List Byte), trailer k .arithmetic8 pay = [if k then (0xFF - sum8 pay) &&& 0xFF else sum8 pay]) ∧
  (∀ pay : List Byte, trailer true .crc16 pay = trailer false .crc16 pay) ∧
  ∀ (k : Bool) (s t : State), step s = .next t →
    ∃ w, step { s with platform := { s.platform with sum8Complement := k } } =
        .next { t with platform := { t.platform with sum8Complement := k }, wout := w } ∧
      w.length = t.wout.length ∧ w.map WireByte.last = t.wout.map WireByte.last ∧
      ((currentCommand s).bind modeOf ≠ some .arithmetic8 → w = t.wout) ∧
      ∀ (j : Nat) (a b : WireByte), t.wout[j]? = some a → w[j]? = some b → a ≠ b →
        (currentCommand s).bind modeOf = some .arithmetic8 ∧ a.last = true ∧ a.byte = ~~~b.byte ∧ j + 1 = t.wout.length

/-! ### The step -/

/-- 20_memory.md R35, 42_framer.md R89 line IDLE: in IDLE the next step takes the oldest descriptor, latches it and runs
the command it decodes to. -/
def Obligations.StepRunsTheDecodedCommand : Prop :=
  ∀ (s : State) (d : Descriptor) (ds : List Descriptor) (i : Instr),
    s.rst = false → s.phase = .idle → s.cmd = d :: ds → decode d = .ok i →
    step s = exec i { s with cmd := ds, desc := d }

/-- 10_state.md R12, 42_framer.md R89, 60_exceptions.md R139: in any other phase the next step goes on with the command
latched in `DESC`, a refused one included.  A refused descriptor held in DRAIN takes the bytes still missing, or those
there are, and one held in RSP answers (up to where is the model's choice, notes/assumptions/5.md). -/
def Obligations.StepResumesTheCommandInDesc : Prop :=
  ∀ s : State, s.rst = false → s.phase ≠ .idle →
    step s = runDescriptor s.desc s ∧
    (∀ i, decode s.desc = .ok i → step s = exec i s) ∧
    ∀ e, decode s.desc = .error e →
      step s = perform (.refuse (fieldLen s.desc) e) s ∧
      (s.phase = .drain → s.cnt ≤ fieldLen s.desc →
        let missing := (fieldLen s.desc).toNat - s.cnt.toNat
        (missing ≤ s.pin.length → RspAccepts s → step s = .next { s with
          pin := s.pin.drop missing, rsp := s.rsp ++ [response (statusOf e) 0x0000], cnt := fieldLen s.desc,
          phase := .idle }) ∧
        (s.pin.length < missing → step s = .next { s with
          pin := [], cnt := BitVec.ofNat 16 (s.cnt.toNat + s.pin.length) })) ∧
      (s.phase = .rsp → RspAccepts s → step s = .next { s with
        rsp := s.rsp ++ [response (statusOf e) 0x0000], phase := .idle })

/-- 20_memory.md R39: nothing the host does to CMD changes the command in progress. -/
def Obligations.CommandInProgressIgnoresCmd : Prop :=
  ∀ (s t : State) (ds : List Descriptor), s.phase ≠ .idle → step s = .next t →
    step { s with cmd := ds } = .next { t with cmd := ds }

/-- 70_reset_and_hazards.md R163: the block makes no step exactly where R163 says it holds, and keeps all state; that `step`
then answers the same state is the model's choice (notes/assumptions/3.md). -/
def Obligations.HoldsExactlyWhereTheSpecSays : Prop :=
  ∀ s : State, Coherent s → (tick s = .hold ↔ Holds s) ∧ (step s = .next s ↔ Holds s)

/-- 42_framer.md R89: a step of the model ends where the command has answered or where the block holds, nowhere else
(the model's choice among the grains R89 allows, notes/assumptions/5.md). -/
def Obligations.StepEndsIdleOrHolding : Prop :=
  ∀ s t : State, Coherent s → step s = .next t → t.phase = .idle ∨ Holds t

/-- 70_reset_and_hazards.md R163, 20_memory.md R36 item 3: a hold on PIN loses nothing; bytes that arrive late give what
they would have given at once. -/
def Obligations.LateBytesGiveTheSameResult : Prop :=
  ∀ (s u : State) (bs : List Byte), Coherent s → step s = .next u → u.phase ≠ .idle →
    step { u with pin := u.pin ++ bs } = step { s with pin := s.pin ++ bs }

/-! ### The byte-by-byte machine -/

/-- 42_framer.md R89, last paragraph: a step of the model is a run of steps of R89. -/
def Obligations.StepIsARunOfByteSteps : Prop :=
  ∀ s t : State, Coherent s → step s = .next t → ∃ n, ticks n s = some t

/-- 70_reset_and_hazards.md R164: the number of steps of R89 each command takes when nothing holds, and that they have the
effect of the whole command; in between the block is not in IDLE. -/
def Obligations.CommandTakesItsCountOfByteSteps : Prop :=
  ∀ (d : Descriptor) (ds : List Descriptor) (s : State), s.cmd = d :: ds → Unhindered d s →
    ∃ t, ticks (stepCount d) s = some t ∧ step s = .next t ∧ t.phase = .idle ∧
      ∀ k u, 0 < k → k < stepCount d → ticks k s = some u → u.phase ≠ .idle

/-- 70_reset_and_hazards.md R164: inside a command every step of R89 brings its end nearer by one, whatever the data and
however long the holds between steps, and nothing the host puts or takes puts it off.  (That asserting `RST` leaves the
count too, so that `PHASE`, `CNT` and `DESC` change at the release and not before, is no rule of the spec and the model's
choice, notes/assumptions/8.md; no step is made meanwhile, R155, and the release abandons the command, R157.) -/
def Obligations.EveryByteStepBringsTheResponseNearer : Prop :=
  ∀ s t : State, Coherent s →
    (s.phase ≠ .idle → tick s = .moves t →
      stepsLeft (planOfDescriptor t.desc) t.phase t.cnt + 1 = stepsLeft (planOfDescriptor s.desc) s.phase s.cnt) ∧
    (s.phase = .idle → tick s = .moves t →
      stepsLeft (planOfDescriptor t.desc) t.phase t.cnt + 1 = stepCount t.desc) ∧
    (∀ a, a ≠ .releaseRst → act a s = some t →
      stepsLeft (planOfDescriptor t.desc) t.phase t.cnt = stepsLeft (planOfDescriptor s.desc) s.phase s.cnt)

/-- 20_memory.md R36 item 3: when payload byte i of an accepted `FDATA` is on WOUT, exactly min(i+1, len) of its PIN bytes
have been taken, and the bytes on WOUT are the frame so far, none marked. -/
def Obligations.PinBytesTakenWhenPayloadByteAppears : Prop :=
  ∀ (d : Descriptor) (ds : List Descriptor) (mode : ChecksumMode) (size : BlockSize) (seq : Byte) (len : Half)
    (s : State) (i : Nat), s.cmd = d :: ds → decode d = .ok (.fdata mode size seq len) → Unhindered d s →
    i < blocksize size →
    ∃ u, ticks (4 + (i + 1)) s = some u ∧ u.pin = s.pin.drop (min (i + 1) len.toNat) ∧ u.rsp = s.rsp ∧
      u.wout = s.wout ++
        ([header size, seq, ~~~seq] ++ (dataPayload size len s).take (i + 1)).map (fun b => ⟨b, false⟩)

/-- 10_state.md R10, R11, R18, R19: every step of R89 leaves both accumulators, clears both, or absorbs one byte into both. -/
def Obligations.AccumulatorsChangeOnlyByClearAndAbsorb : Prop :=
  ∀ s t : State, tick s = .moves t →
    (t.crc = s.crc ∧ t.sum = s.sum) ∨ (t.crc = 0x0000 ∧ t.sum = 0x00) ∨
      ∃ b, t.crc = crcStep s.crc b ∧ t.sum = sumStep s.sum b

/-- 20_memory.md R37: the step that puts the response is the command's last: the accumulators, PIN and WOUT are final. -/
def Obligations.ResponseComesAfterEveryOtherEffect : Prop :=
  ∀ s t : State, tick s = .moves t → t.rsp ≠ s.rsp →
    t.phase = .idle ∧ t.crc = s.crc ∧ t.sum = s.sum ∧ t.pin = s.pin ∧ t.wout = s.wout ∧ ∃ r, t.rsp = s.rsp ++ [r]

/-- 42_framer.md R89 lines HDR, SEQ and NSEQ, by the fields of `DESC`: header, number and complement are those of the
descriptor for `FDATA`, 0x01, 0x00 and 0xFF otherwise. -/
def Obligations.HeaderStepsFollowTheDescriptor : Prop :=
  ∀ (s : State) (i : Instr), s.rst = false → decode s.desc = .ok i →
    (∃ mode size seq len, i = .fdata mode size seq len) ∨ (∃ mode len fsize, i = .fmeta mode len fsize) ∨
      (∃ mode, i = .fterm mode) →
    WoutAccepts 1 s →
    let isData := fieldOp s.desc = 0x8
    let number : Byte := if isData then fieldSeq s.desc else 0x00
    (s.phase = .hdr → tick s = .moves { s with
      wout := s.wout ++ [⟨if isData ∧ fieldSize s.desc = 1 then 0x02 else 0x01, false⟩], phase := .seq }) ∧
    (s.phase = .seq → tick s = .moves { s with wout := s.wout ++ [⟨number, false⟩], phase := .nseq }) ∧
    (s.phase = .nseq → tick s = .moves { s with wout := s.wout ++ [⟨~~~number, false⟩], phase := .pay, cnt := 0 })

/-! ### Channels -/

/-- 20_memory.md R26, R33: the host's end of the channels is first in, first out: an item put is the last to be taken, an
item taken is the oldest, and an action on one channel changes nothing else. -/
def Obligations.ChannelsAreFirstInFirstOut : Prop :=
  ∀ s t : State,
    (∀ d, act (.putCmd d) s = some t → t = { s with cmd := s.cmd ++ [d] }) ∧
    (∀ b, act (.putPin b) s = some t → t = { s with pin := s.pin ++ [b] }) ∧
    (act .takeWout s = some t → ∃ w, s.wout = w :: t.wout ∧ t = { s with wout := t.wout }) ∧
    (act .takeRsp s = some t → ∃ r, s.rsp = r :: t.rsp ∧ t = { s with rsp := t.rsp })

/-- 20_memory.md R29, 70_reset_and_hazards.md R163: no result depends on a capacity.  A step that completes on a bounded
platform does the same on an unbounded one.  A step that ends in a hold loses nothing either: with `v` what the unhindered
step gives, resuming after the host has taken `j` items from WOUT and `k` words from RSP gives `v` without those items, on
the unbounded platform at once and on the bounded one as soon as the command completes. -/
def Obligations.ResultsDoNotDependOnCapacities : Prop :=
  ∀ s t : State, Coherent s → step s = .next t →
    (t.phase = .idle → step s.unbounded = .next t.unbounded) ∧
    (t.phase ≠ .idle → ∀ j k, j ≤ t.wout.length → k ≤ t.rsp.length →
      ∃ v, step s.unbounded = .next v ∧ step (t.unbounded.afterTaking j k) = .next (v.afterTaking j k) ∧
        ∀ t', step (t.afterTaking j k) = .next t' → t'.phase = .idle → t'.unbounded = v.afterTaking j k)

/-! ### Invariants -/

/-- Coherence holds at reset, on every platform (that the channels hold nothing at reset is the model's choice,
notes/assumptions/2.md). -/
def Obligations.ResetIsCoherent : Prop :=
  ∀ p : Platform, Coherent { State.reset with platform := p }

/-- 42_framer.md R89, 10_state.md R13: every step keeps `PHASE` and `CNT` where the command in `DESC` can be, and no channel
above its capacity. -/
def Obligations.StepKeepsCoherence : Prop :=
  ∀ s t : State, Coherent s → step s = .next t → Coherent t

/-- The byte steps and the actions of the environment keep it as well. -/
def Obligations.ByteStepsAndHostActionsKeepCoherence : Prop :=
  ∀ s t : State, Coherent s → (tick s = .moves t → Coherent t) ∧ (∀ a, act a s = some t → Coherent t)

/-- 60_exceptions.md R135, R139, R149: a refusal is an answer and a hold is no error, so from every coherent state, and
from every reachable one, the step goes on, to a coherent state again: the model's own fault is never raised (that a hold
answers a next state, and that runs start with empty channels, are the model's choices, notes/assumptions/3.md and
2.md). -/
def Obligations.ReachableStatesNeverStop : Prop :=
  (∀ s : State, Coherent s → ∃ t, step s = .next t ∧ Coherent t) ∧
  ∀ s : State, Reachable s → ∃ t, step s = .next t

/-- 10_state.md R22, R18, R19: the accumulators are the checksums of the bytes the last absorbing command absorbed, and
inside one those of the bytes absorbed so far.  With `bs` those bytes before a step, `absorbedAfter s t bs` are those after
it: the old list where nothing is absorbed, else what the command takes from PIN behind what it had taken, and the bytes it
makes.  Of a command that runs from IDLE to IDLE that is, command by command, the list R22 names.  What the host
puts on or takes from a channel leaves the list, and after the release of `RST` it is empty (R21, 70_reset_and_hazards.md
R155).  (That asserting `RST` leaves it too, so that `CRC` and `SUM` change at the release and not before, is no rule of the
spec and the model's choice, notes/assumptions/8.md.) -/
def Obligations.StepKeepsAccumulatorsInAgreement : Prop :=
  (∀ p : Platform, StandFor { State.reset with platform := p } []) ∧
  (∀ (s t : State) (bs : List Byte), Coherent s → StandFor s bs → step s = .next t →
    StandFor t (absorbedAfter s t bs)) ∧
  (∀ (a : HostAction) (s t : State) (bs : List Byte), StandFor s bs → act a s = some t →
    StandFor t (if a = .releaseRst then [] else bs)) ∧
  (∀ (s t : State) (bs : List Byte) (d : Descriptor) (ds : List Descriptor) (i : Instr),
    s.rst = false → s.phase = .idle → s.cmd = d :: ds → decode d = .ok i → step s = .next t → t.phase = .idle →
    absorbedAfter s t bs = match i with
      | .sum8 len => s.pin.take len.toNat
      | .crc16 len => s.pin.take len.toNat
      | .rdsum => bs
      | .rdcrc => bs
      | .fdata _ size _ len => dataPayload size len s
      | .fmeta _ len fsize => namePayload len fsize s
      | .fterm _ => zeros 128) ∧
  ∀ (s t : State) (bs : List Byte), currentCommand s = none → absorbedAfter s t bs = bs

/-- 30_encoding.md R50, R51: only the four status codes are ever put on RSP, bits 23:16 are 0, and a refusal's value is 0. -/
def Obligations.StepKeepsResponsesWellFormed : Prop :=
  ∀ s t : State, (∀ r ∈ s.rsp, ResponseOk r) → step s = .next t → ∀ r ∈ t.rsp, ResponseOk r

/-! ### The host as an environment (spec/43_host_session.md)

The session model fills the points that file leaves open as notes/assumptions/11.md says. -/

/-- 43_host_session.md R118 item 2, R108: from the start of a session on, whatever the transport answers, every frame
command carries the one checksum mode its handshake chose. -/
def Obligations.SessionFramesCarryOneChecksumMode : Prop :=
  ∀ (p : HostParams) (v : Variant) (name file : List Byte) (rs : List HostEvent),
    ∀ c ∈ commandsOf (runSession p (startSession v name file) rs).outputs,
      (runSession p (startSession v name file) rs).checksumMode = modeOf c.1 ∧ modeOf c.1 ≠ none

/-- 43_host_session.md R110 step 5, R112, R117, 70_reset_and_hazards.md R161: a NAK to a data block counts one
retry, at the same file position; while the count does not exceed the bound it repeats the same command with the same PIN
bytes, and once it does the session ends, and nothing is sent.  An ACK moves past the block, to the next block number, and
resets the retry count, after the last block too. -/
def Obligations.RetransmissionRepeatsTheSameCommand : Prop :=
  ∀ (p : HostParams) (v : Variant) (name file : List Byte) (rs : List HostEvent) (n : Nat),
    let s := runSession p (startSession v name file) rs
    s.stage = .dataReply n → s.responseDue = false →
    let t := onEvent p s (.read (.byte 0x15))
    let u := onEvent p s (.read (.byte 0x06))
    t.filePosition = s.filePosition ∧ t.retryCount = s.retryCount + 1 ∧
    (t.retryCount ≤ p.maxRetry → ∃ c, s.outputs.getLast? = some c ∧ t.outputs = s.outputs ++ [c]) ∧
    (t.retryCount > p.maxRetry → t.stage = .aborted .retryExhausted ∧ t.outputs = s.outputs) ∧
    u.retryCount = 0 ∧ u.blockNumber = s.blockNumber + 1 ∧
    u.filePosition = s.filePosition + (blockBytes s).length

/-- 43_host_session.md R118 item 6, 42_framer.md R86, R90: no command of a session is one the block refuses, and each comes
with exactly its `len` PIN bytes.  R110: the host requires the status 0x00 of each response before it reads on; another
status ends the session, and nothing more is sent (that it then ends with `refusedByBlock`, that the same is required of the
metadata and terminator blocks, and that a read before the response changes nothing, are the model's choices,
notes/assumptions/11.md). -/
def Obligations.SessionCommandsAreAcceptedAndSupplied : Prop :=
  ∀ (p : HostParams) (v : Variant) (name file : List Byte) (rs : List HostEvent),
    let s := runSession p (startSession v name file) rs
    (∀ c ∈ commandsOf s.outputs, c.1.WellFormed ∧ (fieldLen (encode c.1)).toNat = c.2.length) ∧
    (s.responseDue = true → s.over = false → ∀ w : Response,
      (responseStatus w = 0x00 → onEvent p s (.response w) = { s with responseDue := false }) ∧
      (responseStatus w ≠ 0x00 → (onEvent p s (.response w)).stage = .aborted .refusedByBlock ∧
        (onEvent p s (.response w)).outputs = s.outputs) ∧
      ∀ r, onEvent p s (.read r) = s) ∧
    ∀ (i : Instr) (pin : List Byte) (r : HostEvent),
      (onEvent p s r).outputs = s.outputs ++ [.command i pin] → (onEvent p s r).responseDue = true
end

