-- ==== Sys2Proof/Laws/Checksum.lean ====
section
/-! SUPPORT. Small lemmas of the checksum functions and the packet's parts (Machine/Checksum.lean,
Machine/Operands.lean, Machine/Flags.lean). -/

namespace Sys2Proof.Machine

@[simp] theorem crc16_nil : crc16 [] = crcInit := rfl

@[simp] theorem sum8_nil : sum8 [] = 0 := rfl

/-- The accumulator after one byte more. -/
theorem crc16_concat (bs : List Byte) (b : Byte) : crc16 (bs ++ [b]) = crcStep (crc16 bs) b := by
  simp [crc16]

/-- The accumulator after one byte more. -/
theorem sum8_concat (bs : List Byte) (b : Byte) : sum8 (bs ++ [b]) = sumStep (sum8 bs) b := by
  simp [sum8]

theorem crcShift_zero : crcShift 0 = 0 := by decide

/-- The inner step is linear: the condition and the shift each act on the bits alone (R65). -/
theorem crcShift_xor (c d : Half) : crcShift (c ^^^ d) = crcShift c ^^^ crcShift d := by
  have hs : (c ^^^ d) <<< 1 = (c <<< 1) ^^^ (d <<< 1) := by
    ext i hi
    simp only [BitVec.getElem_shiftLeft, BitVec.getElem_xor]
    by_cases h : i < 1 <;> simp [h]
  unfold crcShift
  rw [BitVec.getLsbD_xor, hs]
  cases c.getLsbD 15 <;> cases d.getLsbD 15 <;> simp only [bne_self_eq_false, Bool.false_eq_true, if_true, if_false,
    Bool.true_bne, Bool.false_bne, Bool.not_false] <;> ext i hi <;>
    simp only [BitVec.getElem_xor] <;> cases (c <<< 1)[i] <;> cases (d <<< 1)[i] <;> cases crcPoly[i] <;> rfl

theorem crcShifts_xor (n : Nat) (c d : Half) : crcShifts n (c ^^^ d) = crcShifts n c ^^^ crcShifts n d := by
  induction n generalizing c d with
  | zero => rfl
  | succ n ih => rw [crcShifts, crcShift_xor, ih]; rfl

@[simp] theorem trailer_arithmetic8 (k : Bool) (pay : List Byte) :
    trailer k .arithmetic8 pay = [a8Trailer k (sum8 pay)] := rfl

@[simp] theorem trailer_crc16 (k : Bool) (pay : List Byte) :
    trailer k .crc16 pay = [crcHigh (crc16 pay), crcLow (crc16 pay)] := rfl

/-- The two trailer bytes are the CRC, high byte first. -/
theorem crcHigh_append_crcLow (c : Half) : crcHigh c ++ crcLow c = c := by
  unfold crcHigh crcLow
  rw [BitVec.extractLsb'_append_extractLsb'_eq_extractLsb' (by decide)]
  exact BitVec.extractLsb'_eq_self

theorem decDigits_succ (k n : Nat) :
    decDigits (k + 1) n = if n < 10 then [BitVec.ofNat 8 (0x30 + n)]
      else decDigits k (n / 10) ++ [BitVec.ofNat 8 (0x30 + n % 10)] := rfl

theorem decDigits_length_le (k n : Nat) : (decDigits k n).length ≤ k := by
  induction k generalizing n with
  | zero => simp [decDigits]
  | succ k ih =>
    rw [decDigits_succ]
    split
    · simp
    · have := ih (n / 10); simp; omega

theorem decDigits_ne_nil (k n : Nat) : decDigits (k + 1) n ≠ [] := by
  rw [decDigits_succ]; split <;> simp

/-- A file size has one to ten digits (R92). -/
theorem dec_length (n : BitVec 32) : 1 ≤ (dec n).length ∧ (dec n).length ≤ 10 :=
  ⟨List.length_pos_iff.mpr (decDigits_ne_nil 9 n.toNat), decDigits_length_le 10 n.toNat⟩

theorem pad_length {bs : List Byte} {n : Nat} (h : bs.length ≤ n) : (pad bs n).length = n := by
  simp [pad]; omega

@[simp] theorem responseStatus_response (st : Byte) (v : Half) : responseStatus (response st v) = st := by
  unfold responseStatus response
  rw [BitVec.extractLsb'_append_eq_of_le (by decide)]
  exact BitVec.extractLsb'_append_eq_left

@[simp] theorem responseZero_response (st : Byte) (v : Half) : responseZero (response st v) = 0 := by
  unfold responseZero response
  rw [BitVec.extractLsb'_append_eq_of_le (by decide)]
  exact BitVec.extractLsb'_append_eq_right

@[simp] theorem responseValue_response (st : Byte) (v : Half) : responseValue (response st v) = v :=
  BitVec.extractLsb'_append_eq_right

@[simp] theorem marked_singleton (b : Byte) : marked [b] = [⟨b, true⟩] := rfl

/-- Every byte before the last carries the marker 0 (30_encoding.md R57). -/
theorem marked_append {bs cs : List Byte} (h : cs ≠ []) :
    marked (bs ++ cs) = bs.map (fun b => ⟨b, false⟩) ++ marked cs := by
  induction bs with
  | nil => rfl
  | cons b bs ih =>
    cases hbs : bs ++ cs with
    | nil => simp_all
    | cons c rest =>
      rw [List.cons_append, hbs, marked, ← hbs, ih]
      rfl

@[simp] theorem marked_length (bs : List Byte) : (marked bs).length = bs.length := by
  match bs with
  | [] => rfl
  | [_] => rfl
  | _ :: c :: bs => simp [marked, marked_length (c :: bs)]

end Sys2Proof.Machine
end

