-- ==== Sys2Proof/Laws/Decode.lean ====
section
/-! SUPPORT. The fields of an assembled descriptor, the descriptor as the assembly of its fields, and the two operand
bits (spec/30_encoding.md R40, R45, R46). -/

namespace Sys2Proof

section Assemble

variable (op : BitVec 4) (size mode : BitVec 1) (seq : Byte) (len : Half) (fsize : BitVec 32)

@[simp] theorem fieldFsize_assemble : fieldFsize (assemble op size mode seq len fsize) = fsize :=
  BitVec.extractLsb'_append_eq_right

@[simp] theorem fieldLen_assemble : fieldLen (assemble op size mode seq len fsize) = len := by
  unfold fieldLen assemble
  rw [BitVec.extractLsb'_append_eq_of_le (by decide)]
  exact BitVec.extractLsb'_append_eq_right

@[simp] theorem fieldSeq_assemble : fieldSeq (assemble op size mode seq len fsize) = seq := by
  unfold fieldSeq assemble
  rw [BitVec.extractLsb'_append_eq_of_le (by decide), BitVec.extractLsb'_append_eq_of_le (by decide)]
  exact BitVec.extractLsb'_append_eq_right

@[simp] theorem fieldMode_assemble : fieldMode (assemble op size mode seq len fsize) = mode := by
  unfold fieldMode assemble
  rw [BitVec.extractLsb'_append_eq_of_le (by decide), BitVec.extractLsb'_append_eq_of_le (by decide),
    BitVec.extractLsb'_append_eq_of_le (by decide)]
  exact BitVec.extractLsb'_append_eq_right

@[simp] theorem fieldSize_assemble : fieldSize (assemble op size mode seq len fsize) = size := by
  unfold fieldSize assemble
  rw [BitVec.extractLsb'_append_eq_of_le (by decide), BitVec.extractLsb'_append_eq_of_le (by decide),
    BitVec.extractLsb'_append_eq_of_le (by decide), BitVec.extractLsb'_append_eq_of_le (by decide)]
  exact BitVec.extractLsb'_append_eq_right

@[simp] theorem fieldRsv_assemble : fieldRsv (assemble op size mode seq len fsize) = 0 := by
  unfold fieldRsv assemble
  rw [BitVec.extractLsb'_append_eq_of_le (by decide), BitVec.extractLsb'_append_eq_of_le (by decide),
    BitVec.extractLsb'_append_eq_of_le (by decide), BitVec.extractLsb'_append_eq_of_le (by decide),
    BitVec.extractLsb'_append_eq_of_le (by decide)]
  exact BitVec.extractLsb'_append_eq_right

@[simp] theorem fieldOp_assemble : fieldOp (assemble op size mode seq len fsize) = op := by
  unfold fieldOp assemble
  rw [BitVec.extractLsb'_append_eq_of_le (by decide), BitVec.extractLsb'_append_eq_of_le (by decide),
    BitVec.extractLsb'_append_eq_of_le (by decide), BitVec.extractLsb'_append_eq_of_le (by decide),
    BitVec.extractLsb'_append_eq_of_le (by decide)]
  exact BitVec.extractLsb'_append_eq_left

end Assemble

/-- A descriptor whose reserved field is 0 is the assembly of its other fields. -/
theorem assemble_fields (d : Descriptor) (h : fieldRsv d = 0) :
    assemble (fieldOp d) (fieldSize d) (fieldMode d) (fieldSeq d) (fieldLen d) (fieldFsize d) = d := by
  unfold assemble
  rw [← h]
  unfold fieldOp fieldRsv fieldSize fieldMode fieldSeq fieldLen fieldFsize
  rw [BitVec.extractLsb'_append_extractLsb'_eq_extractLsb' (by decide),
    BitVec.extractLsb'_append_extractLsb'_eq_extractLsb' (by decide),
    BitVec.extractLsb'_append_extractLsb'_eq_extractLsb' (by decide),
    BitVec.extractLsb'_append_extractLsb'_eq_extractLsb' (by decide),
    BitVec.extractLsb'_append_extractLsb'_eq_extractLsb' (by decide),
    BitVec.extractLsb'_append_extractLsb'_eq_extractLsb' (by decide)]
  exact BitVec.extractLsb'_eq_self

@[simp] theorem BlockSize.ofBit_toBit (b : BlockSize) : BlockSize.ofBit b.toBit = b := by cases b <;> rfl

@[simp] theorem BlockSize.toBit_ofBit (b : BitVec 1) : (BlockSize.ofBit b).toBit = b := by
  revert b; decide

@[simp] theorem ChecksumMode.ofBit_toBit (m : ChecksumMode) : ChecksumMode.ofBit m.toBit = m := by cases m <;> rfl

@[simp] theorem ChecksumMode.toBit_ofBit (b : BitVec 1) : (ChecksumMode.ofBit b).toBit = b := by
  revert b; decide

/-- `decode` refuses exactly where the row test or the length test does (R43). -/
theorem decode_eq_ok {d : Descriptor} {i : Instr} : decode d = .ok i ↔ decodeRow d = .ok i ∧ i.WellFormed := by
  unfold decode Instr.WellFormed
  cases h : decodeRow d with
  | error e => simp
  | ok j =>
    cases hj : j.lengthError with
    | none =>
      simp only [hj, Except.ok.injEq]
      exact ⟨fun e => ⟨e, e ▸ hj⟩, fun e => e.1⟩
    | some e =>
      simp only [hj, reduceCtorEq, Except.ok.injEq, false_iff, not_and]
      rintro rfl
      simp [hj]

end Sys2Proof
end

