-- ==== Sys2Proof/Laws/State.lean ====
section
/-! SUPPORT. One lemma for each field of each named update of the state (Machine/Ops.lean, Machine/Environment.lean), so
that no later proof unfolds a record update. -/

namespace Sys2Proof.Machine

/-! ### `clear` -/

@[simp] theorem clear_crc (s : State) : (clear s).crc = crcInit := rfl

@[simp] theorem clear_sum (s : State) : (clear s).sum = 0 := rfl

@[simp] theorem clear_desc (s : State) : (clear s).desc = s.desc := rfl

@[simp] theorem clear_phase (s : State) : (clear s).phase = s.phase := rfl

@[simp] theorem clear_cnt (s : State) : (clear s).cnt = s.cnt := rfl

@[simp] theorem clear_rst (s : State) : (clear s).rst = s.rst := rfl

@[simp] theorem clear_cmd (s : State) : (clear s).cmd = s.cmd := rfl

@[simp] theorem clear_pin (s : State) : (clear s).pin = s.pin := rfl

@[simp] theorem clear_wout (s : State) : (clear s).wout = s.wout := rfl

@[simp] theorem clear_rsp (s : State) : (clear s).rsp = s.rsp := rfl

@[simp] theorem clear_platform (s : State) : (clear s).platform = s.platform := rfl

/-! ### `absorb` -/

@[simp] theorem absorb_crc (b : Byte) (s : State) : (absorb b s).crc = crcStep s.crc b := rfl

@[simp] theorem absorb_sum (b : Byte) (s : State) : (absorb b s).sum = sumStep s.sum b := rfl

@[simp] theorem absorb_desc (b : Byte) (s : State) : (absorb b s).desc = s.desc := rfl

@[simp] theorem absorb_phase (b : Byte) (s : State) : (absorb b s).phase = s.phase := rfl

@[simp] theorem absorb_cnt (b : Byte) (s : State) : (absorb b s).cnt = s.cnt := rfl

@[simp] theorem absorb_rst (b : Byte) (s : State) : (absorb b s).rst = s.rst := rfl

@[simp] theorem absorb_cmd (b : Byte) (s : State) : (absorb b s).cmd = s.cmd := rfl

@[simp] theorem absorb_pin (b : Byte) (s : State) : (absorb b s).pin = s.pin := rfl

@[simp] theorem absorb_wout (b : Byte) (s : State) : (absorb b s).wout = s.wout := rfl

@[simp] theorem absorb_rsp (b : Byte) (s : State) : (absorb b s).rsp = s.rsp := rfl

@[simp] theorem absorb_platform (b : Byte) (s : State) : (absorb b s).platform = s.platform := rfl

/-! ### `raise` -/

@[simp] theorem raise_crc (s : State) : (raise s).crc = s.crc := rfl

@[simp] theorem raise_sum (s : State) : (raise s).sum = s.sum := rfl

@[simp] theorem raise_desc (s : State) : (raise s).desc = s.desc := rfl

@[simp] theorem raise_phase (s : State) : (raise s).phase = .drain := rfl

@[simp] theorem raise_cnt (s : State) : (raise s).cnt = 0 := rfl

@[simp] theorem raise_rst (s : State) : (raise s).rst = s.rst := rfl

@[simp] theorem raise_cmd (s : State) : (raise s).cmd = s.cmd := rfl

@[simp] theorem raise_pin (s : State) : (raise s).pin = s.pin := rfl

@[simp] theorem raise_wout (s : State) : (raise s).wout = s.wout := rfl

@[simp] theorem raise_rsp (s : State) : (raise s).rsp = s.rsp := rfl

@[simp] theorem raise_platform (s : State) : (raise s).platform = s.platform := rfl

/-! ### `toIdle` -/

@[simp] theorem toIdle_crc (s : State) : (toIdle s).crc = s.crc := rfl

@[simp] theorem toIdle_sum (s : State) : (toIdle s).sum = s.sum := rfl

@[simp] theorem toIdle_desc (s : State) : (toIdle s).desc = s.desc := rfl

@[simp] theorem toIdle_phase (s : State) : (toIdle s).phase = .idle := rfl

@[simp] theorem toIdle_cnt (s : State) : (toIdle s).cnt = s.cnt := rfl

@[simp] theorem toIdle_rst (s : State) : (toIdle s).rst = s.rst := rfl

@[simp] theorem toIdle_cmd (s : State) : (toIdle s).cmd = s.cmd := rfl

@[simp] theorem toIdle_pin (s : State) : (toIdle s).pin = s.pin := rfl

@[simp] theorem toIdle_wout (s : State) : (toIdle s).wout = s.wout := rfl

@[simp] theorem toIdle_rsp (s : State) : (toIdle s).rsp = s.rsp := rfl

@[simp] theorem toIdle_platform (s : State) : (toIdle s).platform = s.platform := rfl

/-! ### `releaseReset` -/

@[simp] theorem releaseReset_crc (s : State) : (releaseReset s).crc = 0 := rfl

@[simp] theorem releaseReset_sum (s : State) : (releaseReset s).sum = 0 := rfl

@[simp] theorem releaseReset_desc (s : State) : (releaseReset s).desc = 0 := rfl

@[simp] theorem releaseReset_phase (s : State) : (releaseReset s).phase = .idle := rfl

@[simp] theorem releaseReset_cnt (s : State) : (releaseReset s).cnt = 0 := rfl

@[simp] theorem releaseReset_rst (s : State) : (releaseReset s).rst = false := rfl

@[simp] theorem releaseReset_cmd (s : State) : (releaseReset s).cmd = s.cmd := rfl

@[simp] theorem releaseReset_pin (s : State) : (releaseReset s).pin = s.pin := rfl

@[simp] theorem releaseReset_wout (s : State) : (releaseReset s).wout = s.wout := rfl

@[simp] theorem releaseReset_rsp (s : State) : (releaseReset s).rsp = s.rsp := rfl

@[simp] theorem releaseReset_platform (s : State) : (releaseReset s).platform = s.platform := rfl

/-! ### Placing an instruction where the next step takes it -/

@[simp] theorem withFetchWord_crc (s : State) (n w : Nat) : (s.withFetchWord n w).crc = s.crc := rfl

@[simp] theorem withFetchWord_sum (s : State) (n w : Nat) : (s.withFetchWord n w).sum = s.sum := rfl

@[simp] theorem withFetchWord_desc (s : State) (n w : Nat) : (s.withFetchWord n w).desc = s.desc := rfl

@[simp] theorem withFetchWord_phase (s : State) (n w : Nat) : (s.withFetchWord n w).phase = .idle := rfl

@[simp] theorem withFetchWord_cnt (s : State) (n w : Nat) : (s.withFetchWord n w).cnt = s.cnt := rfl

@[simp] theorem withFetchWord_rst (s : State) (n w : Nat) : (s.withFetchWord n w).rst = false := rfl

@[simp] theorem withFetchWord_cmd (s : State) (n w : Nat) : (s.withFetchWord n w).cmd = BitVec.ofNat 64 (w % 2 ^ n) :: s.cmd := rfl

@[simp] theorem withFetchWord_pin (s : State) (n w : Nat) : (s.withFetchWord n w).pin = s.pin := rfl

@[simp] theorem withFetchWord_wout (s : State) (n w : Nat) : (s.withFetchWord n w).wout = s.wout := rfl

@[simp] theorem withFetchWord_rsp (s : State) (n w : Nat) : (s.withFetchWord n w).rsp = s.rsp := rfl

@[simp] theorem withFetchWord_platform (s : State) (n w : Nat) : (s.withFetchWord n w).platform = s.platform := rfl

/-! ### Another platform, and the consumers of the outputs -/

@[simp] theorem unbounded_crc (s : State) : s.unbounded.crc = s.crc := rfl

@[simp] theorem unbounded_sum (s : State) : s.unbounded.sum = s.sum := rfl

@[simp] theorem unbounded_desc (s : State) : s.unbounded.desc = s.desc := rfl

@[simp] theorem unbounded_phase (s : State) : s.unbounded.phase = s.phase := rfl

@[simp] theorem unbounded_cnt (s : State) : s.unbounded.cnt = s.cnt := rfl

@[simp] theorem unbounded_rst (s : State) : s.unbounded.rst = s.rst := rfl

@[simp] theorem unbounded_cmd (s : State) : s.unbounded.cmd = s.cmd := rfl

@[simp] theorem unbounded_pin (s : State) : s.unbounded.pin = s.pin := rfl

@[simp] theorem unbounded_wout (s : State) : s.unbounded.wout = s.wout := rfl

@[simp] theorem unbounded_rsp (s : State) : s.unbounded.rsp = s.rsp := rfl

@[simp] theorem unbounded_platform (s : State) : s.unbounded.platform =
    { s.platform with cmdCap := none, pinCap := none, woutCap := none, rspCap := none } := rfl

@[simp] theorem afterTaking_crc (j k : Nat) (s : State) : (s.afterTaking j k).crc = s.crc := rfl

@[simp] theorem afterTaking_sum (j k : Nat) (s : State) : (s.afterTaking j k).sum = s.sum := rfl

@[simp] theorem afterTaking_desc (j k : Nat) (s : State) : (s.afterTaking j k).desc = s.desc := rfl

@[simp] theorem afterTaking_phase (j k : Nat) (s : State) : (s.afterTaking j k).phase = s.phase := rfl

@[simp] theorem afterTaking_cnt (j k : Nat) (s : State) : (s.afterTaking j k).cnt = s.cnt := rfl

@[simp] theorem afterTaking_rst (j k : Nat) (s : State) : (s.afterTaking j k).rst = s.rst := rfl

@[simp] theorem afterTaking_cmd (j k : Nat) (s : State) : (s.afterTaking j k).cmd = s.cmd := rfl

@[simp] theorem afterTaking_pin (j k : Nat) (s : State) : (s.afterTaking j k).pin = s.pin := rfl

@[simp] theorem afterTaking_platform (j k : Nat) (s : State) : (s.afterTaking j k).platform = s.platform := rfl

@[simp] theorem afterTaking_wout (j k : Nat) (s : State) : (s.afterTaking j k).wout = s.wout.drop j := rfl

@[simp] theorem afterTaking_rsp (j k : Nat) (s : State) : (s.afterTaking j k).rsp = s.rsp.drop k := rfl

theorem unbounded_afterTaking (j k : Nat) (s : State) : (s.afterTaking j k).unbounded = s.unbounded.afterTaking j k := rfl

end Sys2Proof.Machine
end

