-- ==== Sys2Proof/Laws/Ops.lean ====
section
/-! SUPPORT. What each channel primitive can do (Machine/Ops.lean), said once: it answers exactly when the item or the
room is there, and then changes its own channel alone. -/

namespace Sys2Proof.Machine

/-- Room for one more item and then for the rest. -/
theorem accepts_succ {cap : Option Nat} {n k : Nat} (h : accepts cap n (k + 1)) :
    hasRoom cap n = true ∧ accepts cap (n + 1) k := by
  cases cap with
  | none => simp [accepts, hasRoom]
  | some c => simp only [accepts, hasRoom, decide_eq_true_eq] at *; omega

/-- Room for `j` items and then for the rest. -/
theorem accepts_add {cap : Option Nat} {n j k : Nat} (h : accepts cap n (j + k)) :
    accepts cap n j ∧ accepts cap (n + j) k := by
  cases cap with
  | none => simp [accepts]
  | some c => simp only [accepts] at *; omega

theorem accepts_one {cap : Option Nat} {n : Nat} : accepts cap n 1 ↔ hasRoom cap n = true := by
  cases cap with
  | none => simp [accepts, hasRoom]
  | some c => simp only [accepts, hasRoom, decide_eq_true_eq]; omega

theorem within_succ {cap : Option Nat} {n : Nat} (h : hasRoom cap n = true) : within cap (n + 1) = true := by
  cases cap with
  | none => rfl
  | some c => simp only [within, hasRoom, decide_eq_true_eq] at *; omega

theorem within_le {cap : Option Nat} {m n : Nat} (hm : m ≤ n) (h : within cap n = true) : within cap m = true := by
  cases cap with
  | none => rfl
  | some c => simp only [within, decide_eq_true_eq] at *; omega

theorem cmdTake_eq_some {s s' : State} {d : Descriptor} :
    cmdTake s = some (d, s') ↔ ∃ ds, s.cmd = d :: ds ∧ s' = { s with cmd := ds, desc := d } := by
  unfold cmdTake
  cases h : s.cmd with
  | nil => simp
  | cons e es =>
    simp only [Option.some.injEq, Prod.mk.injEq, List.cons.injEq]
    constructor
    · rintro ⟨rfl, rfl⟩; exact ⟨es, ⟨rfl, rfl⟩, rfl⟩
    · rintro ⟨ds, ⟨rfl, rfl⟩, rfl⟩; exact ⟨rfl, rfl⟩

theorem cmdTake_eq_none {s : State} : cmdTake s = none ↔ s.cmd = [] := by
  unfold cmdTake; cases s.cmd <;> simp

theorem pinTake_eq_some {s s' : State} {b : Byte} :
    pinTake s = some (b, s') ↔ ∃ bs, s.pin = b :: bs ∧ s' = { s with pin := bs } := by
  unfold pinTake
  cases h : s.pin with
  | nil => simp
  | cons e es =>
    simp only [Option.some.injEq, Prod.mk.injEq, List.cons.injEq]
    constructor
    · rintro ⟨rfl, rfl⟩; exact ⟨es, ⟨rfl, rfl⟩, rfl⟩
    · rintro ⟨ds, ⟨rfl, rfl⟩, rfl⟩; exact ⟨rfl, rfl⟩

theorem pinTake_eq_none {s : State} : pinTake s = none ↔ s.pin = [] := by
  unfold pinTake; cases s.pin <;> simp

theorem woutPut_eq_some {s s' : State} {b : Byte} {l : Bool} :
    woutPut b l s = some s' ↔
      hasRoom s.platform.woutCap s.wout.length = true ∧ s' = { s with wout := s.wout ++ [⟨b, l⟩] } := by
  unfold woutPut
  split
  · next h => simp only [h, true_and, Option.some.injEq]; exact eq_comm
  · next h => simp [h]

theorem woutPut_eq_none {s : State} {b : Byte} {l : Bool} :
    woutPut b l s = none ↔ hasRoom s.platform.woutCap s.wout.length = false := by
  unfold woutPut
  split <;> simp_all

theorem rspPut_eq_some {s s' : State} {st : Byte} {v : Half} :
    rspPut st v s = some s' ↔
      hasRoom s.platform.rspCap s.rsp.length = true ∧ s' = { s with rsp := s.rsp ++ [response st v] } := by
  unfold rspPut
  split
  · next h => simp only [h, true_and, Option.some.injEq]; exact eq_comm
  · next h => simp [h]

theorem rspPut_eq_none {s : State} {st : Byte} {v : Half} :
    rspPut st v s = none ↔ hasRoom s.platform.rspCap s.rsp.length = false := by
  unfold rspPut
  split <;> simp_all

end Sys2Proof.Machine
end

