-- ==== Sys2Proof/Laws/PerInstr.lean ====
section
/-! SUPPORT. Statements about every instruction as syntax, one lemma for each constructor (LAWS.json). -/

namespace Sys2Proof.Laws.EncodesInFormatD

/-- The opcode of a command (spec/30_encoding.md R42). -/
def opcode : Instr → BitVec 4
  | .sum8 _ => 0x1
  | .crc16 _ => 0x2
  | .rdsum => 0x3
  | .rdcrc => 0x4
  | .fdata _ _ _ _ => 0x8
  | .fmeta _ _ _ => 0x9
  | .fterm _ => 0xA

/-- The number of PIN bytes a command asks for (spec/30_encoding.md R44). -/
def len : Instr → Half
  | .sum8 len => len
  | .crc16 len => len
  | .rdsum => 0
  | .rdcrc => 0
  | .fdata _ _ _ len => len
  | .fmeta _ len _ => len
  | .fterm _ => 0

/-- A command's descriptor has its opcode in bits 63:60, zero in the reserved bits 59:58, and the number of its PIN bytes
in bits 47:32. -/
def Statement (i : Instr) : Prop :=
  fieldOp (encode i) = opcode i ∧ fieldRsv (encode i) = 0 ∧ fieldLen (encode i) = len i

theorem sum8 (len : Half) : Statement (.sum8 len) := by simp [Statement, encode, opcode, EncodesInFormatD.len]

theorem crc16 (len : Half) : Statement (.crc16 len) := by simp [Statement, encode, opcode, EncodesInFormatD.len]

theorem rdsum : Statement .rdsum := by simp [Statement, encode, opcode, len]

theorem rdcrc : Statement .rdcrc := by simp [Statement, encode, opcode, len]

theorem fdata (mode : ChecksumMode) (size : BlockSize) (seq : Byte) (len : Half) :
    Statement (.fdata mode size seq len) := by simp [Statement, encode, opcode, EncodesInFormatD.len]

theorem fmeta (mode : ChecksumMode) (len : Half) (fsize : BitVec 32) : Statement (.fmeta mode len fsize) := by
  simp [Statement, encode, opcode, EncodesInFormatD.len]

theorem fterm (mode : ChecksumMode) : Statement (.fterm mode) := by simp [Statement, encode, opcode, len]

end Sys2Proof.Laws.EncodesInFormatD
end

