-- ==== Sys2Proof/Laws/Sequencer.lean ====
section
/-! SUPPORT. Runs of the byte-by-byte machine: what each line of spec/42_framer.md R89 keeps, and the run of each phase as
one statement, so that no later proof walks a command step by step. -/

namespace Sys2Proof.Machine

@[simp] theorem Move.ofOption_eq_moves {o : Option State} {s : State} : Move.ofOption o = .moves s ↔ o = some s := by
  cases o <;> simp [Move.ofOption]

@[simp] theorem Move.ofOption_eq_hold {o : Option State} : Move.ofOption o = .hold ↔ o = none := by
  cases o <;> simp [Move.ofOption]

@[simp] theorem Move.ofOption_ne_stray {o : Option State} : Move.ofOption o ≠ .stray := by
  cases o <;> simp [Move.ofOption]

/-! ### Runs -/

/-- `n` lines of R89 for the plan `p`, none of which ends the command. -/
inductive PlanRun (p : Plan) : Nat → State → State → Prop where
  | refl (s : State) : PlanRun p 0 s s
  | cons {n : Nat} {s s' t : State} (h : planTick p s = .moves s') (h' : s'.phase ≠ .idle) (r : PlanRun p n s' t) :
      PlanRun p (n + 1) s t

theorem PlanRun.single {p : Plan} {s t : State} (h : planTick p s = .moves t) (h' : t.phase ≠ .idle) :
    PlanRun p 1 s t := .cons h h' (.refl t)

theorem PlanRun.cast_eq {p : Plan} {m n : Nat} {s t u : State} (h : PlanRun p m s t) (hm : m = n) (hu : t = u) :
    PlanRun p n s u := hm ▸ hu ▸ h

theorem PlanRun.trans {p : Plan} {m n : Nat} {s t u : State} (h : PlanRun p m s t) (h' : PlanRun p n t u) :
    PlanRun p (m + n) s u := by
  induction h with
  | refl => simpa using h'
  | cons h1 h2 _ ih => rw [Nat.add_right_comm]; exact .cons h1 h2 (ih h')

theorem advance_of_run {p : Plan} {m : Nat} {s t : State} (h : PlanRun p m s t) (n : Nat) :
    advance (n + m) p s = advance n p t := by
  induction h with
  | refl => rfl
  | cons h1 h2 _ ih => rw [← Nat.add_assoc, advance, h1]; simp only [h2, if_false]; exact ih

/-- A run to a state from which one line ends the command is the whole command. -/
theorem perform_of_run {p : Plan} {m : Nat} {s t u : State} (h : PlanRun p m s t) (hu : planTick p t = .moves u)
    (hi : u.phase = .idle) (hm : m < commandBound) : perform p s = .next u := by
  obtain ⟨n, hn⟩ : ∃ n, commandBound = (n + 1) + m := ⟨commandBound - 1 - m, by omega⟩
  rw [perform, hn, advance_of_run h, advance, hu]
  simp [hi]

/-- A run to a state that holds is what the command does until the environment acts. -/
theorem perform_of_hold {p : Plan} {m : Nat} {s t : State} (h : PlanRun p m s t) (ht : planTick p t = .hold)
    (hm : m < commandBound) : perform p s = .next t := by
  obtain ⟨n, hn⟩ : ∃ n, commandBound = (n + 1) + m := ⟨commandBound - 1 - m, by omega⟩
  rw [perform, hn, advance_of_run h, advance, ht]

/-! ### What one line can do -/

theorem payTake_eq_some {src : PaySource} {s s' : State} {b : Byte} :
    payTake src s = some (b, s') ↔
      (src.paybyte s.cnt.toNat = some b ∧ s' = s) ∨
      (src.paybyte s.cnt.toNat = none ∧ ∃ bs, s.pin = b :: bs ∧ s' = { s with pin := bs }) := by
  unfold payTake
  cases h : src.paybyte s.cnt.toNat with
  | none => simp [pinTake_eq_some]
  | some c => simp only [Option.some.injEq, Prod.mk.injEq, reduceCtorEq, false_and, or_false]; exact Iff.and Iff.rfl eq_comm

/-- The payload byte `b` is at hand, and PIN is left as `pin'`. -/
abbrev PayByte (src : PaySource) (s : State) (b : Byte) (pin' : List Byte) : Prop :=
  (src.paybyte s.cnt.toNat = some b ∧ pin' = s.pin) ∨ (src.paybyte s.cnt.toNat = none ∧ s.pin = b :: pin')

/-- WOUT takes one more item. -/
abbrev WoutRoom (s : State) : Prop := hasRoom s.platform.woutCap s.wout.length = true

/-- The lines of 42_framer.md R89 as a relation, one constructor for each thing a line does. -/
inductive Line : Plan → State → State → Prop where
  | refused {len e s} (h : s.phase = .idle) : Line (.refuse len e) s (raise s)
  | engineStart {len acc s} (h : s.phase = .idle) : Line (.engine len acc) s { clear s with phase := .absorb, cnt := 0 }
  | readStart {acc s} (h : s.phase = .idle) : Line (.readback acc) s { s with phase := .rsp }
  | frameStart {size seq mode src s} (h : s.phase = .idle) :
      Line (.framing size seq mode src) s { clear s with phase := .hdr }
  | drainTake {len e s b bs} (h : s.phase = .drain) (hc : s.cnt < len) (hp : s.pin = b :: bs) :
      Line (.refuse len e) s { s with pin := bs, cnt := s.cnt + 1 }
  | drainDone {len e s} (h : s.phase = .drain) (hc : ¬ s.cnt < len) : Line (.refuse len e) s { s with phase := .rsp }
  | absorbTake {len acc s b bs} (h : s.phase = .absorb) (hc : s.cnt < len) (hp : s.pin = b :: bs) :
      Line (.engine len acc) s { absorb b { s with pin := bs } with cnt := s.cnt + 1 }
  | absorbDone {len acc s} (h : s.phase = .absorb) (hc : ¬ s.cnt < len) :
      Line (.engine len acc) s { s with phase := .rsp }
  | hdr {size seq mode src s} (h : s.phase = .hdr) (hr : WoutRoom s) :
      Line (.framing size seq mode src) s { s with wout := s.wout ++ [⟨header size, false⟩], phase := .seq }
  | seq {size seq mode src s} (h : s.phase = .seq) (hr : WoutRoom s) :
      Line (.framing size seq mode src) s { s with wout := s.wout ++ [⟨seq, false⟩], phase := .nseq }
  | nseq {size seq mode src s} (h : s.phase = .nseq) (hr : WoutRoom s) :
      Line (.framing size seq mode src) s
        { s with wout := s.wout ++ [⟨seqComplement seq, false⟩], phase := .pay, cnt := 0 }
  | pay {size seq mode src s b pin'} (h : s.phase = .pay) (hb : PayByte src s b pin') (hr : WoutRoom s)
      (hc : ¬ s.cnt.toNat + 1 = blocksize size) :
      Line (.framing size seq mode src) s
        { absorb b { s with pin := pin', wout := s.wout ++ [⟨b, false⟩] } with cnt := s.cnt + 1 }
  | payLast {size seq mode src s b pin'} (h : s.phase = .pay) (hb : PayByte src s b pin') (hr : WoutRoom s)
      (hc : s.cnt.toNat + 1 = blocksize size) :
      Line (.framing size seq mode src) s
        { absorb b { s with pin := pin', wout := s.wout ++ [⟨b, false⟩] } with phase := .trl, cnt := 0 }
  | trlSum {size seq src s} (h : s.phase = .trl) (hr : WoutRoom s) :
      Line (.framing size seq .arithmetic8 src) s
        { s with wout := s.wout ++ [⟨a8Trailer s.platform.sum8Complement s.sum, true⟩], phase := .rsp }
  | trlHigh {size seq src s} (h : s.phase = .trl) (hr : WoutRoom s) (hc : s.cnt = 0) :
      Line (.framing size seq .crc16 src) s { s with wout := s.wout ++ [⟨crcHigh s.crc, false⟩], cnt := 1 }
  | trlLow {size seq src s} (h : s.phase = .trl) (hr : WoutRoom s) (hc : ¬ s.cnt = 0) :
      Line (.framing size seq .crc16 src) s { s with wout := s.wout ++ [⟨crcLow s.crc, true⟩], phase := .rsp }
  | rsp {p s} (h : s.phase = .rsp) (hr : hasRoom s.platform.rspCap s.rsp.length = true) :
      Line p s { s with rsp := s.rsp ++ [response (p.answer s).1 (p.answer s).2], phase := .idle }

/-- The PAY line moves exactly when its byte and the room are there. -/
theorem payLine_eq_moves {size : BlockSize} {src : PaySource} {s s' : State} :
    payLine size src s = .moves s' ↔ ∃ b pin', PayByte src s b pin' ∧ WoutRoom s ∧
      s' = if s.cnt.toNat + 1 = blocksize size then
          { absorb b { s with pin := pin', wout := s.wout ++ [⟨b, false⟩] } with phase := .trl, cnt := 0 }
        else { absorb b { s with pin := pin', wout := s.wout ++ [⟨b, false⟩] } with cnt := s.cnt + 1 } := by
  unfold payLine
  simp only [Move.ofOption_eq_moves, Option.bind_eq_bind, Option.bind_eq_some_iff, Prod.exists, payTake_eq_some,
    woutPut_eq_some]
  constructor
  · rintro ⟨b, s1, h1, s2, ⟨hr, rfl⟩, h3⟩
    obtain ⟨hp, rfl⟩ | ⟨hp, bs, hb, rfl⟩ := h1
    · refine ⟨b, s1.pin, .inl ⟨hp, rfl⟩, hr, ?_⟩
      split at h3 <;> rename_i hc <;> simp only [hc, if_true, if_false] <;> exact (Option.some.inj h3).symm
    · refine ⟨b, bs, .inr ⟨hp, hb⟩, hr, ?_⟩
      split at h3 <;> rename_i hc <;> simp only [hc, if_true, if_false] <;> exact (Option.some.inj h3).symm
  · rintro ⟨b, pin', hb, hr, rfl⟩
    refine ⟨b, { s with pin := pin' }, ?_, _, ⟨hr, rfl⟩, ?_⟩
    · obtain ⟨h, rfl⟩ | ⟨h, h'⟩ := hb
      · exact .inl ⟨h, rfl⟩
      · exact .inr ⟨h, pin', h', rfl⟩
    · split <;> rfl

/-- What a line of R89 did, when the block moved. -/
theorem line_of_planTick {p : Plan} {s s' : State} (h : planTick p s = .moves s') : Line p s s' := by
  unfold planTick at h
  split at h
  · next p _ _ hi =>
    cases p <;> cases h
    · exact .refused hi
    · exact .engineStart hi
    · exact .readStart hi
    · exact .frameStart hi
  · next len e hi =>
    unfold drainLine at h
    split at h
    · next hc =>
      simp only [Move.ofOption_eq_moves, Option.map_eq_some_iff, Prod.exists, pinTake_eq_some] at h
      obtain ⟨_, _, ⟨_, hp, rfl⟩, rfl⟩ := h
      exact .drainTake hi hc hp
    · next hc => cases h; exact .drainDone hi hc
  · next len acc hi =>
    unfold absorbLine at h
    split at h
    · next hc =>
      simp only [Move.ofOption_eq_moves, Option.map_eq_some_iff, Prod.exists, pinTake_eq_some] at h
      obtain ⟨_, _, ⟨_, hp, rfl⟩, rfl⟩ := h
      exact .absorbTake hi hc hp
    · next hc => cases h; exact .absorbDone hi hc
  · next hi =>
    simp only [hdrLine, Move.ofOption_eq_moves, Option.map_eq_some_iff, woutPut_eq_some] at h
    obtain ⟨_, ⟨hr, rfl⟩, rfl⟩ := h
    exact .hdr hi hr
  · next hi =>
    simp only [seqLine, Move.ofOption_eq_moves, Option.map_eq_some_iff, woutPut_eq_some] at h
    obtain ⟨_, ⟨hr, rfl⟩, rfl⟩ := h
    exact .seq hi hr
  · next hi =>
    simp only [nseqLine, Move.ofOption_eq_moves, Option.map_eq_some_iff, woutPut_eq_some] at h
    obtain ⟨_, ⟨hr, rfl⟩, rfl⟩ := h
    exact .nseq hi hr
  · next hi =>
    obtain ⟨b, pin', hb, hr, rfl⟩ := payLine_eq_moves.mp h
    split
    · next hc => exact .payLast hi hb hr hc
    · next hc => exact .pay hi hb hr hc
  · next mode _ hi =>
    unfold trlLine at h
    split at h
    · simp only [Move.ofOption_eq_moves, Option.map_eq_some_iff, woutPut_eq_some] at h
      obtain ⟨_, ⟨hr, rfl⟩, rfl⟩ := h
      exact .trlSum hi hr
    · split at h
      · next hc =>
        simp only [Move.ofOption_eq_moves, Option.map_eq_some_iff, woutPut_eq_some] at h
        obtain ⟨_, ⟨hr, rfl⟩, rfl⟩ := h
        exact .trlHigh hi hr hc
      · next hc =>
        simp only [Move.ofOption_eq_moves, Option.map_eq_some_iff, woutPut_eq_some] at h
        obtain ⟨_, ⟨hr, rfl⟩, rfl⟩ := h
        exact .trlLow hi hr hc
  · next hi =>
    simp only [rspLine, Move.ofOption_eq_moves, Option.map_eq_some_iff, rspPut_eq_some] at h
    obtain ⟨_, ⟨hr, rfl⟩, rfl⟩ := h
    exact .rsp hi hr
  · cases h

theorem planTick_pay {size : BlockSize} {seq : Byte} {mode : ChecksumMode} {src : PaySource} {s : State}
    (h : s.phase = .pay) : planTick (.framing size seq mode src) s = payLine size src s := by
  simp only [planTick, h]

/-- A line of R89 is taken when its phase, its items and its room are there. -/
theorem planTick_of_line {p : Plan} {s s' : State} (h : Line p s s') : planTick p s = .moves s' := by
  cases h with
  | refused h => simp [planTick, h, idleLine]
  | engineStart h => simp [planTick, h, idleLine]
  | readStart h => simp [planTick, h, idleLine]
  | frameStart h => simp [planTick, h, idleLine]
  | drainTake h hc hp => simp [planTick, h, drainLine, hc, pinTake, hp, Move.ofOption]
  | drainDone h hc => simp [planTick, h, drainLine, hc]
  | absorbTake h hc hp => simp [planTick, h, absorbLine, hc, pinTake, hp, Move.ofOption]
  | absorbDone h hc => simp [planTick, h, absorbLine, hc]
  | hdr h hr => simp [planTick, h, hdrLine, woutPut, hr, Move.ofOption]
  | seq h hr => simp [planTick, h, seqLine, woutPut, hr, Move.ofOption]
  | nseq h hr => simp [planTick, h, nseqLine, woutPut, hr, Move.ofOption]
  | pay h hb hr hc =>
    exact (planTick_pay h).trans (payLine_eq_moves.mpr ⟨_, _, hb, hr, by rw [if_neg hc]⟩)
  | payLast h hb hr hc =>
    exact (planTick_pay h).trans (payLine_eq_moves.mpr ⟨_, _, hb, hr, by rw [if_pos hc]⟩)
  | trlSum h hr => simp [planTick, h, trlLine, woutPut, hr, Move.ofOption]
  | trlHigh h hr hc => simp [planTick, h, trlLine, woutPut, hr, Move.ofOption, hc]
  | trlLow h hr hc => simp [planTick, h, trlLine, woutPut, hr, Move.ofOption]; exact hc
  | rsp h hr => cases p <;> simp [planTick, h, rspLine, rspPut, hr, Move.ofOption, toIdle]

/-- No line changes the latched descriptor, the reset input, the platform or CMD (20_memory.md R39). -/
theorem planTick_keeps {p : Plan} {s s' : State} (h : planTick p s = .moves s') :
    s'.desc = s.desc ∧ s'.rst = s.rst ∧ s'.platform = s.platform ∧ s'.cmd = s.cmd := by
  cases line_of_planTick h <;> simp

theorem PlanRun.line {p : Plan} {s t : State} (h : Line p s t) (h' : t.phase ≠ .idle) : PlanRun p 1 s t :=
  .single (planTick_of_line h) h'

/-! ### The run of each phase -/

theorem cnt_succ {c n : Half} (h : c < n) : (c + 1).toNat = c.toNat + 1 := by
  have := n.isLt
  rw [BitVec.lt_def] at h
  rw [BitVec.toNat_add, show (1 : Half).toNat = 1 from rfl]
  omega

/-- The byte counter after one byte and then `k` more. -/
theorem cnt_add {c n : Half} (h : c < n) (k : Nat) :
    BitVec.ofNat 16 ((c + 1).toNat + k) = BitVec.ofNat 16 (c.toNat + (k + 1)) := by
  rw [cnt_succ h]; congr 1; omega

theorem cnt_lt {c len : Half} {k : Nat} (h : c.toNat + (k + 1) ≤ len.toNat) : c < len := by
  rw [BitVec.lt_def]; omega

/-- ABSORB takes and absorbs the bytes at the head of PIN, in order. -/
theorem run_absorb {len : Half} {acc : Accumulator} (bs rest : List Byte) (s : State) (hp : s.phase = .absorb)
    (hpin : s.pin = bs ++ rest) (hlen : s.cnt.toNat + bs.length ≤ len.toNat) :
    PlanRun (.engine len acc) bs.length s
      { s with crc := bs.foldl crcStep s.crc, sum := bs.foldl sumStep s.sum, pin := rest,
               cnt := BitVec.ofNat 16 (s.cnt.toNat + bs.length) } := by
  induction bs generalizing s with
  | nil => simp only [List.nil_append] at hpin; subst hpin; simpa using PlanRun.refl s
  | cons b bs ih =>
    have hc := cnt_lt hlen
    have ht := planTick_of_line (.absorbTake (acc := acc) hp hc hpin)
    have := ih { absorb b { s with pin := bs ++ rest } with cnt := s.cnt + 1 } hp rfl
      (by simp only [List.length_cons] at hlen; simp only [cnt_succ hc]; omega)
    rw [cnt_add hc] at this
    exact .cons ht (by simp [hp]) this

/-- DRAIN takes and discards the bytes at the head of PIN. -/
theorem run_drain {len : Half} {e : CmdError} (bs rest : List Byte) (s : State) (hp : s.phase = .drain)
    (hpin : s.pin = bs ++ rest) (hlen : s.cnt.toNat + bs.length ≤ len.toNat) :
    PlanRun (.refuse len e) bs.length s
      { s with pin := rest, cnt := BitVec.ofNat 16 (s.cnt.toNat + bs.length) } := by
  induction bs generalizing s with
  | nil => simp only [List.nil_append] at hpin; subst hpin; simpa using PlanRun.refl s
  | cons b bs ih =>
    have hc := cnt_lt hlen
    have ht := planTick_of_line (.drainTake (e := e) hp hc hpin)
    have := ih { s with pin := bs ++ rest, cnt := s.cnt + 1 } hp rfl
      (by simp only [List.length_cons] at hlen; simp only [cnt_succ hc]; omega)
    rw [cnt_add hc] at this
    exact .cons ht (by simp [hp]) this

/-- The payload bytes from index `i` on, `k` of them, and what is left of PIN; none if PIN has too few. -/
def draw (src : PaySource) : Nat → Nat → List Byte → Option (List Byte × List Byte)
  | _, 0, pin => some ([], pin)
  | i, k + 1, pin =>
    match src.paybyte i with
    | some b => (draw src (i + 1) k pin).map fun (bs, rest) => (b :: bs, rest)
    | none =>
      match pin with
      | [] => none
      | b :: pin' => (draw src (i + 1) k pin').map fun (bs, rest) => (b :: bs, rest)

/-- What the first payload byte of a draw is. -/
theorem draw_succ {src : PaySource} {i k : Nat} {pin bs rest : List Byte}
    (h : draw src i (k + 1) pin = some (bs, rest)) :
    ∃ b bs' pin', bs = b :: bs' ∧
      ((src.paybyte i = some b ∧ pin' = pin) ∨ (src.paybyte i = none ∧ pin = b :: pin')) ∧
      draw src (i + 1) k pin' = some (bs', rest) := by
  unfold draw at h
  split at h
  · next b hb =>
    simp only [Option.map_eq_some_iff, Prod.exists, Prod.mk.injEq] at h
    obtain ⟨x, y, h1, rfl, rfl⟩ := h
    exact ⟨b, x, pin, rfl, .inl ⟨hb, rfl⟩, h1⟩
  · next hb =>
    split at h
    · cases h
    · next b pin' =>
      simp only [Option.map_eq_some_iff, Prod.exists, Prod.mk.injEq] at h
      obtain ⟨x, y, h1, rfl, rfl⟩ := h
      exact ⟨b, x, pin', rfl, .inr ⟨hb, rfl⟩, h1⟩

theorem draw_length {src : PaySource} {i k : Nat} {pin bs rest : List Byte} (h : draw src i k pin = some (bs, rest)) :
    bs.length = k := by
  induction k generalizing i pin bs with
  | zero => simp only [draw, Option.some.injEq, Prod.mk.injEq] at h; simp [← h.1]
  | succ k ih => obtain ⟨b, bs', pin', rfl, _, h'⟩ := draw_succ h; simp [ih h']

/-- PAY before the last payload byte: `k` bytes put and absorbed, in order (20_memory.md R36 item 3). -/
theorem run_pay {size : BlockSize} {seq : Byte} {mode : ChecksumMode} {src : PaySource} (k : Nat) (bs rest : List Byte)
    (s : State) (hp : s.phase = .pay) (hd : draw src s.cnt.toNat k s.pin = some (bs, rest))
    (hk : s.cnt.toNat + k < blocksize size) (hw : WoutAccepts k s) :
    PlanRun (.framing size seq mode src) k s
      { s with crc := bs.foldl crcStep s.crc, sum := bs.foldl sumStep s.sum, pin := rest,
               wout := s.wout ++ bs.map (fun b => ⟨b, false⟩), cnt := BitVec.ofNat 16 (s.cnt.toNat + k) } := by
  induction k generalizing s bs with
  | zero =>
    simp only [draw, Option.some.injEq, Prod.mk.injEq] at hd
    obtain ⟨rfl, rfl⟩ := hd
    simpa using PlanRun.refl s
  | succ k ih =>
    obtain ⟨b, bs', pin', rfl, hb, hd'⟩ := draw_succ hd
    obtain ⟨hr, hw'⟩ := accepts_succ hw
    have hc : s.cnt < BitVec.ofNat 16 1024 := by
      have hB : blocksize size ≤ 1024 := by cases size <;> simp [blocksize]
      rw [BitVec.lt_def, show (BitVec.ofNat 16 1024).toNat = 1024 from rfl]; omega
    have ht := planTick_of_line (.pay (seq := seq) (mode := mode) hp hb hr (by omega : ¬ s.cnt.toNat + 1 = blocksize size))
    have := ih bs' { s with
        pin := pin', wout := s.wout ++ [⟨b, false⟩], crc := crcStep s.crc b, sum := sumStep s.sum b, cnt := s.cnt + 1 }
      hp (by simpa only [cnt_succ hc] using hd') (by simp only [cnt_succ hc]; omega) (by simpa [WoutAccepts] using hw')
    simp only [cnt_add hc] at this
    refine .cons ht (by simp [hp]) ?_
    simpa using this

/-- PAY, the last payload byte. -/
theorem run_pay_last {size : BlockSize} {seq : Byte} {mode : ChecksumMode} {src : PaySource} (bs rest : List Byte)
    (s : State) (hp : s.phase = .pay) (hd : draw src s.cnt.toNat 1 s.pin = some (bs, rest))
    (hk : s.cnt.toNat + 1 = blocksize size) (hw : WoutAccepts 1 s) :
    PlanRun (.framing size seq mode src) 1 s
      { s with crc := bs.foldl crcStep s.crc, sum := bs.foldl sumStep s.sum, pin := rest,
               wout := s.wout ++ bs.map (fun b => ⟨b, false⟩), phase := .trl, cnt := 0 } := by
  obtain ⟨b, bs', pin', rfl, hb, hd'⟩ := draw_succ hd
  simp only [draw, Option.some.injEq, Prod.mk.injEq] at hd'
  obtain ⟨rfl, rfl⟩ := hd'
  exact .line (.payLast hp hb (accepts_one.mp hw) hk) (by simp)

theorem draw_add {src : PaySource} {i m k : Nat} {pin xs pin' ys rest : List Byte}
    (h : draw src i m pin = some (xs, pin')) (h' : draw src (i + m) k pin' = some (ys, rest)) :
    draw src i (m + k) pin = some (xs ++ ys, rest) := by
  induction m generalizing i pin xs with
  | zero =>
    simp only [draw, Option.some.injEq, Prod.mk.injEq] at h
    obtain ⟨rfl, rfl⟩ := h
    simpa using h'
  | succ m ih =>
    obtain ⟨b, bs, pin'', rfl, hb, hd⟩ := draw_succ h
    have := ih hd (by rwa [Nat.add_assoc, Nat.add_comm 1])
    rw [Nat.add_right_comm]
    unfold draw
    obtain ⟨hb, rfl⟩ | ⟨hb, rfl⟩ := hb <;> simp [hb, this]

/-- Splitting a draw. -/
theorem draw_split {src : PaySource} {i m k : Nat} {pin bs rest : List Byte}
    (h : draw src i (m + k) pin = some (bs, rest)) :
    ∃ pin', draw src i m pin = some (bs.take m, pin') ∧ draw src (i + m) k pin' = some (bs.drop m, rest) := by
  induction m generalizing i pin bs with
  | zero => exact ⟨pin, by simp [draw], by simpa using h⟩
  | succ m ih =>
    rw [Nat.add_right_comm] at h
    obtain ⟨b, bs', pin', rfl, hb, hd⟩ := draw_succ h
    obtain ⟨pin'', h1, h2⟩ := ih hd
    refine ⟨pin'', ?_, by rw [← Nat.add_assoc, Nat.add_right_comm]; simpa using h2⟩
    unfold draw
    obtain ⟨hb, rfl⟩ | ⟨hb, rfl⟩ := hb <;> simp [hb, h1]

/-- Bytes all taken from PIN. -/
theorem draw_pin {src : PaySource} (i k : Nat) (pin : List Byte) (h : ∀ j, j < k → src.paybyte (i + j) = none)
    (hk : k ≤ pin.length) : draw src i k pin = some (pin.take k, pin.drop k) := by
  induction k generalizing i pin with
  | zero => simp [draw]
  | succ k ih =>
    cases pin with
    | nil => simp at hk
    | cons b pin =>
      have h0 := h 0 (by omega)
      have := ih (i + 1) pin (fun j hj => by rw [Nat.add_assoc, Nat.add_comm 1]; exact h (j + 1) (by omega))
        (by simpa using hk)
      unfold draw
      simp only [Nat.add_zero] at h0
      simp [h0, this]

/-- Bytes none of which is taken from PIN. -/
theorem draw_made {src : PaySource} (i : Nat) (bs pin : List Byte)
    (h : ∀ j (hj : j < bs.length), src.paybyte (i + j) = some bs[j]) : draw src i bs.length pin = some (bs, pin) := by
  induction bs generalizing i with
  | nil => simp [draw]
  | cons b bs ih =>
    have h0 := h 0 (by simp)
    have := ih (i + 1) (fun j hj => by
      have := h (j + 1) (by simpa using hj)
      rw [Nat.add_assoc, Nat.add_comm 1]; simpa using this)
    simp only [Nat.add_zero, List.getElem_cons_zero] at h0
    unfold draw
    simp [h0, this]

/-- The payload of `FDATA` (42_framer.md R86): the bytes on PIN, padded. -/
theorem draw_supplied {len : Half} {n : Nat} {pin : List Byte} (hn : len.toNat ≤ n) (hp : len.toNat ≤ pin.length) :
    draw (.supplied len) 0 n pin = some (pad (pin.take len.toNat) n, pin.drop len.toNat) := by
  have h1 := draw_pin (src := .supplied len) 0 len.toNat pin
    (fun j hj => by simp only [PaySource.paybyte]; rw [if_pos (by omega)]) hp
  have h2 := draw_made (src := .supplied len) (0 + len.toNat) (zeros (n - len.toNat)) (pin.drop len.toNat)
    (fun j hj => by
      simp only [PaySource.paybyte]
      rw [if_neg (by omega)]; simp)
  simp only [List.length_replicate] at h2
  have := draw_add h1 h2
  rwa [Nat.add_sub_cancel' hn, show pin.take len.toNat ++ zeros (n - len.toNat) = pad (pin.take len.toNat) n by
    simp [pad, Nat.min_eq_left hp]] at this

/-- The payload of `FTERM` (R94). -/
theorem draw_zeros (n : Nat) (pin : List Byte) : draw .zeros 0 n pin = some (zeros n, pin) := by
  have := draw_made (src := .zeros) 0 (zeros n) pin (fun j hj => by simp [PaySource.paybyte])
  simpa using this

/-- The payload of `FMETA` (R90, R91): the name on PIN, NUL, the digits, padded. -/
theorem draw_metadata {len : Half} {fsize : BitVec 32} {pin : List Byte}
    (hn : len.toNat + (dec fsize).length ≤ 127) (hp : len.toNat ≤ pin.length) :
    draw (.metadata len fsize) 0 128 pin = some (metaPayload (pin.take len.toNat) fsize, pin.drop len.toNat) := by
  have h1 := draw_pin (src := .metadata len fsize) 0 len.toNat pin
    (fun j hj => by simp only [PaySource.paybyte]; rw [if_pos (by omega)]) hp
  have h2 := draw_made (src := .metadata len fsize) (0 + len.toNat)
    ((0x00 :: dec fsize) ++ zeros (127 - len.toNat - (dec fsize).length)) (pin.drop len.toNat)
    (fun j hj => by
      simp only [PaySource.paybyte, Nat.zero_add]
      rw [if_neg (by omega)]
      rcases j with _ | j
      · simp
      · rw [if_neg (by omega)]
        by_cases hj' : j < (dec fsize).length
        · rw [if_pos (by omega)]
          simp only [List.cons_append, List.getElem_cons_succ]
          rw [List.getElem_append_left hj', show len.toNat + (j + 1) - len.toNat - 1 = j by omega]
          simp [List.getD_eq_getElem?_getD, List.getElem?_eq_getElem hj']
        · rw [if_neg (by omega)]
          simp only [List.cons_append, List.getElem_cons_succ]
          rw [List.getElem_append_right (by omega)]
          simp)
  have := draw_add h1 h2
  have hl : len.toNat + ((0x00 :: dec fsize) ++ zeros (127 - len.toNat - (dec fsize).length)).length = 128 := by
    simp; omega
  rw [hl] at this
  rw [this]
  simp [metaPayload, pad, Nat.min_eq_left hp]
  omega

/-! ### From IDLE to the response -/

/-- `SUM8` and `CRC16` up to the response. -/
theorem run_engine {len : Half} {acc : Accumulator} {s : State} (hi : s.phase = .idle) (hs : Supplied len s) :
    PlanRun (.engine len acc) (len.toNat + 2) s
      { s with crc := crc16 (s.pin.take len.toNat), sum := sum8 (s.pin.take len.toNat), pin := s.pin.drop len.toNat,
               phase := .rsp, cnt := len } := by
  have h1 : PlanRun (.engine len acc) 1 s { clear s with phase := .absorb, cnt := 0 } :=
    .line (.engineStart hi) (by simp)
  have h2 := run_absorb (len := len) (acc := acc) (s.pin.take len.toNat) (s.pin.drop len.toNat)
    { clear s with phase := .absorb, cnt := 0 } rfl (by simp) (by simp)
  have hl : (s.pin.take len.toNat).length = len.toNat := by simp [hs]
  rw [hl] at h2
  refine ((h1.trans h2).trans (.line (.absorbDone rfl ?_) (by simp))).cast_eq (by omega) ?_
  · simp
  · simp [crc16, sum8]

/-- A refused command up to the response. -/
theorem run_refuse {len : Half} {e : CmdError} {s : State} (hi : s.phase = .idle) (hs : Supplied len s) :
    PlanRun (.refuse len e) (len.toNat + 2) s
      { s with pin := s.pin.drop len.toNat, phase := .rsp, cnt := len } := by
  have h1 : PlanRun (.refuse len e) 1 s (raise s) := .line (.refused hi) (by simp)
  have h2 := run_drain (len := len) (e := e) (s.pin.take len.toNat) (s.pin.drop len.toNat)
    (raise s) rfl (by simp) (by simp)
  have hl : (s.pin.take len.toNat).length = len.toNat := by simp [hs]
  rw [hl] at h2
  refine ((h1.trans h2).trans (.line (.drainDone rfl ?_) (by simp))).cast_eq (by omega) ?_
  · simp
  · simp [raise]

/-- A frame command up to its first payload byte: header, block number, complement. -/
theorem run_header {size : BlockSize} {seq : Byte} {mode : ChecksumMode} {src : PaySource} {s : State}
    (hi : s.phase = .idle) (hw : WoutAccepts 3 s) :
    PlanRun (.framing size seq mode src) 4 s
      { clear s with wout := s.wout ++ [⟨header size, false⟩, ⟨seq, false⟩, ⟨seqComplement seq, false⟩],
                     phase := .pay, cnt := 0 } := by
  obtain ⟨r1, hw⟩ := accepts_succ hw
  obtain ⟨r2, hw⟩ := accepts_succ hw
  obtain ⟨r3, -⟩ := accepts_succ hw
  have h0 := PlanRun.line (.frameStart (size := size) (seq := seq) (mode := mode) (src := src) hi) (by simp)
  have h1 := PlanRun.line (.hdr (size := size) (seq := seq) (mode := mode) (src := src)
    (s := { clear s with phase := .hdr }) rfl r1) (by simp)
  have h2 := PlanRun.line (.seq (size := size) (seq := seq) (mode := mode) (src := src)
    (s := { clear s with wout := s.wout ++ [⟨header size, false⟩], phase := .seq }) rfl (by simpa [WoutRoom] using r2))
    (by simp)
  have h3 := PlanRun.line (.nseq (size := size) (seq := seq) (mode := mode) (src := src)
    (s := { clear s with wout := s.wout ++ [⟨header size, false⟩] ++ [⟨seq, false⟩], phase := .nseq }) rfl
    (by simpa [WoutRoom] using r3)) (by simp)
  exact (((h0.trans h1).trans h2).trans h3).cast_eq rfl (by simp)

/-- PAY: the whole payload. -/
theorem run_payload {size : BlockSize} {seq : Byte} {mode : ChecksumMode} {src : PaySource} {pay rest : List Byte}
    {s : State} (hp : s.phase = .pay) (hc : s.cnt = 0) (hd : draw src 0 (blocksize size) s.pin = some (pay, rest))
    (hw : WoutAccepts (blocksize size) s) :
    PlanRun (.framing size seq mode src) (blocksize size) s
      { s with crc := pay.foldl crcStep s.crc, sum := pay.foldl sumStep s.sum, pin := rest,
               wout := s.wout ++ pay.map (fun b => ⟨b, false⟩), phase := .trl, cnt := 0 } := by
  obtain ⟨n, hn⟩ : ∃ n, blocksize size = n + 1 := by cases size <;> simp [blocksize]
  have hB : n + 1 ≤ 1024 := by rw [← hn]; cases size <;> simp [blocksize]
  rw [hn] at hd hw ⊢
  obtain ⟨hw1, hw2⟩ := accepts_add hw
  obtain ⟨pin', hd1, hd2⟩ := draw_split hd
  have hl : (pay.take n).length = n := draw_length hd1
  have h1 := run_pay (size := size) (seq := seq) (mode := mode) n (pay.take n) pin' s hp
    (by simpa [hc] using hd1) (by simp [hc, hn]) hw1
  have hm : (BitVec.ofNat 16 (s.cnt.toNat + n)).toNat = n := by simp [hc]; omega
  have h2 := run_pay_last (size := size) (seq := seq) (mode := mode) (src := src) (pay.drop n) rest
    { s with
      crc := (pay.take n).foldl crcStep s.crc, sum := (pay.take n).foldl sumStep s.sum, pin := pin',
      wout := s.wout ++ (pay.take n).map (fun b => ⟨b, false⟩), cnt := BitVec.ofNat 16 (s.cnt.toNat + n) }
    hp (by simpa only [hm, Nat.zero_add] using hd2) (by simp only [hm, hn])
    (by simpa only [WoutAccepts, List.length_append, List.length_map, hl] using hw2)
  refine (h1.trans h2).cast_eq rfl ?_
  simp only [← List.foldl_append, List.take_append_drop, List.append_assoc, ← List.map_append]

/-- TRL: the trailer of a payload both accumulators have absorbed. -/
theorem run_trailer {size : BlockSize} {seq : Byte} {mode : ChecksumMode} {src : PaySource} {pay : List Byte}
    {s : State} (hp : s.phase = .trl) (hc : s.cnt = 0) (hcrc : s.crc = crc16 pay) (hsum : s.sum = sum8 pay)
    (hw : WoutAccepts (trailerLength mode) s) :
    PlanRun (.framing size seq mode src) (trailerLength mode) s
      { s with wout := s.wout ++ marked (trailer s.platform.sum8Complement mode pay), phase := .rsp,
               cnt := if mode = .crc16 then 1 else 0 } := by
  cases mode with
  | arithmetic8 =>
    refine (PlanRun.line (.trlSum hp (accepts_one.mp hw)) (by simp)).cast_eq rfl ?_
    simp [hsum, hc]
  | crc16 =>
    obtain ⟨r1, hw⟩ := accepts_succ hw
    have h1 := PlanRun.line (.trlHigh (size := size) (seq := seq) (src := src) hp r1 hc) (by simp [hp])
    have h2 := PlanRun.line (.trlLow (size := size) (seq := seq) (src := src)
      (s := { s with wout := s.wout ++ [⟨crcHigh s.crc, false⟩], cnt := 1 }) hp
      (by simpa [WoutRoom] using accepts_one.mp hw) (show ¬ (1 : Half) = 0 by decide)) (by simp)
    refine (h1.trans h2).cast_eq rfl ?_
    simp [hcrc, marked]

theorem trailer_ne_nil (k : Bool) (mode : ChecksumMode) (pay : List Byte) : trailer k mode pay ≠ [] := by
  cases mode <;> simp

/-- A frame on WOUT: only its last byte is marked (30_encoding.md R57). -/
theorem marked_frame (k : Bool) (size : BlockSize) (seq : Byte) (pay : List Byte) (mode : ChecksumMode) :
    marked (frame k size seq pay mode) =
      [⟨header size, false⟩, ⟨seq, false⟩, ⟨seqComplement seq, false⟩] ++ pay.map (fun b => ⟨b, false⟩) ++
        marked (trailer k mode pay) := by
  unfold frame
  rw [marked_append (trailer_ne_nil _ _ _), List.map_append]
  rfl

/-- A frame command up to the response: the frame of R84 on WOUT, its payload in both accumulators. -/
theorem run_framing {size : BlockSize} {seq : Byte} {mode : ChecksumMode} {src : PaySource} {pay rest : List Byte}
    {s : State} (hi : s.phase = .idle) (hd : draw src 0 (blocksize size) s.pin = some (pay, rest))
    (hw : WoutAccepts (3 + blocksize size + trailerLength mode) s) :
    PlanRun (.framing size seq mode src) (4 + blocksize size + trailerLength mode) s
      { s with crc := crc16 pay, sum := sum8 pay, pin := rest,
               wout := s.wout ++ marked (frame s.platform.sum8Complement size seq pay mode),
               phase := .rsp, cnt := if mode = .crc16 then 1 else 0 } := by
  obtain ⟨hw', hw3⟩ := accepts_add hw
  obtain ⟨hw1, hw2⟩ := accepts_add hw'
  have h1 := run_header (size := size) (seq := seq) (mode := mode) (src := src) hi hw1
  have h2 := run_payload (size := size) (seq := seq) (mode := mode) (src := src) (pay := pay) (rest := rest)
    (s := { clear s with wout := s.wout ++ [⟨header size, false⟩, ⟨seq, false⟩, ⟨seqComplement seq, false⟩],
                         phase := .pay, cnt := 0 }) rfl rfl hd (by simpa [WoutAccepts] using hw2)
  have h3 := run_trailer (size := size) (seq := seq) (mode := mode) (src := src) (pay := pay)
    (s := { clear s with
      crc := crc16 pay, sum := sum8 pay, pin := rest,
      wout := s.wout ++ [⟨header size, false⟩, ⟨seq, false⟩, ⟨seqComplement seq, false⟩] ++
        pay.map (fun b => ⟨b, false⟩), phase := .trl, cnt := 0 }) rfl rfl rfl rfl
    (by simpa [WoutAccepts, draw_length hd, Nat.add_assoc, Nat.add_comm 3] using hw3)
  refine ((h1.trans h2).trans h3).cast_eq rfl ?_
  simp [marked_frame]

end Sys2Proof.Machine
end

