-- ==== Sys2Proof/Laws/Progress.lean ====
section
/-! SUPPORT. What a line of spec/42_framer.md R89 does to the phase and the counter, how a whole command unrolls into
lines, and the two induction principles over it: one for what a command keeps, one for two runs side by side. -/

namespace Sys2Proof.Machine

/-! ### Phase and counter -/

/-- A line keeps the phase among those of its command. -/
theorem fits_line {p : Plan} {s s' : State} (h : Line p s s') (hf : phaseFits p s.phase s.cnt = true) :
    phaseFits p s'.phase s'.cnt = true := by
  cases h with
  | drainTake h hc hp =>
    simp only [h, phaseFits, decide_eq_true_eq, BitVec.le_def, cnt_succ hc] at *
    rw [BitVec.lt_def] at hc; omega
  | absorbTake h hc hp =>
    simp only [absorb_phase, h, phaseFits, decide_eq_true_eq, BitVec.le_def, cnt_succ hc] at *
    rw [BitVec.lt_def] at hc; omega
  | @pay size _ _ _ _ _ _ h hb hr hc =>
    simp only [absorb_phase, h, phaseFits, decide_eq_true_eq] at *
    have hB : blocksize size ≤ 1024 := by cases size <;> simp [blocksize]
    rw [BitVec.toNat_add, show (1 : Half).toNat = 1 from rfl]
    omega
  | trlHigh h hr hc => simp [h, phaseFits]
  | @nseq size _ _ _ _ h hr => cases size <;> simp [phaseFits, blocksize]
  | refused h => simp [phaseFits, BitVec.le_def]
  | engineStart h => simp [phaseFits, BitVec.le_def]
  | _ => simp [phaseFits]

/-- Inside a command every line brings the response nearer by one (70_reset_and_hazards.md R164). -/
theorem stepsLeft_line {p : Plan} {s s' : State} (h : Line p s s') (hf : phaseFits p s.phase s.cnt = true)
    (hi : s.phase ≠ .idle) : stepsLeft p s'.phase s'.cnt + 1 = stepsLeft p s.phase s.cnt := by
  cases h with
  | refused h => exact absurd h hi
  | engineStart h => exact absurd h hi
  | readStart h => exact absurd h hi
  | frameStart h => exact absurd h hi
  | drainTake h hc hp =>
    simp only [h, stepsLeft, cnt_succ hc]
    rw [BitVec.lt_def] at hc; omega
  | absorbTake h hc hp =>
    simp only [absorb_phase, h, stepsLeft, cnt_succ hc]
    rw [BitVec.lt_def] at hc; omega
  | drainDone h hc => simp only [h, stepsLeft]; rw [BitVec.lt_def] at hc; omega
  | absorbDone h hc => simp only [h, stepsLeft]; rw [BitVec.lt_def] at hc; omega
  | hdr h hr => simp only [h, stepsLeft]; omega
  | seq h hr => simp only [h, stepsLeft]; omega
  | nseq h hr => simp only [h, stepsLeft, show (0 : Half).toNat = 0 from rfl]; omega
  | @pay size _ _ _ _ _ _ h hb hr hc =>
    have hB : blocksize size ≤ 1024 := by cases size <;> simp [blocksize]
    simp only [absorb_phase, h, phaseFits, stepsLeft, decide_eq_true_eq] at *
    rw [BitVec.toNat_add, show (1 : Half).toNat = 1 from rfl]
    omega
  | payLast h hb hr hc => simp only [h, stepsLeft, show (0 : Half).toNat = 0 from rfl]; omega
  | trlSum h hr =>
    simp only [h, phaseFits, stepsLeft, trailerLength, reduceCtorEq, false_and, or_false, decide_eq_true_eq] at *
    simp [hf]
  | trlHigh h hr hc => simp [h, stepsLeft, trailerLength, hc]
  | trlLow h hr hc =>
    simp only [h, phaseFits, stepsLeft, trailerLength, true_and, decide_eq_true_eq] at *
    obtain hf | hf := hf
    · exact absurd hf hc
    · simp [hf]
  | rsp h hr => cases p <;> simp [h, stepsLeft]

/-- Where the phase is one of the command's, R89 has a line for it. -/
theorem planTick_ne_stray {p : Plan} {s : State} (hf : phaseFits p s.phase s.cnt = true) : planTick p s ≠ .stray := by
  unfold planTick
  cases hp : s.phase <;> cases p <;> simp_all [phaseFits, idleLine, drainLine, absorbLine, hdrLine, seqLine, nseqLine,
    payLine, trlLine, rspLine] <;> split <;> (try split) <;> simp

/-- A command takes fewer lines than the bound of `perform`. -/
theorem stepsLeft_lt (p : Plan) (ph : Phase) (c : Half) : stepsLeft p ph c + 2 < commandBound := by
  unfold stepsLeft commandBound
  split
  · rename_i len _; have := len.isLt; omega
  · rename_i len _; have := len.isLt; omega
  all_goals first
    | omega
    | (rename_i size _ mode _; cases size <;> cases mode <;> simp [blocksize, trailerLength] <;> omega)

/-! ### Holds -/

/-- The lines of R89 that wait for the environment (70_reset_and_hazards.md R163), one constructor for each. -/
inductive Blocked : Plan → State → Prop where
  | drain {len e s} (h : s.phase = .drain) (hc : s.cnt < len) (hp : s.pin = []) : Blocked (.refuse len e) s
  | absorb {len acc s} (h : s.phase = .absorb) (hc : s.cnt < len) (hp : s.pin = []) : Blocked (.engine len acc) s
  | frame {size seq mode src s} (h : s.phase = .hdr ∨ s.phase = .seq ∨ s.phase = .nseq ∨ s.phase = .pay ∨ s.phase = .trl)
      (hr : hasRoom s.platform.woutCap s.wout.length = false) : Blocked (.framing size seq mode src) s
  | pay {size seq mode src s} (h : s.phase = .pay) (hb : src.paybyte s.cnt.toNat = none) (hp : s.pin = []) :
      Blocked (.framing size seq mode src) s
  | rsp {p s} (h : s.phase = .rsp) (hr : hasRoom s.platform.rspCap s.rsp.length = false) : Blocked p s

/-- The PAY line holds exactly when its byte or the room is missing. -/
theorem payLine_eq_hold {size : BlockSize} {src : PaySource} {s : State} :
    payLine size src s = .hold ↔
      src.paybyte s.cnt.toNat = none ∧ s.pin = [] ∨ hasRoom s.platform.woutCap s.wout.length = false := by
  cases hm : payLine size src s with
  | stray => simp [payLine] at hm
  | hold =>
    simp only [true_iff]
    by_contra hn
    rw [not_or, Bool.not_eq_false] at hn
    obtain ⟨h1, hr⟩ := hn
    obtain ⟨b, pin', hb⟩ : ∃ b pin', PayByte src s b pin' := by
      cases hb : src.paybyte s.cnt.toNat with
      | some b => exact ⟨b, s.pin, .inl ⟨hb, rfl⟩⟩
      | none =>
        cases hp : s.pin with
        | nil => exact absurd ⟨hb, hp⟩ h1
        | cons b bs => exact ⟨b, bs, .inr ⟨hb, hp⟩⟩
    have := payLine_eq_moves (size := size).mpr ⟨b, pin', hb, hr, rfl⟩
    rw [hm] at this; cases this
  | moves s' =>
    simp only [reduceCtorEq, false_iff, not_or, not_and]
    obtain ⟨b, pin', hb, hr, -⟩ := payLine_eq_moves.mp hm
    refine ⟨fun h1 h2 => ?_, by simp only [WoutRoom] at hr; simp [hr]⟩
    obtain ⟨h, -⟩ | ⟨-, h⟩ := hb <;> simp_all

/-- A line of R89 holds exactly where it waits for the environment. -/
theorem planTick_eq_hold {p : Plan} {s : State} : planTick p s = .hold ↔ Blocked p s := by
  constructor
  · intro h
    unfold planTick at h
    split at h
    · rename_i p _ _ _; cases p <;> cases h
    · next hi =>
      unfold drainLine at h; split at h
      · next hc => exact .drain hi hc (by simpa [pinTake_eq_none] using h)
      · cases h
    · next hi =>
      unfold absorbLine at h; split at h
      · next hc => exact .absorb hi hc (by simpa [pinTake_eq_none] using h)
      · cases h
    · next hi => exact .frame (by simp [hi]) (by simpa [hdrLine, woutPut_eq_none] using h)
    · next hi => exact .frame (by simp [hi]) (by simpa [seqLine, woutPut_eq_none] using h)
    · next hi => exact .frame (by simp [hi]) (by simpa [nseqLine, woutPut_eq_none] using h)
    · next hi =>
      obtain ⟨h1, h2⟩ | h1 := payLine_eq_hold.mp h
      · exact .pay hi h1 h2
      · exact .frame (by simp [hi]) h1
    · next hi =>
      refine .frame (by simp [hi]) ?_
      unfold trlLine at h
      split at h
      · simpa [woutPut_eq_none] using h
      · split at h <;> simpa [woutPut_eq_none] using h
    · next hi => exact .rsp hi (by simpa [rspLine, rspPut_eq_none] using h)
    · cases h
  · intro h
    cases h with
    | drain h hc hp => simp [planTick, h, drainLine, hc, pinTake_eq_none.mpr hp]
    | absorb h hc hp => simp [planTick, h, absorbLine, hc, pinTake_eq_none.mpr hp]
    | @frame _ _ mode _ _ h hr =>
      obtain h | h | h | h | h := h
      · simp [planTick, h, hdrLine, woutPut_eq_none.mpr hr]
      · simp [planTick, h, seqLine, woutPut_eq_none.mpr hr]
      · simp [planTick, h, nseqLine, woutPut_eq_none.mpr hr]
      · rw [planTick_pay h]; exact payLine_eq_hold.mpr (.inr hr)
      · cases mode <;> simp [planTick, h, trlLine, woutPut_eq_none.mpr hr]
    | pay h hb hp => rw [planTick_pay h]; exact payLine_eq_hold.mpr (.inl ⟨hb, hp⟩)
    | @rsp p _ h hr => cases p <;> simp [planTick, h, rspLine, rspPut_eq_none.mpr hr]

/-! ### A whole command as a run of lines -/

/-- From a phase of the command, inside it, `advance` with enough fuel runs to the response or to a hold. -/
theorem advance_cases {p : Plan} {s : State} {n : Nat} (hf : phaseFits p s.phase s.cnt = true) (hi : s.phase ≠ .idle)
    (hn : stepsLeft p s.phase s.cnt ≤ n) :
    ∃ m t, PlanRun p m s t ∧ t.phase ≠ .idle ∧ phaseFits p t.phase t.cnt = true ∧
      (planTick p t = .hold ∧ advance n p s = .next t ∨
        ∃ u, planTick p t = .moves u ∧ u.phase = .idle ∧ advance n p s = .next u) := by
  induction n generalizing s with
  | zero =>
    exfalso
    cases h : planTick p s with
    | moves s' => have := stepsLeft_line (line_of_planTick h) hf hi; omega
    | hold =>
      revert hn hf h
      cases hp : s.phase <;> cases p <;> simp [phaseFits, stepsLeft, hp] at hi ⊢
    | stray => exact planTick_ne_stray hf h
  | succ n ih =>
    rw [advance]
    cases h : planTick p s with
    | moves s' =>
      have hl := line_of_planTick h
      by_cases hi' : s'.phase = .idle
      · exact ⟨0, s, .refl s, hi, hf, .inr ⟨s', h, hi', by simp [hi']⟩⟩
      · have hs := stepsLeft_line hl hf hi
        obtain ⟨m, t, hr, ht, hft, hc⟩ := ih (fits_line hl hf) hi' (by omega)
        exact ⟨m + 1, t, .cons h hi' hr, ht, hft, by simpa [hi'] using hc⟩
    | hold => exact ⟨0, s, .refl s, hi, hf, .inl ⟨h, rfl⟩⟩
    | stray => exact absurd h (planTick_ne_stray hf)

/-- No run changes the latched descriptor, the reset input, the platform or CMD. -/
theorem run_keeps {p : Plan} {n : Nat} {s t : State} (h : PlanRun p n s t) :
    t.desc = s.desc ∧ t.rst = s.rst ∧ t.platform = s.platform ∧ t.cmd = s.cmd := by
  induction h with
  | refl => simp
  | cons h _ _ ih => obtain ⟨_, _, _, _⟩ := planTick_keeps h; simp_all

/-- A run of `n` lines inside a command uses up `n` of its steps. -/
theorem run_stepsLeft {p : Plan} {n : Nat} {s t : State} (h : PlanRun p n s t)
    (hf : phaseFits p s.phase s.cnt = true) (hi : s.phase ≠ .idle) :
    stepsLeft p t.phase t.cnt + n = stepsLeft p s.phase s.cnt := by
  induction h with
  | refl => rfl
  | cons h h' _ ih =>
    have := ih (fits_line (line_of_planTick h) hf) h'
    have := stepsLeft_line (line_of_planTick h) hf hi
    omega

@[simp] theorem phaseFits_idle (p : Plan) (c : Half) : phaseFits p .idle c = true := by cases p <;> rfl

/-- The first line of every command. -/
theorem idle_starts (p : Plan) {s : State} (hi : s.phase = .idle) :
    ∃ s', planTick p s = .moves s' ∧ s'.phase ≠ .idle ∧ phaseFits p s'.phase s'.cnt = true := by
  cases p <;> refine ⟨_, planTick_of_line (by constructor; exact hi), ?_, ?_⟩ <;>
    simp [phaseFits, BitVec.le_def]

/-- A whole command, from IDLE or from inside it: a run of lines to the response or to a hold. -/
theorem perform_cases {p : Plan} {s : State} (hf : phaseFits p s.phase s.cnt = true) :
    ∃ m t, PlanRun p m s t ∧ t.phase ≠ .idle ∧ phaseFits p t.phase t.cnt = true ∧
      (planTick p t = .hold ∧ perform p s = .next t ∨
        ∃ u, planTick p t = .moves u ∧ u.phase = .idle ∧ perform p s = .next u) := by
  have hb : ∀ s : State, stepsLeft p s.phase s.cnt + 2 < commandBound := fun s => stepsLeft_lt _ _ _
  by_cases hi : s.phase = .idle
  · obtain ⟨s', h, hi', hf'⟩ := idle_starts p hi
    obtain ⟨n, hn⟩ : ∃ n, commandBound = n + 1 := ⟨_, rfl⟩
    obtain ⟨m, t, hr, ht, hft, hc⟩ := advance_cases (n := n) hf' hi' (by have := hb s'; omega)
    refine ⟨m + 1, t, .cons h hi' hr, ht, hft, ?_⟩
    rw [perform, hn, advance, h]
    simpa [hi'] using hc
  · exact advance_cases hf hi (by have := hb s; omega)

/-- A run is shorter than the bound of `perform`. -/
theorem run_length_lt {p : Plan} {n : Nat} {s t : State} (h : PlanRun p n s t)
    (hf : phaseFits p s.phase s.cnt = true) : n < commandBound := by
  by_cases hi : s.phase = .idle
  · cases h with
    | refl => decide
    | cons h h' r =>
      have := run_stepsLeft r (fits_line (line_of_planTick h) hf) h'
      have := stepsLeft_lt p
      rename_i s' _
      have := this s'.phase s'.cnt
      omega
  · have := run_stepsLeft h hf hi
    have := stepsLeft_lt p s.phase s.cnt
    omega

theorem fits_run {p : Plan} {n : Nat} {s t : State} (h : PlanRun p n s t) (hf : phaseFits p s.phase s.cnt = true) :
    phaseFits p t.phase t.cnt = true := by
  induction h with
  | refl => exact hf
  | cons h _ _ ih => exact ih (fits_line (line_of_planTick h) hf)

/-- A command taken up in the middle of its run ends as the whole run does. -/
theorem perform_eq_of_run {p : Plan} {n : Nat} {s t : State} (h : PlanRun p n s t)
    (hf : phaseFits p s.phase s.cnt = true) : perform p s = perform p t := by
  obtain ⟨m, u, hr, -, -, ⟨hu, ht⟩ | ⟨v, hu, hv, ht⟩⟩ := perform_cases (fits_run h hf)
  · rw [ht, perform_of_hold (h.trans hr) hu (run_length_lt (h.trans hr) hf)]
  · rw [ht, perform_of_run (h.trans hr) hu hv (run_length_lt (h.trans hr) hf)]

/-- An answer depends on the accumulators alone (30_encoding.md R50). -/
theorem answer_eq {p : Plan} {s t : State} (hc : s.crc = t.crc) (hs : s.sum = t.sum) : p.answer s = p.answer t := by
  cases p with
  | engine _ acc => cases acc <;> simp [Plan.answer, Accumulator.value, hc, hs]
  | readback acc => cases acc <;> simp [Plan.answer, Accumulator.value, hc, hs]
  | _ => rfl

/-- A line does the same with more bytes behind it on PIN. -/
theorem line_append_pin {p : Plan} {s s' : State} (h : Line p s s') (bs : List Byte) :
    Line p { s with pin := s.pin ++ bs } { s' with pin := s'.pin ++ bs } := by
  have hb : ∀ {src b pin'}, PayByte src s b pin' → PayByte src { s with pin := s.pin ++ bs } b (pin' ++ bs) := by
    rintro src b pin' (⟨h, rfl⟩ | ⟨h, hp⟩)
    · exact .inl ⟨h, rfl⟩
    · exact .inr ⟨h, by simp [hp]⟩
  cases h with
  | refused h => exact .refused (s := { s with pin := s.pin ++ bs }) h
  | engineStart h => exact .engineStart (s := { s with pin := s.pin ++ bs }) h
  | readStart h => exact .readStart (s := { s with pin := s.pin ++ bs }) h
  | frameStart h => exact .frameStart (s := { s with pin := s.pin ++ bs }) h
  | drainTake h hc hp => exact .drainTake (s := { s with pin := s.pin ++ bs }) h hc (congrArg (· ++ bs) hp)
  | drainDone h hc => exact .drainDone (s := { s with pin := s.pin ++ bs }) h hc
  | absorbTake h hc hp => exact .absorbTake (s := { s with pin := s.pin ++ bs }) h hc (congrArg (· ++ bs) hp)
  | absorbDone h hc => exact .absorbDone (s := { s with pin := s.pin ++ bs }) h hc
  | hdr h hr => exact .hdr (s := { s with pin := s.pin ++ bs }) h hr
  | seq h hr => exact .seq (s := { s with pin := s.pin ++ bs }) h hr
  | nseq h hr => exact .nseq (s := { s with pin := s.pin ++ bs }) h hr
  | pay h hb' hr hc => exact .pay (s := { s with pin := s.pin ++ bs }) h (hb hb') hr hc
  | payLast h hb' hr hc => exact .payLast (s := { s with pin := s.pin ++ bs }) h (hb hb') hr hc
  | trlSum h hr => exact .trlSum (s := { s with pin := s.pin ++ bs }) h hr
  | trlHigh h hr hc => exact .trlHigh (s := { s with pin := s.pin ++ bs }) h hr hc
  | trlLow h hr hc => exact .trlLow (s := { s with pin := s.pin ++ bs }) h hr hc
  | @rsp p _ h hr =>
    have ha : p.answer { s with pin := s.pin ++ bs } = p.answer s := answer_eq rfl rfl
    have := Line.rsp (p := p) (s := { s with pin := s.pin ++ bs }) h hr
    rwa [ha] at this

/-- A run does the same with more bytes behind it on PIN. -/
theorem run_append_pin {p : Plan} {n : Nat} {s t : State} (h : PlanRun p n s t) (bs : List Byte) :
    PlanRun p n { s with pin := s.pin ++ bs } { t with pin := t.pin ++ bs } := by
  induction h with
  | refl => exact .refl _
  | cons h h' _ ih => exact .cons (planTick_of_line (line_append_pin (line_of_planTick h) bs)) h' ih

/-- The state on unbounded channels, with other items on WOUT and RSP. -/
abbrev withOutputs (w : List WireByte) (r : List Response) (s : State) : State := { s.unbounded with wout := w, rsp := r }

/-- What leads from `s` to `s'` puts some items on WOUT and RSP, and on unbounded channels the same items, whatever else
these hold. -/
abbrev PutsAlike (R : State → State → Prop) (s s' : State) : Prop :=
  ∃ dw dr, s'.wout = s.wout ++ dw ∧ s'.rsp = s.rsp ++ dr ∧
    ∀ w r, R (withOutputs w r s) (withOutputs (w ++ dw) (r ++ dr) s')

/-- A line puts at the end of WOUT and RSP and looks at no item there: on unbounded channels it puts the same, whatever
they hold (20_memory.md R26, R29). -/
theorem line_outputs {p : Plan} {s s' : State} (h : Line p s s') : PutsAlike (Line p) s s' := by
  have stays : s'.wout = s.wout → s'.rsp = s.rsp → (∀ w r, Line p (withOutputs w r s) (withOutputs w r s')) →
      PutsAlike (Line p) s s' :=
    fun hw hr hl => ⟨[], [], by simp [hw], by simp [hr], fun w r => by simpa only [List.append_nil] using hl w r⟩
  have puts : ∀ x, s'.wout = s.wout ++ [x] → s'.rsp = s.rsp →
      (∀ w r, Line p (withOutputs w r s) (withOutputs (w ++ [x]) r s')) → PutsAlike (Line p) s s' :=
    fun x hw hr hl => ⟨[x], [], hw, by simp [hr], fun w r => by simpa only [List.append_nil] using hl w r⟩
  cases h with
  | refused h => exact stays rfl rfl fun w r => .refused (s := withOutputs w r s) h
  | engineStart h => exact stays rfl rfl fun w r => .engineStart (s := withOutputs w r s) h
  | readStart h => exact stays rfl rfl fun w r => .readStart (s := withOutputs w r s) h
  | frameStart h => exact stays rfl rfl fun w r => .frameStart (s := withOutputs w r s) h
  | drainTake h hc hp => exact stays rfl rfl fun w r => .drainTake (s := withOutputs w r s) h hc hp
  | drainDone h hc => exact stays rfl rfl fun w r => .drainDone (s := withOutputs w r s) h hc
  | absorbTake h hc hp => exact stays rfl rfl fun w r => .absorbTake (s := withOutputs w r s) h hc hp
  | absorbDone h hc => exact stays rfl rfl fun w r => .absorbDone (s := withOutputs w r s) h hc
  | hdr h _ => exact puts _ rfl rfl fun w r => .hdr (s := withOutputs w r s) h rfl
  | seq h _ => exact puts _ rfl rfl fun w r => .seq (s := withOutputs w r s) h rfl
  | nseq h _ => exact puts _ rfl rfl fun w r => .nseq (s := withOutputs w r s) h rfl
  | pay h hb _ hc => exact puts _ rfl rfl fun w r => .pay (s := withOutputs w r s) h hb rfl hc
  | payLast h hb _ hc => exact puts _ rfl rfl fun w r => .payLast (s := withOutputs w r s) h hb rfl hc
  | trlSum h _ => exact puts _ rfl rfl fun w r => .trlSum (s := withOutputs w r s) h rfl
  | trlHigh h _ hc => exact puts _ rfl rfl fun w r => .trlHigh (s := withOutputs w r s) h rfl hc
  | trlLow h _ hc => exact puts _ rfl rfl fun w r => .trlLow (s := withOutputs w r s) h rfl hc
  | @rsp p _ h _ =>
    refine ⟨[], [_], by simp, rfl, fun w r => ?_⟩
    have ha : p.answer (withOutputs w r s) = p.answer s := answer_eq rfl rfl
    have := Line.rsp (p := p) (s := withOutputs w r s) h rfl
    rw [ha] at this
    rw [List.append_nil]
    exact this

/-- A run puts the same on unbounded channels, whatever WOUT and RSP hold. -/
theorem run_outputs {p : Plan} {n : Nat} {s t : State} (h : PlanRun p n s t) : PutsAlike (PlanRun p n) s t := by
  induction h with
  | refl => exact ⟨[], [], by simp, by simp, fun w r => by simpa only [List.append_nil] using PlanRun.refl _⟩
  | cons h h' _ ih =>
    obtain ⟨dw, dr, hw, hr, hl⟩ := line_outputs (line_of_planTick h)
    obtain ⟨ew, er, hw', hr', hrun⟩ := ih
    refine ⟨dw ++ ew, dr ++ er, by rw [hw', hw, List.append_assoc], by rw [hr', hr, List.append_assoc], fun w r => ?_⟩
    rw [← List.append_assoc, ← List.append_assoc]
    exact .cons (planTick_of_line (hl w r)) h' (hrun _ _)

/-! ### Induction over a command -/

/-- What every line does is what a command does, from any state and wherever it stops. -/
theorem perform_induct {p : Plan} (R : State → State → Prop) (refl : ∀ s, R s s)
    (line : ∀ s s' t, planTick p s = .moves s' → R s' t → R s t) {s t : State} (h : perform p s = .next t) : R s t := by
  have key : ∀ n s, advance n p s = .next t → R s t := by
    intro n
    induction n with
    | zero => intro s h; cases h; exact refl _
    | succ n ih =>
      intro s h
      rw [advance] at h
      split at h
      · next s' hs =>
        split at h
        · cases h; exact line _ _ _ hs (refl _)
        · exact line _ _ _ hs (ih _ h)
      · cases h; exact refl _
      · cases h
  exact key _ _ h

/-- Two runs of one command whose lines go together end together. -/
theorem perform_sim {p : Plan} (R : State → State → Prop) (phase : ∀ s u, R s u → s.phase = u.phase)
    (line : ∀ s u s', R s u → planTick p s = .moves s' → ∃ u', planTick p u = .moves u' ∧ R s' u')
    (hold : ∀ s u, R s u → planTick p s = .hold → planTick p u = .hold) {s t u : State} (hR : R s u)
    (h : perform p s = .next t) : ∃ v, perform p u = .next v ∧ R t v := by
  have key : ∀ n s u, R s u → advance n p s = .next t → ∃ v, advance n p u = .next v ∧ R t v := by
    intro n
    induction n with
    | zero => intro s u hR h; cases h; exact ⟨u, rfl, hR⟩
    | succ n ih =>
      intro s u hR h
      rw [advance] at h ⊢
      split at h
      · next s' hs =>
        obtain ⟨u', hu, hR'⟩ := line _ _ _ hR hs
        simp only [hu, ← phase _ _ hR']
        split at h
        · next hi => cases h; exact ⟨u', by simp [hi], hR'⟩
        · next hi => simp only [hi, if_false]; exact ih _ _ hR' h
      · next hs => cases h; simp only [hold _ _ hR hs]; exact ⟨u, rfl, hR⟩
      · cases h
  exact key _ _ _ hR h

/-! ### From the command to the step of the block -/

/-- The command a step runs, by its plan. -/
theorem exec_eq_perform (i : Instr) (s : State) : exec i s = perform (planOfInstr i) s := by cases i <;> rfl

/-- The four kinds of plan, with the descriptor's own `len` (30_encoding.md R44). -/
theorem planOfDescriptor_cases (d : Descriptor) :
    (∃ e, planOfDescriptor d = .refuse (fieldLen d) e) ∨ (∃ acc, planOfDescriptor d = .engine (fieldLen d) acc) ∨
    (∃ acc, planOfDescriptor d = .readback acc) ∨
    (∃ size seq mode, planOfDescriptor d = .framing size seq mode (.supplied (fieldLen d))) ∨
    (∃ seq mode fsize, planOfDescriptor d = .framing .small seq mode (.metadata (fieldLen d) fsize)) ∨
    (∃ seq mode, planOfDescriptor d = .framing .small seq mode .zeros ∧ fieldLen d = 0) := by
  unfold planOfDescriptor
  cases h : decodeRow d with
  | error e => exact .inl ⟨e, rfl⟩
  | ok i =>
    unfold decodeRow at h
    split at h
    all_goals try (split at h)
    all_goals first | (cases h; done) | skip
    all_goals
      cases h
      simp only [planOfInstr, sum8Plan, crc16Plan, rdsumPlan, rdcrcPlan, fdataPlan, fmetaPlan, ftermPlan]
    all_goals (try split) <;> simp_all

/-- A refused descriptor, whatever its error, is drained of its own `len` bytes (60_exceptions.md R139). -/
theorem planOfDescriptor_of_error {d : Descriptor} {e : CmdError} (h : decode d = .error e) :
    planOfDescriptor d = .refuse (fieldLen d) e := by
  unfold decode at h
  unfold planOfDescriptor
  split at h
  · next he => cases h; simp [he]
  · next i hi =>
    split at h
    · next hl =>
      cases h
      simp only [hi]
      unfold decodeRow at hi
      split at hi
      all_goals try (split at hi)
      all_goals first | (cases hi; done) | (cases hi; simp_all [Instr.lengthError, planOfInstr, fdataPlan, fmetaPlan])
    · cases h

/-- An accepted descriptor is run by its command's plan. -/
theorem planOfDescriptor_of_ok {d : Descriptor} {i : Instr} (h : decode d = .ok i) :
    planOfDescriptor d = planOfInstr i := by
  simp [planOfDescriptor, (decode_eq_ok.mp h).1]

/-- Every descriptor is run by its plan. -/
theorem runDescriptor_eq_perform (d : Descriptor) (s : State) :
    runDescriptor d s = perform (planOfDescriptor d) s := by
  unfold runDescriptor planOfDescriptor
  split <;> simp_all [exec_eq_perform]

theorem step_of_rst {s : State} (h : s.rst = true) : step s = .next s := by simp [step, nextStep, h]

theorem step_of_idle_nil {s : State} (hi : s.phase = .idle) (hc : s.cmd = []) : step s = .next s := by
  simp [step, nextStep, hi, cmdTake, hc]

theorem step_of_idle_cons {s : State} {d : Descriptor} {ds : List Descriptor} (hr : s.rst = false)
    (hi : s.phase = .idle) (hc : s.cmd = d :: ds) :
    step s = perform (planOfDescriptor d) { s with cmd := ds, desc := d } := by
  simp [step, nextStep, hr, hi, cmdTake, hc, runDescriptor_eq_perform]

theorem step_of_busy {s : State} (hr : s.rst = false) (hi : s.phase ≠ .idle) :
    step s = perform (planOfDescriptor s.desc) s := by
  simp [step, nextStep, hr, hi, runDescriptor_eq_perform]

theorem tick_of_rst {s : State} (h : s.rst = true) : tick s = .hold := by simp [tick, h]

theorem tick_of_idle_nil {s : State} (hi : s.phase = .idle) (hc : s.cmd = []) : tick s = .hold := by
  simp [tick, hi, cmdTake, hc]

theorem tick_of_idle_cons {s : State} {d : Descriptor} {ds : List Descriptor} (hr : s.rst = false)
    (hi : s.phase = .idle) (hc : s.cmd = d :: ds) :
    tick s = planTick (planOfDescriptor d) { s with cmd := ds, desc := d } := by
  simp [tick, hr, hi, cmdTake, hc]

theorem tick_of_busy {s : State} (hr : s.rst = false) (hi : s.phase ≠ .idle) :
    tick s = planTick (planOfDescriptor s.desc) s := by
  simp [tick, hr, hi]

/-- A run inside a command is a run of the block, when the plan is that of the latched descriptor. -/
theorem ticks_of_run {p : Plan} {n : Nat} {s t : State} (h : PlanRun p n s t) (hp : p = planOfDescriptor s.desc)
    (hr : s.rst = false) (hi : s.phase ≠ .idle) : ticks n s = some t := by
  induction h with
  | refl => rfl
  | cons h h' _ ih =>
    have hk := planTick_keeps h
    rw [ticks, tick_of_busy hr hi, ← hp, h]
    exact ih (by rw [hk.1]; exact hp) (by rw [hk.2.1]; exact hr) h'

theorem ticks_add (m n : Nat) (s : State) : ticks (m + n) s = (ticks m s).bind (ticks n) := by
  induction m generalizing s with
  | zero => simp [ticks]
  | succ m ih =>
    rw [Nat.add_right_comm, ticks, ticks]
    cases h : tick s <;> simp [ih]

end Sys2Proof.Machine
end

