-- ==== Sys2Proof/Tests/Slice0.lean ====
section
/-! SUPPORT. The model's own tests.  Expected values are those of spec/95_test_vectors.md (named by their ids there) and of
the rules cited; after them one witness for the hypotheses of each statement that has any. -/

open Sys2Proof Sys2Proof.Machine

namespace Sys2Proof.Tests

/-- The reset state with one descriptor on CMD and bytes on PIN. -/
def given (d : Descriptor) (pin : List Byte) : State := { State.reset with cmd := [d], pin := pin }

/-- The state an outcome goes on in; none if the machine stopped. -/
def after : Host.Outcome State Fault Refusal → Option State
  | .next s => some s
  | _ => none

/-- What a test reads off a state. -/
structure Seen where
  crc : Half
  sum : Byte
  phase : Phase
  rsp : List Response
  pin : List Byte
  wout : List WireByte
  deriving DecidableEq, Repr

/-- See `Seen`. -/
def Seen.of (s : State) : Seen := ⟨s.crc, s.sum, s.phase, s.rsp, s.pin, s.wout⟩

/-- What a test reads off a step. -/
def seen (o : Host.Outcome State Fault Refusal) : Option Seen := (after o).map Seen.of

/-- Wire bytes that are not the last of a frame, and one that is. -/
def wire (bs : List Byte) (last : Byte) : List WireByte := bs.map (⟨·, false⟩) ++ [⟨last, true⟩]

/-- ASCII "123456789". -/
def nineDigits : List Byte := [0x31, 0x32, 0x33, 0x34, 0x35, 0x36, 0x37, 0x38, 0x39]

/-- ASCII "hello". -/
def hello : List Byte := [0x68, 0x65, 0x6C, 0x6C, 0x6F]

/-- ASCII "a.txt". -/
def aTxt : List Byte := [0x61, 0x2E, 0x74, 0x78, 0x74]

/-! ### Well-formedness: each length test refuses what it should, and no more (V-DEC-19 to V-DEC-34) -/

theorem test_wf_fdata_small : (Instr.fdata .arithmetic8 .small 1 128).WellFormed ∧
    ¬ (Instr.fdata .arithmetic8 .small 1 129).WellFormed := by decide

theorem test_wf_fdata_large : (Instr.fdata .arithmetic8 .large 0 1024).WellFormed ∧
    ¬ (Instr.fdata .arithmetic8 .large 0 1025).WellFormed := by decide

theorem test_wf_fmeta_one_digit : (Instr.fmeta .arithmetic8 126 5).WellFormed ∧
    ¬ (Instr.fmeta .arithmetic8 127 5).WellFormed := by decide

theorem test_wf_fmeta_ten_digits : (Instr.fmeta .arithmetic8 117 4294967295).WellFormed ∧
    ¬ (Instr.fmeta .arithmetic8 118 1000000000).WellFormed := by decide

/-! ### Decoding: words written field by field as R40 lays them out: op, rsv, size, mode, seq, len, fsize -/

theorem test_decode_sum8 :
    decode 0b0001_00_0_0_00000000_0000000000001001_00000000000000000000000000000000 = .ok (.sum8 9) := by decide

theorem test_decode_crc16 :
    decode 0b0010_00_0_0_00000000_0000000000001001_00000000000000000000000000000000 = .ok (.crc16 9) := by decide

theorem test_decode_rdsum :
    decode 0b0011_00_0_0_00000000_0000000000000000_00000000000000000000000000000000 = .ok .rdsum := by decide

theorem test_decode_rdcrc :
    decode 0b0100_00_0_0_00000000_0000000000000000_00000000000000000000000000000000 = .ok .rdcrc := by decide

theorem test_decode_fdata :
    decode 0b1000_00_1_0_11111111_0000000100101100_00000000000000000000000000000000 =
      .ok (.fdata .arithmetic8 .large 255 300) := by decide

theorem test_decode_fmeta :
    decode 0b1001_00_0_1_00000000_0000000000000101_00000000000000000000000000000101 = .ok (.fmeta .crc16 5 5) := by
  decide

theorem test_decode_fterm :
    decode 0b1010_00_0_1_00000000_0000000000000000_00000000000000000000000000000000 = .ok (.fterm .crc16) := by decide

/-- V-DEC-1, 3 to 12, 14 to 18: reserved opcodes and non-zero must-be-zero fields. -/
theorem test_decode_illegal : ([0x0000000000000000, 0x5000000000000000, 0x6000000000000000, 0x7000000000000000,
    0xB000000000000000, 0xC000000000000000, 0xD000000000000000, 0xE000000000000000, 0xFFFFFFFFFFFFFFFF,
    0x8400000000000000, 0x8800000000000000, 0x9200000000000000, 0x9001000000000000, 0xA000000100000000,
    0xA000000000000001, 0xA200000000000000] : List Descriptor).all (decode · == .error .illegalCommand) = true := by
  decide +kernel

/-- V-CRCC-5 to 7 and V-SUMC-6, 7. -/
theorem test_decode_illegal_engine : ([0x4000000100000000, 0x2001000000000000, 0x2000000200000001, 0x1100000000000000,
    0x3000000000000001] : List Descriptor).all (decode · == .error .illegalCommand) = true := by decide +kernel

/-- V-DEC-13, 20, 21, 23, 24: `IllegalCommand` outranks `PayloadTooLong`. -/
theorem test_decode_payload_length : decode 0x800100C800000001 = .error .illegalCommand ∧
    decode 0x8001008100000000 = .error .payloadTooLong ∧ decode 0x8107008100000000 = .error .payloadTooLong ∧
    decode 0x8200040100000000 = .error .payloadTooLong ∧ decode 0x8000FFFF00000000 = .error .payloadTooLong := by
  decide

/-- V-DEC-26, 28, 30, 32, 34, 35. -/
theorem test_decode_name_length : ([0x9000007F00000005, 0x9000007F00000000, 0x9000007E0000000A, 0x900000763B9ACA00,
    0x90000076FFFFFFFF, 0x9000FFFF00000000] : List Descriptor).all (decode · == .error .nameTooLong) = true := by
  decide +kernel

/-- V-DEC-29, 31, 33: the last name that fits. -/
theorem test_decode_name_boundary : decode 0x9000007D0000000A = .ok (.fmeta .arithmetic8 125 10) ∧
    decode 0x900000763B9AC9FF = .ok (.fmeta .arithmetic8 118 999999999) ∧
    decode 0x90000075FFFFFFFF = .ok (.fmeta .arithmetic8 117 4294967295) := by decide

theorem test_decodeTableWord : decodeTableWord 64 0x8302040000000000 = some (.fdata .crc16 .large 2 1024) ∧
    decodeTableWord 64 0x5000000000000000 = none := by decide

theorem test_encode_fdata : encode (.fdata .crc16 .large 2 1024) = 0x8302040000000000 := by decide

/-! ### Checksums and the parts of a packet -/

/-- V-CRCI-1 to 7. -/
theorem test_crcShift : ([0x0000, 0x0001, 0x4000, 0x8000, 0x7FFF, 0xFFFF, 0x8810] : List Half).map crcShift =
    [0x0000, 0x0002, 0x8000, 0x1021, 0xFFFE, 0xEFDF, 0x0001] := by decide

/-- V-CRCS-14 to 17. -/
theorem test_crcStep : crcStep 0x1021 0x02 = 0x1373 ∧ crcStep 0x31C3 0x31 = 0xC300 ∧ crcStep 0xC300 0xC3 = 0x0000 ∧
    crcStep 0x31C3 0xC3 = 0x0C5D := by decide

/-- V-CRC-9, 11, 13, 14, V-CRCL-2. -/
theorem test_crc16 : crc16 nineDigits = 0x31C3 ∧ crc16 [0xFF, 0xFF] = 0x1D0F ∧ crc16 [0x80, 0x00] = 0x1B98 ∧
    crc16 [0xAA, 0x55] = 0xF8E5 ∧ crc16 (nineDigits ++ [0x00]) = 0xE572 := by decide +kernel

/-- V-SUM-1, 5, 12, 13 and two of the `sum_step` values. -/
theorem test_sum8 : sum8 [] = 0x00 ∧ sum8 [0xFF, 0xFF] = 0xFE ∧ sum8 nineDigits = 0xDD ∧ sum8 hello = 0x14 ∧
    sumStep 0xFF 0x01 = 0x00 ∧ sumStep 0x7F 0x01 = 0x80 := by decide

/-- The `dec` values listed after V-FRM-17. -/
theorem test_dec : dec 0 = [0x30] ∧ dec 10 = [0x31, 0x30] ∧ dec 1000 = [0x31, 0x30, 0x30, 0x30] ∧
    dec 999999999 = List.replicate 9 0x39 ∧ dec 1000000000 = 0x31 :: List.replicate 9 0x30 := by decide

/-- 41_sum8.md R79, V-SUM-13: the trailer of this hardware and of the other build. -/
theorem test_trailer : trailer false .arithmetic8 hello = [0x14] ∧ trailer true .arithmetic8 hello = [0xEB] ∧
    trailer false .crc16 hello = [0xC3, 0x62] := by decide +kernel

/-! ### One step of each command -/

/-- V-SUMC-1. -/
theorem test_step_sum8 : seen (step (given 0x1000000900000000 nineDigits)) =
    some ⟨0x31C3, 0xDD, .idle, [0x000000DD], [], []⟩ := by decide +kernel

/-- V-SUMC-3: a length of 0 still clears. -/
theorem test_step_sum8_empty :
    seen (step { given 0x1000000000000000 [0x55] with crc := 0x1D0F, sum := 0xFE }) =
      some ⟨0x0000, 0x00, .idle, [0x00000000], [0x55], []⟩ := by decide

/-- V-CRCC-1. -/
theorem test_step_crc16 : seen (step (given 0x2000000900000000 nineDigits)) =
    some ⟨0x31C3, 0xDD, .idle, [0x000031C3], [], []⟩ := by decide +kernel

/-- P3 commands 4 and 6. -/
theorem test_step_readback :
    seen (step { given 0x3000000000000000 [0x55] with crc := 0x31C3, sum := 0xDD }) =
      some ⟨0x31C3, 0xDD, .idle, [0x000000DD], [0x55], []⟩ ∧
    seen (step { given 0x4000000000000000 [0x55] with crc := 0x31C3, sum := 0xDD }) =
      some ⟨0x31C3, 0xDD, .idle, [0x000031C3], [0x55], []⟩ := by decide

set_option maxRecDepth 100000 in
/-- V-FRM-1. -/
theorem test_step_fdata_arithmetic8 : seen (step (given 0x8001000500000000 hello)) =
    some ⟨0xA546, 0x14, .idle, [0x00000000], [], wire ([0x01, 0x01, 0xFE] ++ hello ++ zeros 123) 0x14⟩ := by
  decide +kernel

set_option maxRecDepth 100000 in
/-- V-FRM-8, with a byte of the next command left on PIN. -/
theorem test_step_fdata_crc16 : seen (step (given 0x8180000100000000 [0xFF, 0x77])) =
    some ⟨0x93C5, 0xFF, .idle, [0x00000000], [0x77],
      wire ([0x01, 0x80, 0x7F, 0xFF] ++ zeros 127 ++ [0x93]) 0xC5⟩ := by decide +kernel

set_option maxRecDepth 100000 in
/-- V-FRM-15. -/
theorem test_step_fmeta_crc16 :
    seen (step (given 0x9100000A000003E8 [0x72, 0x65, 0x61, 0x64, 0x6D, 0x65, 0x2E, 0x74, 0x78, 0x74])) =
      some ⟨0x8828, 0xBD, .idle, [0x00000000], [],
        wire ([0x01, 0x00, 0xFF, 0x72, 0x65, 0x61, 0x64, 0x6D, 0x65, 0x2E, 0x74, 0x78, 0x74, 0x00, 0x31, 0x30, 0x30,
          0x30] ++ zeros 113 ++ [0x88]) 0x28⟩ := by decide +kernel

set_option maxRecDepth 100000 in
/-- V-FRM-11. -/
theorem test_step_fmeta_arithmetic8 : seen (step (given 0x9000000500000005 aTxt)) =
    some ⟨0xFB2E, 0x24, .idle, [0x00000000], [],
      wire ([0x01, 0x00, 0xFF] ++ aTxt ++ [0x00, 0x35] ++ zeros 121) 0x24⟩ := by decide +kernel

set_option maxRecDepth 100000 in
/-- V-FRM-16. -/
theorem test_step_fterm_crc16 : seen (step { given 0xA100000000000000 [] with crc := 0x31C3, sum := 0xDD }) =
    some ⟨0x0000, 0x00, .idle, [0x00000000], [], wire ([0x01, 0x00, 0xFF] ++ zeros 128 ++ [0x00]) 0x00⟩ := by
  decide +kernel

set_option maxRecDepth 100000 in
/-- V-FRM-17, and its trailer in the other build. -/
theorem test_step_fterm_arithmetic8 :
    ((after (step (given 0xA000000000000000 []))).map fun s => (s.wout.length, s.wout.getLast?)) =
      some (132, some ⟨0x00, true⟩) ∧
    ((after (step { given 0xA000000000000000 [] with
        platform := { Platform.thisHardware with sum8Complement := true } })).map fun s => s.wout.getLast?) =
      some (some ⟨0xFF, true⟩) := by decide +kernel

/-! ### Refusals, holds and reset -/

/-- V-STEP-2 and P3 command 5: the bytes of a refused descriptor are taken, the registers kept. -/
theorem test_refuse_illegal :
    seen (step { given 0x0000000200000000 [0xAA, 0xBB, 0xCC] with crc := 0x31C3, sum := 0xDD }) =
      some ⟨0x31C3, 0xDD, .idle, [0x01000000], [0xCC], []⟩ := by decide

set_option maxRecDepth 100000 in
/-- V-DEC-20 and V-DEC-26. -/
theorem test_refuse_lengths :
    seen (step (given 0x8001008100000000 (zeros 129))) = some ⟨0x0000, 0x00, .idle, [0x02000000], [], []⟩ ∧
    seen (step (given 0x9000007F00000005 (zeros 127))) = some ⟨0x0000, 0x00, .idle, [0x03000000], [], []⟩ := by
  decide +kernel

/-- V-STEP-1: the phases and registers between the five steps. -/
theorem test_ticks_sum8 :
    ([1, 2, 3, 4, 5].map fun n => (ticks n (given 0x1000000200000000 [0x01, 0x02])).map Seen.of) =
      [some ⟨0x0000, 0x00, .absorb, [], [0x01, 0x02], []⟩, some ⟨0x1021, 0x01, .absorb, [], [0x02], []⟩,
       some ⟨0x1373, 0x03, .absorb, [], [], []⟩, some ⟨0x1373, 0x03, .rsp, [], [], []⟩,
       some ⟨0x1373, 0x03, .idle, [0x00000003], [], []⟩] ∧
    ([1, 2, 3, 4].map fun n => (ticks n (given 0x1000000200000000 [0x01, 0x02])).map State.cnt) =
      [some 0, some 1, some 2, some 2] := by decide

/-- The state of V-STEP-5, where `CRC16 len=3` has been given two bytes. -/
def dry : State := { State.reset with
  crc := 0x20B5, sum := 0x63, desc := 0x2000000300000000, phase := .absorb, cnt := 2 }

/-- V-STEP-5: the step ends in the hold, and the hold keeps all state. -/
theorem test_hold : after (step (given 0x2000000300000000 [0x31, 0x32])) = some dry ∧ after (step dry) = some dry ∧
    tick dry = .hold := by decide +kernel

/-- V-STEP-5: the byte that arrives late. -/
theorem test_hold_lifted : seen (step { dry with pin := [0x33] }) =
    some ⟨0x9752, 0x96, .idle, [0x00009752], [], []⟩ := by decide

/-- V-RST-3: eight bytes of a frame are out when `RST` is asserted. -/
theorem test_reset_inside_a_frame :
    (((ticks 9 (given 0x8101000500000000 hello)).bind (act .assertRst)).bind (act .releaseRst)).map
        Seen.of =
      some ⟨0x0000, 0x00, .idle, [], [], ([0x01, 0x01, 0xFE] ++ hello).map (⟨·, false⟩)⟩ := by decide

/-- The word the host places is the one the next step runs. -/
theorem test_withFetchWord :
    seen (step ({ State.reset with crc := 0x1234, rst := true }.withFetchWord 64 0x4000000000000000)) =
      some ⟨0x1234, 0x00, .idle, [0x00001234], [], []⟩ := by decide

/-! ### The host session -/

/-- Bounds for the tests; the spec leaves them open. -/
def bounds : HostParams :=
  { syncAttempts := 3, waitAckAttempts := 2, maxRetry := 1, eotAttempts := 2, onCReply := .asNak,
    metaReplyIsOneRead := true }

/-- A read of one byte. -/
def got (b : Byte) : HostEvent := .read (.byte b)

/-- The response of a command that was done, and of one that was refused with `IllegalCommand`. -/
def doneRsp : HostEvent := .response 0x00000000

/-- See `doneRsp`. -/
def refusedRsp : HostEvent := .response 0x01000000

/-- P2a: the three commands of the batch, EOT between the second and the third. -/
theorem test_session_ymodem :
    let s := runSession bounds (startSession .ymodem aTxt hello)
      [got 0x43, doneRsp, got 0x06, doneRsp, got 0x06, got 0x06, got 0x43, doneRsp, got 0x06]
    s.stage = .done ∧ s.outputs = [.command (.fmeta .crc16 5 5) aTxt, .command (.fdata .crc16 .small 1 5) hello,
      .raw 0x04, .command (.fterm .crc16) []] := by decide

/-- S5: with a bound of one retry the block goes out twice, the same each time, and the session then gives up, its
retry count above the bound (43_host_session.md R112). -/
theorem test_session_retry :
    let s := runSession bounds (startSession .xmodem [] hello) [got 0x15, doneRsp, got 0x15, doneRsp, got 0x15]
    s.stage = .aborted .retryExhausted ∧ s.retryCount = 2 ∧ s.outputs = [.command (.fdata .arithmetic8 .small 1 5) hello,
      .command (.fdata .arithmetic8 .small 1 5) hello] := by decide

/-- 43_host_session.md R110 step 5: the ACK to the last block, after one retry of it, resets the retry count. -/
theorem test_session_ack_resets_retries :
    let s := runSession bounds (startSession .xmodem [] hello) [got 0x15, doneRsp, got 0x15, doneRsp, got 0x06]
    s.retryCount = 0 ∧ s.blockNumber = 2 ∧ s.filePosition = 5 ∧ s.outputs.getLast? = some (.raw 0x04) := by decide

/-- 43_host_session.md R110: a status that is not 0x00 ends the session, and the ACK behind it is not read. -/
theorem test_session_requires_done :
    let s := runSession bounds (startSession .xmodem [] hello) [got 0x43, refusedRsp, got 0x06]
    s.stage = .aborted .refusedByBlock ∧ s.outputs = [.command (.fdata .crc16 .small 1 5) hello] := by decide

/-! ### Witnesses: states and operands that meet each statement's hypotheses, at the ends of their ranges -/

/-- An outcome that goes on in `t`. -/
theorem next_of_after {o : Host.Outcome State Fault Refusal} {t : State} (h : after o = some t) : o = .next t := by
  cases o <;> simp_all [after]

/-- An outcome that goes on in IDLE. -/
theorem next_of_idle {o : Host.Outcome State Fault Refusal} (h : (after o).map State.phase = some .idle) :
    ∃ t, o = .next t ∧ t.phase = .idle := by
  cases o <;> simp_all [after]

/-- `n` bytes on PIN supply any command of at most `n` bytes. -/
theorem supplied_of_pin {len : Half} {s : State} (n : Nat) (b : Byte) (h : s.pin = List.replicate n b)
    (hn : len.toNat ≤ n) : Supplied len s := by
  rw [Supplied, h, List.length_replicate]; exact hn

/-- A platform whose WOUT and RSP hold exactly `w` and `r` items. -/
def bounded (w r : Nat) : Platform := { Platform.thisHardware with woutCap := some w, rspCap := some r }

/-- Inside `FTERM mode=A8`, before the trailer. -/
def atTrailer : State := { State.reset with desc := 0xA000000000000000, phase := .trl }

/-- From IDLE into a phase that reads `CNT`; and in HDR, which does not read it, to the response. -/
theorem witness_IdleCntAndDescAreUnobservable :
    (∃ s t : State, s.phase = .idle ∧ step s = .next t ∧ s.rst = false ∧ s.cmd ≠ [] ∧ readsCnt t.phase = true) ∧
    (∃ s t : State, readsCnt s.phase = false ∧ s.phase ≠ .idle ∧ step s = .next t ∧ t.phase = .hdr) :=
  ⟨⟨given 0x2000000300000000 [0x31, 0x32], dry, rfl, next_of_after (by decide +kernel), rfl, by decide, rfl⟩,
    ⟨{ atTrailer with phase := .hdr, platform := bounded 0 1 }, _, rfl, by decide, rfl, rfl⟩⟩

theorem witness_DecodeOfEncodeIsTheCommand : ∃ i : Instr, i.WellFormed :=
  ⟨.fdata .crc16 .large 255 1024, by decide⟩

theorem witness_EveryAcceptedDescriptorIsTheEncodingOfItsCommand : ∃ d i, decode d = .ok i :=
  ⟨0x90000075FFFFFFFF, _, rfl⟩

/-- V-CRCL-4. -/
theorem witness_CrcIsLinearOverXor : ∃ xs ys : List Byte, xs.length = ys.length ∧ xs.zipWith (· ^^^ ·) ys = [0xB9, 0xF9] ∧
    crc16 [0xB9, 0xF9] = 0xDAA3 := ⟨[0x12, 0x34], [0xAB, 0xCD], rfl, by decide, by decide +kernel⟩

theorem witness_Sum8Laws : ([0x01, 0x02] : List Byte).Perm [0x02, 0x01] ∧
    (List.replicate 1024 (0xFF : Byte)).length = 1024 := ⟨.swap _ _ _, List.length_replicate⟩

theorem witness_DecIsTheDecimalNumeral : 10 ≤ (10 : BitVec 32).toNat ∧ 1 ≤ (9 : BitVec 32).toNat ∧
    (9 : BitVec 32).toNat ≤ 9 ∧ 10 ^ 9 ≤ (4294967295 : BitVec 32).toNat ∧ (4294967295 : BitVec 32).toNat < 10 ^ 10 ∧
    10 ^ 0 ≤ (1 : BitVec 32).toNat ∧ (1 : BitVec 32).toNat < 10 ^ 1 := by decide

theorem witness_DecDigitsEvaluateToTheFileSize : (0x30 : Byte) ∈ dec 10 ∧ (dec 0).head? = some 0x30 := by decide

/-- V-FRM-13, where nothing follows the digit, and V-FRM-12, where 126 zeros do. -/
theorem witness_MetadataPayloadLayout : (List.replicate 126 (0x61 : Byte)).length + 1 + (dec 5).length ≤ 128 ∧
    ([] : List Byte).length + 1 + (dec 0).length ≤ 127 := ⟨by rw [List.length_replicate]; decide, by decide⟩

theorem witness_FrameShape : (zeros 128).length = blocksize .small ∧ (zeros 1024).length = blocksize .large :=
  ⟨List.length_replicate, List.length_replicate⟩

/-- The shortest and the longest list, with room for the one response. -/
theorem witness_Sum8AnswersTheSumOfItsBytes : ∃ s : State, s.phase = .idle ∧ Supplied 0 s ∧ Supplied 65535 s ∧
    RspAccepts s :=
  ⟨{ given 0 (List.replicate 65535 0xFF) with platform := bounded 0 1 }, rfl, supplied_of_pin 65535 0xFF rfl (by decide),
    supplied_of_pin 65535 0xFF rfl (by decide), (by decide : 0 + 1 ≤ 1)⟩

theorem witness_Crc16AnswersTheCrcOfItsBytes : ∃ s : State, s.phase = .idle ∧ Supplied 0 s ∧ Supplied 65535 s ∧
    RspAccepts s := witness_Sum8AnswersTheSumOfItsBytes

theorem witness_ReadbackAnswersTheAccumulator : ∃ s : State, s.phase = .idle ∧ RspAccepts s :=
  let ⟨s, hi, _, _, hr⟩ := witness_Sum8AnswersTheSumOfItsBytes; ⟨s, hi, hr⟩

/-- A full large block with exactly the room its frame needs, and an empty small one. -/
theorem witness_FdataPutsTheFrameOfItsPaddedBytes : ∃ s : State, (1024 : Half).toNat ≤ blocksize .large ∧
    (0 : Half).toNat ≤ blocksize .small ∧ s.phase = .idle ∧ Supplied 1024 s ∧ Supplied 0 s ∧ RspAccepts s ∧
    WoutAccepts (3 + blocksize .large + trailerLength .crc16) s :=
  ⟨{ given 0 (zeros 1024) with platform := bounded 1029 1 }, by decide, by decide, rfl, supplied_of_pin 1024 0 rfl (by decide),
    supplied_of_pin 1024 0 rfl (by decide), (by decide : 0 + 1 ≤ 1), (by decide : 0 + 1029 ≤ 1029)⟩

/-- The longest name beside the longest size. -/
theorem witness_FmetaPutsTheMetadataBlock : ∃ s : State,
    (117 : Half).toNat + (dec 4294967295).length ≤ 127 ∧ s.phase = .idle ∧ Supplied 117 s ∧ RspAccepts s ∧
    WoutAccepts (3 + 128 + trailerLength .crc16) s :=
  ⟨{ given 0 (zeros 117) with platform := bounded 133 1 }, by decide, rfl, supplied_of_pin 117 0 rfl (by decide),
    (by decide : 0 + 1 ≤ 1), (by decide : 0 + 133 ≤ 133)⟩

theorem witness_FtermPutsTheTerminatorBlock : ∃ s : State, s.phase = .idle ∧ RspAccepts s ∧
    WoutAccepts (3 + 128 + trailerLength .crc16) s :=
  let ⟨s, _, hi, _, hr, hw⟩ := witness_FmetaPutsTheMetadataBlock; ⟨s, hi, hr, hw⟩

theorem witness_OverlongFdataIsRefused : ∃ s : State, (129 : Half).toNat > blocksize .small ∧
    (1025 : Half).toNat > blocksize .large ∧ s.phase = .idle ∧ Supplied 129 s ∧ Supplied 1025 s ∧ RspAccepts s :=
  ⟨given 0 (zeros 1025), by decide, by decide, rfl, supplied_of_pin 1025 0 rfl (by decide),
    supplied_of_pin 1025 0 rfl (by decide), trivial⟩

theorem witness_OverlongFmetaIsRefused : ∃ s : State, (127 : Half).toNat + (dec 5).length > 127 ∧ s.phase = .idle ∧
    Supplied 127 s ∧ RspAccepts s :=
  ⟨given 0 (zeros 127), by decide, rfl, supplied_of_pin 127 0 rfl (by decide), trivial⟩

/-- One descriptor of each error, the first also one byte short. -/
theorem witness_RefusedDescriptorIsDrainedAndAnswered :
    ((given 0x0000000300000000 (zeros 2)).pin.length < (fieldLen 0x0000000300000000).toNat) ∧
    (∃ s : State, s.cmd = [0x0000000300000000] ∧ decode 0x0000000300000000 = .error .illegalCommand ∧ s.rst = false ∧
      s.phase = .idle ∧ Supplied (fieldLen 0x0000000300000000) s ∧ RspAccepts s) ∧
    (∃ s : State, s.cmd = [0x8001008100000000] ∧ decode 0x8001008100000000 = .error .payloadTooLong ∧ s.rst = false ∧
      s.phase = .idle ∧ Supplied (fieldLen 0x8001008100000000) s ∧ RspAccepts s) ∧
    (∃ s : State, s.cmd = [0x9000007F00000005] ∧ decode 0x9000007F00000005 = .error .nameTooLong ∧ s.rst = false ∧
      s.phase = .idle ∧ Supplied (fieldLen 0x9000007F00000005) s ∧ RspAccepts s) :=
  ⟨by decide, ⟨given _ (zeros 3), rfl, rfl, rfl, rfl, supplied_of_pin 3 0 rfl (by decide), trivial⟩,
    ⟨given _ (zeros 129), rfl, rfl, rfl, rfl, supplied_of_pin 129 0 rfl (by decide), trivial⟩,
    ⟨given _ (zeros 127), rfl, rfl, rfl, rfl, supplied_of_pin 127 0 rfl (by decide), trivial⟩⟩

/-- An accepted and a refused descriptor with all they need. -/
theorem witness_EveryDescriptorTakesItsLenBytesAndAnswersOnce :
    (∃ s : State, s.cmd = [0x8302040000000000] ∧ Unhindered 0x8302040000000000 s) ∧
    (∃ s : State, s.cmd = [0x5000000100000000] ∧ Unhindered 0x5000000100000000 s) :=
  ⟨⟨given _ (zeros 1024), rfl, rfl, rfl, supplied_of_pin 1024 0 rfl (by decide), trivial, fun _ _ => trivial⟩,
    ⟨given _ (zeros 1), rfl, rfl, rfl, supplied_of_pin 1 0 rfl (by decide), trivial, fun _ _ => trivial⟩⟩

/-- One command of each clause, the frame commands up to a hold. -/
theorem witness_CommandFrame :
    (∃ s t : State, exec .rdsum s = .next t) ∧ (∃ s t : State, exec (.sum8 0) s = .next t) ∧
    (∃ s t : State, exec (.fterm .crc16) s = .next t) ∧
    (∃ s t : State, (Instr.fdata .crc16 .small 7 129).lengthError ≠ none ∧ exec (.fdata .crc16 .small 7 129) s = .next t) :=
  ⟨⟨State.reset, _, rfl⟩, ⟨State.reset, _, rfl⟩, ⟨{ State.reset with platform := bounded 1 1 }, _, rfl⟩,
    ⟨State.reset, _, by decide, rfl⟩⟩

/-- A terminator block completes from reset. -/
theorem fterm_completes : (after (exec (.fterm .arithmetic8) State.reset)).map State.phase = some .idle := by
  decide +kernel

/-- A terminator block completes after another command. -/
theorem fterm_completes_after : (after (exec (.fterm .arithmetic8) { State.reset with crc := 0x31C3 })).map State.phase =
    some .idle := by decide +kernel

/-- A terminator block after two different histories. -/
theorem witness_FramesDependOnOperandsAndPinBytesAlone : ∃ (i : Instr) (s t s' t' : State), i.WellFormed ∧
    i = .fterm .arithmetic8 ∧ s.phase = .idle ∧ t.phase = .idle ∧ s.platform.sum8Complement = t.platform.sum8Complement ∧
    s.pin = t.pin ∧ s.crc ≠ t.crc ∧ exec i s = .next s' ∧ exec i t = .next t' ∧ s'.phase = .idle ∧ t'.phase = .idle :=
  (next_of_idle fterm_completes).elim fun s' hs => (next_of_idle fterm_completes_after).elim fun t' ht =>
    ⟨.fterm .arithmetic8, State.reset, { State.reset with crc := 0x31C3 }, s', t', rfl, rfl, rfl, rfl, rfl, rfl,
      by decide, hs.1, ht.1, hs.2, ht.2⟩

/-- The trailer byte of `FTERM mode=A8`, 0x00 on this hardware and 0xFF in the other build (V-FRM-17), and the CRC16 trailer
of the same block, 0x00 0x00 in both (V-FRM-16). -/
theorem witness_ComplementParameterChangesOnlyTheTrailerByte :
    let crcTrailer : State := { atTrailer with desc := 0xA100000000000000 }
    let other (s : State) : State := { s with platform := { s.platform with sum8Complement := true } }
    (currentCommand atTrailer).bind modeOf = some .arithmetic8 ∧
    (after (step atTrailer)).map State.wout = some [⟨0x00, true⟩] ∧
    (after (step (other atTrailer))).map State.wout = some [⟨0xFF, true⟩] ∧
    (currentCommand crcTrailer).bind modeOf = some .crc16 ∧
    (after (step crcTrailer)).map State.wout = some [⟨0x00, false⟩, ⟨0x00, true⟩] ∧
    (after (step (other crcTrailer))).map State.wout = some [⟨0x00, false⟩, ⟨0x00, true⟩] := by decide

theorem witness_StepRunsTheDecodedCommand : ∃ (s : State) (d : Descriptor) (i : Instr),
    s.rst = false ∧ s.phase = .idle ∧ s.cmd = [d] ∧ decode d = .ok i :=
  ⟨given 0xA100000000000000 [], _, _, rfl, rfl, rfl, rfl⟩

/-- A refused descriptor of three bytes, one of which has been drained. -/
def draining : State := { State.reset with desc := 0x0000000300000000, phase := .drain, cnt := 1 }

/-- A command in ABSORB; a refused descriptor in DRAIN with the missing bytes, with one too few, and in RSP. -/
theorem witness_StepResumesTheCommandInDesc :
    (dry.rst = false ∧ dry.phase ≠ .idle ∧ decode dry.desc = .ok (.crc16 3)) ∧
    (draining.rst = false ∧ draining.phase ≠ .idle ∧ decode draining.desc = .error .illegalCommand ∧
      draining.cnt ≤ fieldLen draining.desc ∧ (fieldLen draining.desc).toNat - draining.cnt.toNat = 2 ∧
      seen (step { draining with pin := [0xAA, 0xBB, 0xCC] }) =
        some ⟨0x0000, 0x00, .idle, [0x01000000], [0xCC], []⟩ ∧
      seen (step { draining with pin := [0xAA] }) = some ⟨0x0000, 0x00, .drain, [], [], []⟩ ∧
      seen (step { draining with phase := .rsp }) = some ⟨0x0000, 0x00, .idle, [0x01000000], [], []⟩) := by decide

theorem draining_accepts : RspAccepts draining := trivial

theorem witness_CommandInProgressIgnoresCmd : dry.phase ≠ .idle ∧ step dry = .next dry := ⟨by decide, rfl⟩

/-- A state that holds in each place R163 names, and one that does not hold. -/
theorem witness_HoldsExactlyWhereTheSpecSays :
    (Coherent dry ∧ Holds dry) ∧ (Coherent State.reset ∧ Holds State.reset) ∧ (Coherent atTrailer ∧ ¬ Holds atTrailer) ∧
    (Coherent { atTrailer with platform := bounded 0 1 } ∧ Holds { atTrailer with platform := bounded 0 1 }) ∧
    (Coherent { atTrailer with phase := .rsp, platform := bounded 1 0 } ∧
      Holds { atTrailer with phase := .rsp, platform := bounded 1 0 }) := by decide

theorem witness_StepEndsIdleOrHolding : ∃ s t : State, Coherent s ∧ step s = .next t ∧ t.phase ≠ .idle :=
  ⟨given 0x2000000300000000 [0x31, 0x32], dry, by decide, next_of_after (by decide +kernel), by decide⟩

theorem witness_LateBytesGiveTheSameResult : ∃ s u : State, Coherent s ∧ step s = .next u ∧ u.phase ≠ .idle :=
  witness_StepEndsIdleOrHolding

theorem witness_StepIsARunOfByteSteps : ∃ s t : State, Coherent s ∧ step s = .next t ∧ s ≠ t :=
  ⟨given 0x2000000300000000 [0x31, 0x32], dry, by decide, next_of_after (by decide +kernel), by decide⟩

/-- V-STEP-1: five steps, four of them inside the command. -/
theorem witness_CommandTakesItsCountOfByteSteps : ∃ (s u : State), s.cmd = [0x1000000200000000] ∧
    Unhindered 0x1000000200000000 s ∧ stepCount 0x1000000200000000 = 5 ∧ ticks 4 s = some u :=
  ⟨given _ [0x01, 0x02], _, rfl, ⟨rfl, rfl, by decide, trivial, fun _ _ => trivial⟩, by decide, rfl⟩

/-- A step inside a command, the step that starts one, and an action of the host. -/
theorem witness_EveryByteStepBringsTheResponseNearer :
    (Coherent { dry with pin := [0x33] } ∧ ∃ t, tick { dry with pin := [0x33] } = .moves t) ∧
    (Coherent (given 0x2000000300000000 []) ∧ ∃ t, tick (given 0x2000000300000000 []) = .moves t) ∧
    (∃ t, act (.putPin 0x33) dry = some t) :=
  ⟨⟨by decide, _, rfl⟩, ⟨by decide, _, rfl⟩, _, rfl⟩

/-- The first and the last payload byte of a block that PIN fills only in part. -/
theorem witness_PinBytesTakenWhenPayloadByteAppears : ∃ s : State, s.cmd = [0x8101000500000000] ∧
    decode 0x8101000500000000 = .ok (.fdata .crc16 .small 1 5) ∧ Unhindered 0x8101000500000000 s ∧
    0 < blocksize .small ∧ 127 < blocksize .small :=
  ⟨given _ hello, rfl, rfl, ⟨rfl, rfl, by decide, trivial, fun _ _ => trivial⟩, by decide, by decide⟩

theorem witness_AccumulatorsChangeOnlyByClearAndAbsorb : (∃ t, tick { dry with pin := [0x33] } = .moves t) ∧
    (∃ t, tick (given 0x2000000300000000 []) = .moves t) ∧ (∃ t, tick atTrailer = .moves t) :=
  ⟨⟨_, rfl⟩, ⟨_, rfl⟩, ⟨_, rfl⟩⟩

theorem witness_ResponseComesAfterEveryOtherEffect : ∃ t, tick { dry with phase := .rsp } = .moves t ∧ t.rsp ≠ dry.rsp :=
  ⟨_, rfl, by decide⟩

/-- Each of the three steps of an `FDATA` with a large block, and of an `FTERM`. -/
theorem witness_HeaderStepsFollowTheDescriptor :
    [(0x8302040000000000, Phase.hdr), (0x8302040000000000, .seq), (0x8302040000000000, .nseq),
      (0xA000000000000000, .hdr), (0xA000000000000000, .seq), (0xA000000000000000, .nseq)].map
      (fun (d, ph) => match tick { State.reset with desc := d, phase := ph } with
        | .moves t => t.wout.map WireByte.byte
        | _ => []) = [[0x02], [0x02], [0xFD], [0x01], [0x00], [0xFF]] ∧
    decode 0x8302040000000000 = .ok (.fdata .crc16 .large 2 1024) ∧
    decode 0xA000000000000000 = .ok (.fterm .arithmetic8) := by decide

theorem witness_ChannelsAreFirstInFirstOut : (∃ t, act (.putCmd 1) State.reset = some t) ∧
    (∃ t, act (.putPin 1) State.reset = some t) ∧
    (∃ t, act .takeWout { State.reset with wout := [⟨1, true⟩] } = some t) ∧
    (∃ t, act .takeRsp { State.reset with rsp := [1] } = some t) := ⟨⟨_, rfl⟩, ⟨_, rfl⟩, ⟨_, rfl⟩, ⟨_, rfl⟩⟩

/-- A trailer of two bytes held on a full WOUT after the first, and a response held on a full RSP. -/
def heldTrailer : State := { State.reset with
  desc := 0xA100000000000000, phase := .trl, cnt := 1, wout := [⟨0x00, false⟩], platform := bounded 1 1 }

/-- See `heldTrailer`. -/
def heldRsp : State := { atTrailer with phase := .rsp, rsp := [0], platform := bounded 1 1 }

/-- A command that completes with exactly the room it needs; one held on WOUT and one held on RSP, each with one item for
the host to take, after which it completes. -/
theorem witness_ResultsDoNotDependOnCapacities :
    (∃ s t : State, Coherent s ∧ s.platform = bounded 1 1 ∧ step s = .next t ∧ t.phase = .idle) ∧
    (∃ s : State, Coherent s ∧ step s = .next heldTrailer ∧ heldTrailer.phase ≠ .idle ∧ 1 ≤ heldTrailer.wout.length ∧
      ∃ t', step (heldTrailer.afterTaking 1 0) = .next t' ∧ t'.phase = .idle) ∧
    (Coherent heldRsp ∧ step heldRsp = .next heldRsp ∧ heldRsp.phase ≠ .idle ∧ 1 ≤ heldRsp.rsp.length ∧
      ∃ t', step (heldRsp.afterTaking 0 1) = .next t' ∧ t'.phase = .idle) :=
  ⟨⟨{ atTrailer with platform := bounded 1 1 }, _, by decide, rfl, rfl, rfl⟩,
    ⟨{ heldTrailer with cnt := 0, wout := [] }, by decide, rfl, by decide, by decide, _, rfl, rfl⟩,
    by decide, rfl, by decide, by decide, _, rfl, rfl⟩

theorem witness_StepKeepsCoherence : ∃ s t : State, Coherent s ∧ step s = .next t :=
  let ⟨s, t, h, h', _⟩ := witness_StepEndsIdleOrHolding; ⟨s, t, h, h'⟩

theorem witness_ByteStepsAndHostActionsKeepCoherence : ∃ s t u : State, Coherent s ∧ tick s = .moves t ∧
    act .assertRst s = some u := ⟨atTrailer, _, _, by decide, rfl, rfl⟩

theorem witness_ReachableStatesNeverStop : Coherent dry ∧ Reachable State.reset :=
  ⟨by decide, .reset Platform.thisHardware (by decide)⟩

/-- The bytes 0x31 and 0x32 are those the state of V-STEP-5 stands for. -/
theorem dry_standsFor : StandFor dry [0x31, 0x32] := by
  refine ⟨by decide +kernel, by decide +kernel, fun _ i all hi hall => ?_⟩
  cases (show decode dry.desc = .ok (.crc16 3) by decide).symm.trans hi
  cases hall
  decide

/-- Two bytes absorbed; the hold leaves the list, and the byte that arrives late is added to it. -/
theorem witness_StepKeepsAccumulatorsInAgreement : Coherent dry ∧ step dry = .next dry ∧
    absorbedAfter dry dry [0x31, 0x32] = [0x31, 0x32] ∧
    ((after (step { dry with pin := [0x33, 0x34] })).map fun t =>
        absorbedAfter { dry with pin := [0x33, 0x34] } t [0x31, 0x32]) = some [0x31, 0x32, 0x33] ∧
    act .releaseRst { dry with rst := true } = some (releaseReset { dry with rst := true }) := by
  refine ⟨by decide, rfl, ?_, ?_, ?_⟩ <;> decide

/-- A command from IDLE to IDLE, and a descriptor that is refused: its list is the old one. -/
theorem witness_StepKeepsAccumulatorsInAgreement_idle :
    (given 0x1000000200000000 [0x01, 0x02]).rst = false ∧ (given 0x1000000200000000 [0x01, 0x02]).phase = .idle ∧
    decode 0x1000000200000000 = .ok (.sum8 2) ∧
    (after (step (given 0x1000000200000000 [0x01, 0x02]))).map State.phase = some .idle ∧
    currentCommand (given 0x0000000200000000 [0xAA, 0xBB]) = none := by decide

/-- A read-back behind the answer of a refused command. -/
def answered : State := { given 0x4000000000000000 [] with rsp := [0x03000000] }

theorem answered_ok : ∀ r ∈ answered.rsp, ResponseOk r := by
  simp only [answered, List.forall_mem_singleton]; decide

theorem answered_steps : (after (step answered)).map State.phase = some .idle := by decide +kernel

theorem witness_StepKeepsResponsesWellFormed : ∃ s t : State, s.rsp ≠ [] ∧ (∀ r ∈ s.rsp, ResponseOk r) ∧ step s = .next t :=
  (next_of_idle answered_steps).elim fun t h => ⟨answered, t, by decide, answered_ok, h.1⟩

theorem witness_SessionFramesCarryOneChecksumMode :
    commandsOf (runSession bounds (startSession .xmodem [] hello) [got 0x43]).outputs =
      [(.fdata .crc16 .small 1 5, hello)] := by decide

/-- A NAK that keeps within the bound of one retry, and one that exceeds it. -/
theorem witness_RetransmissionRepeatsTheSameCommand :
    let s := runSession bounds (startSession .xmodem [] hello) [got 0x15, doneRsp]
    let t := runSession bounds (startSession .xmodem [] hello) [got 0x15, doneRsp, got 0x15, doneRsp]
    (s.stage = .dataReply 0 ∧ s.responseDue = false ∧ (onEvent bounds s (got 0x15)).retryCount ≤ bounds.maxRetry) ∧
    (t.stage = .dataReply 0 ∧ t.responseDue = false ∧ (onEvent bounds t (got 0x15)).retryCount > bounds.maxRetry) := by decide

/-- A command with a name of five bytes; its response is due, and either status can come. -/
theorem witness_SessionCommandsAreAcceptedAndSupplied :
    let s := runSession bounds (startSession .ymodem aTxt hello) [got 0x43]
    commandsOf s.outputs = [(.fmeta .crc16 5 5, aTxt)] ∧ s.responseDue = true ∧ s.over = false ∧
    responseStatus 0x00000000 = 0x00 ∧ responseStatus 0x01000000 ≠ 0x00 ∧
    (onEvent bounds (startSession .ymodem aTxt hello) (got 0x43)).outputs = [] ++ [.command (.fmeta .crc16 5 5) aTxt] := by
  decide

end Sys2Proof.Tests
end

section
/-! SUPPORT. From a step of the block to the run of its command, and what every line of spec/42_framer.md R89 keeps. -/

namespace Sys2Proof.Machine

/-! ### The step and the byte step, by the descriptor they work on -/

/-- A step waits, or it runs the command of the current descriptor, which is then the latched one. -/
theorem step_eq_next {s t : State} (h : step s = .next t) :
    currentDescriptor s = none ∧ t = s ∨
    ∃ d ds, currentDescriptor s = some d ∧ (s.phase ≠ .idle → d = s.desc) ∧
      perform (planOfDescriptor d) { s with cmd := ds, desc := d } = .next t := by
  by_cases hr : s.rst = true
  · rw [step_of_rst hr] at h
    cases h
    exact .inl ⟨by simp [currentDescriptor, hr], rfl⟩
  · rw [Bool.not_eq_true] at hr
    by_cases hi : s.phase = .idle
    · match hc : s.cmd with
      | [] =>
        rw [step_of_idle_nil hi hc] at h
        cases h
        exact .inl ⟨by simp [currentDescriptor, hr, hi, hc], rfl⟩
      | d :: ds =>
        rw [step_of_idle_cons hr hi hc] at h
        exact .inr ⟨d, ds, by simp [currentDescriptor, hr, hi, hc], (absurd hi ·), h⟩
    · rw [step_of_busy hr hi] at h
      exact .inr ⟨s.desc, s.cmd, by simp [currentDescriptor, hr, hi], fun _ => rfl, h⟩

/-- A byte step is a line of R89 for the plan of the descriptor it leaves latched. -/
theorem tick_eq_moves {s t : State} (h : tick s = .moves t) :
    ∃ d ds, Line (planOfDescriptor d) { s with cmd := ds, desc := d } t := by
  by_cases hr : s.rst = true
  · rw [tick_of_rst hr] at h; cases h
  · rw [Bool.not_eq_true] at hr
    by_cases hi : s.phase = .idle
    · match hc : s.cmd with
      | [] => rw [tick_of_idle_nil hi hc] at h; cases h
      | d :: ds => rw [tick_of_idle_cons hr hi hc] at h; exact ⟨d, ds, line_of_planTick h⟩
    · rw [tick_of_busy hr hi] at h; exact ⟨s.desc, s.cmd, line_of_planTick h⟩

/-! ### What a whole command keeps -/

/-- What no line of a command changes, the command does not change, from any state and wherever it stops. -/
theorem perform_keeps {α : Type} {p : Plan} (f : State → α) (line : ∀ {s s'}, Line p s s' → f s' = f s) {s t : State}
    (h : perform p s = .next t) : f t = f s :=
  perform_induct (fun s t => f t = f s) (fun _ => rfl) (fun _ _ _ hs ih => ih.trans (line (line_of_planTick hs))) h

/-- The fields of the state no line writes. -/
abbrev fixedFields (s : State) : Descriptor × Bool × Platform × List Descriptor := (s.desc, s.rst, s.platform, s.cmd)

theorem perform_fixedFields {p : Plan} {s t : State} (h : perform p s = .next t) : fixedFields t = fixedFields s :=
  perform_keeps fixedFields (fun hl => by
    obtain ⟨hd, hr, hp, hc⟩ := planTick_keeps (planTick_of_line hl)
    simp only [fixedFields, hd, hr, hp, hc]) h

/-- A refused command changes no accumulator and puts nothing on WOUT (60_exceptions.md R139). -/
theorem perform_refuse_keeps {len : Half} {e : CmdError} {s t : State} (h : perform (.refuse len e) s = .next t) :
    t.crc = s.crc ∧ t.sum = s.sum ∧ t.wout = s.wout := by
  simpa using perform_keeps (fun s => (s.crc, s.sum, s.wout)) (fun hl => by cases hl <;> rfl) h

/-- Read-back changes no accumulator, no byte channel and not `CNT` (40_crc16.md R69, 41_sum8.md R78). -/
theorem perform_readback_keeps {acc : Accumulator} {s t : State} (h : perform (.readback acc) s = .next t) :
    t.crc = s.crc ∧ t.sum = s.sum ∧ t.pin = s.pin ∧ t.wout = s.wout ∧ t.cnt = s.cnt := by
  simpa using perform_keeps (fun s => (s.crc, s.sum, s.pin, s.wout, s.cnt)) (fun hl => by cases hl <;> rfl) h

end Sys2Proof.Machine
end
section
/-! PROOFS. The accumulators are the checksums of the bytes absorbed (spec/10_state.md R18, R19, R22). -/

namespace Sys2Proof.Machine

open Laws.EncodesInFormatD (len)

/-! ### The bytes a command absorbs -/

theorem wellFormed_fdata {mode : ChecksumMode} {size : BlockSize} {seq : Byte} {n : Half} :
    (Instr.fdata mode size seq n).WellFormed ↔ n.toNat ≤ blocksize size := by
  simp [Instr.WellFormed, Instr.lengthError]

theorem wellFormed_fmeta {mode : ChecksumMode} {n : Half} {fsize : BitVec 32} :
    (Instr.fmeta mode n fsize).WellFormed ↔ n.toNat + (dec fsize).length ≤ 127 := by
  simp [Instr.WellFormed, Instr.lengthError]

/-- What a command absorbs depends on the `len` bytes PIN supplies alone. -/
theorem absorbedBytes_congr {i : Instr} {data data' : List Byte}
    (h : data.take (len i).toNat = data'.take (len i).toNat) : absorbedBytes data i = absorbedBytes data' i := by
  cases i <;> simp_all [absorbedBytes, len]

/-- Whether a command absorbs at all does not depend on its bytes. -/
theorem absorbedBytes_isSome {i : Instr} {data all : List Byte} (h : absorbedBytes data i = some all)
    (data' : List Byte) : ∃ all', absorbedBytes data' i = some all' := by
  cases i <;> simp_all [absorbedBytes]

/-- Only a read-back absorbs nothing. -/
theorem readback_of_absorbedBytes_eq_none {i : Instr} {data : List Byte} (h : absorbedBytes data i = none) :
    (∃ acc, planOfInstr i = .readback acc) ∧ ∀ data', absorbedBytes data' i = none := by
  cases i with
  | rdsum => exact ⟨⟨_, rfl⟩, fun _ => rfl⟩
  | rdcrc => exact ⟨⟨_, rfl⟩, fun _ => rfl⟩
  | sum8 | crc16 | fdata | fmeta | fterm => cases h

/-- The bytes from PIN are absorbed first, in order. -/
theorem take_prefix_absorbedBytes {i : Instr} {data all : List Byte} (h : absorbedBytes data i = some all) :
    data.take (len i).toNat <+: all := by
  cases i with
  | rdsum | rdcrc => cases h
  | sum8 | crc16 => cases h; exact List.prefix_rfl
  | fdata => cases h; exact List.prefix_append _ _
  | fmeta => cases h; simp [metaPayload, pad, len]
  | fterm => cases h; exact List.nil_prefix

/-- An accepted command absorbs at most `absorbedTotal` bytes (10_state.md R23). -/
theorem absorbedBytes_length_le {i : Instr} {data all : List Byte} (hw : i.WellFormed)
    (h : absorbedBytes data i = some all) : all.length ≤ absorbedTotal i := by
  cases i with
  | rdsum | rdcrc => cases h
  | sum8 | crc16 => cases h; exact List.length_take_le _ _
  | fdata mode size seq len =>
    cases h
    rw [wellFormed_fdata] at hw
    rw [pad_length (by rw [List.length_take]; omega)]; rfl
  | fmeta mode len fsize =>
    cases h
    rw [wellFormed_fmeta] at hw
    rw [metaPayload, pad_length (by simp; omega)]; rfl
  | fterm => cases h; exact List.length_replicate.le

/-! ### The plan of an accepted command -/

theorem fdataPlan_of_le {mode : ChecksumMode} {size : BlockSize} {seq : Byte} {n : Half}
    (h : n.toNat ≤ blocksize size) : fdataPlan mode size seq n = .framing size seq mode (.supplied n) :=
  if_neg (Nat.not_lt.mpr h)

theorem fmetaPlan_of_le {mode : ChecksumMode} {n : Half} {fsize : BitVec 32}
    (h : n.toNat + (dec fsize).length ≤ 127) : fmetaPlan mode n fsize = .framing .small 0x00 mode (.metadata n fsize) :=
  if_neg (Nat.not_lt.mpr h)

/-- What the plan of an accepted command says of the bytes it absorbs (10_state.md R23): how many they are, and where each
comes from. -/
def PlanAbsorbs (i : Instr) : Plan → Prop
  | .refuse _ _ => False
  | .readback _ => ∀ data, absorbedBytes data i = none
  | .engine n _ => len i = n ∧ absorbedTotal i = n.toNat
  | .framing size _ _ src => absorbedTotal i = blocksize size ∧ (∀ k, src.paybyte k = none ↔ k < (len i).toNat) ∧
      ∀ data all, absorbedBytes data i = some all → (len i).toNat ≤ data.length →
        ∃ rest, draw src 0 (blocksize size) data = some (all, rest)

theorem planAbsorbs_planOfInstr {i : Instr} (hw : i.WellFormed) : PlanAbsorbs i (planOfInstr i) := by
  cases i with
  | sum8 n => exact ⟨rfl, rfl⟩
  | crc16 n => exact ⟨rfl, rfl⟩
  | rdsum => exact fun _ => rfl
  | rdcrc => exact fun _ => rfl
  | fdata mode size seq n =>
    rw [wellFormed_fdata] at hw
    rw [planOfInstr, fdataPlan_of_le hw]
    refine ⟨rfl, fun k => ?_, fun data all h hd => ?_⟩
    · simp [PaySource.paybyte, len]
    · cases h; exact ⟨_, draw_supplied hw hd⟩
  | fmeta mode n fsize =>
    rw [wellFormed_fmeta] at hw
    rw [planOfInstr, fmetaPlan_of_le hw]
    refine ⟨rfl, fun k => ?_, fun data all h hd => ?_⟩
    · simp only [PaySource.paybyte, len]; split_ifs <;> simp_all
    · cases h; exact ⟨_, draw_metadata hw hd⟩
  | fterm mode =>
    refine ⟨rfl, fun k => by simp [PaySource.paybyte, len], fun data all h _ => ?_⟩
    cases h; exact ⟨_, draw_zeros 128 data⟩

/-- The byte of a draw that the command makes itself. -/
theorem draw_getElem? {src : PaySource} {n k : Nat} {pin bs rest : List Byte} {b : Byte}
    (h : draw src 0 n pin = some (bs, rest)) (hk : k < n) (hb : src.paybyte k = some b) : bs[k]? = some b := by
  obtain ⟨m, rfl⟩ : ∃ m, n = k + (m + 1) := ⟨n - k - 1, by omega⟩
  obtain ⟨pin', -, h'⟩ := draw_split h
  obtain ⟨b', bs', _, hbs, hb', -⟩ := draw_succ h'
  rw [Nat.zero_add, hb] at hb'
  obtain ⟨hb', -⟩ | ⟨hb', -⟩ := hb' <;> cases hb'
  rw [← List.head?_drop, hbs, List.head?_cons]

/-! ### The bytes absorbed so far -/

/-- Inside the command `i`, the accumulators stand for the first bytes of `all`, as many as the phase says, and these
with what PIN still holds are what makes the command absorb `all`. -/
structure HasAbsorbed (i : Instr) (all : List Byte) (s : State) : Prop where
  le : absorbedSoFar i s ≤ all.length
  crc : s.crc = crc16 (all.take (absorbedSoFar i s))
  sum : s.sum = sum8 (all.take (absorbedSoFar i s))
  bytes : absorbedBytes (all.take (absorbedSoFar i s) ++ s.pin) i = some all

/-- The lines that neither take a byte from PIN nor absorb one. -/
theorem HasAbsorbed.of_eq {i : Instr} {all : List Byte} {s s' : State} (h : HasAbsorbed i all s) (hc : s'.crc = s.crc)
    (hs : s'.sum = s.sum) (hp : s'.pin = s.pin) (hn : absorbedSoFar i s' = absorbedSoFar i s) : HasAbsorbed i all s' where
  le := hn ▸ h.le
  crc := by rw [hc, hn, h.crc]
  sum := by rw [hs, hn, h.sum]
  bytes := by rw [hp, hn, h.bytes]

/-- The lines that absorb: the next byte of `all`, where the `len` bytes from PIN stay what they were. -/
theorem HasAbsorbed.absorb_next {i : Instr} {all : List Byte} {s s' : State} {b : Byte} (h : HasAbsorbed i all s)
    (hb : all[absorbedSoFar i s]? = some b) (hc : s'.crc = crcStep s.crc b) (hs : s'.sum = sumStep s.sum b)
    (hn : absorbedSoFar i s' = absorbedSoFar i s + 1)
    (hp : s.pin = b :: s'.pin ∨ s'.pin = s.pin ∧ (len i).toNat ≤ absorbedSoFar i s) : HasAbsorbed i all s' := by
  have htake : all.take (absorbedSoFar i s') = all.take (absorbedSoFar i s) ++ [b] := by
    rw [hn, List.take_add_one, hb, Option.toList_some]
  refine ⟨?_, ?_, ?_, ?_⟩
  · rw [hn]; exact (List.getElem?_eq_some_iff.mp hb).1
  · rw [htake, crc16_concat, hc, h.crc]
  · rw [htake, sum8_concat, hs, h.sum]
  · rw [htake, ← h.bytes]
    obtain hp | ⟨hp, hl⟩ := hp
    · simp [hp]
    · have hlen : (all.take (absorbedSoFar i s)).length = absorbedSoFar i s := List.length_take_of_le h.le
      refine absorbedBytes_congr ?_
      rw [List.append_assoc, List.take_append_of_le_length (by omega), List.take_append_of_le_length (by omega)]

/-- A byte at the head of PIN that belongs to the command is the next one it absorbs. -/
theorem HasAbsorbed.next_of_pin {i : Instr} {all rest : List Byte} {s : State} {b : Byte} (h : HasAbsorbed i all s)
    (hp : s.pin = b :: rest) (hl : absorbedSoFar i s < (len i).toNat) : all[absorbedSoFar i s]? = some b := by
  have hlen : (all.take (absorbedSoFar i s)).length = absorbedSoFar i s := List.length_take_of_le h.le
  obtain ⟨made, hall⟩ := take_prefix_absorbedBytes h.bytes
  calc all[absorbedSoFar i s]?
    _ = ((all.take (absorbedSoFar i s) ++ s.pin).take (len i).toNat ++ made)[absorbedSoFar i s]? := by rw [hall]
    _ = (all.take (absorbedSoFar i s) ++ s.pin)[absorbedSoFar i s]? := by
      rw [List.getElem?_append_left (by simp [hp, hlen]; omega), List.getElem?_take_of_lt hl]
    _ = some b := by rw [List.getElem?_append_right hlen.le, hlen, Nat.sub_self, hp]; rfl

/-- The payload byte of the PAY line is the next one the command absorbs. -/
theorem HasAbsorbed.next_of_payByte {i : Instr} {all pin' : List Byte} {s : State} {b : Byte} {size : BlockSize}
    {seq : Byte} {mode : ChecksumMode} {src : PaySource} (h : HasAbsorbed i all s)
    (hpa : PlanAbsorbs i (.framing size seq mode src)) (hp : s.phase = .pay) (hc : s.cnt.toNat < blocksize size)
    (hb : PayByte src s b pin') :
    all[absorbedSoFar i s]? = some b ∧ (s.pin = b :: pin' ∨ pin' = s.pin ∧ (len i).toNat ≤ absorbedSoFar i s) := by
  obtain ⟨-, hlt, hdraw⟩ := hpa
  have hn : absorbedSoFar i s = s.cnt.toNat := by simp [absorbedSoFar, hp]
  rw [← hn] at hc
  obtain ⟨hb, hpin⟩ | ⟨hb, hpin⟩ := hb <;> rw [← hn] at hb
  · have hl : (len i).toNat ≤ absorbedSoFar i s := by
      rw [← Nat.not_lt, ← hlt, hb]; exact Option.some_ne_none b
    obtain ⟨rest, hd⟩ := hdraw _ all h.bytes (by simp [List.length_take_of_le h.le]; omega)
    exact ⟨draw_getElem? hd hc hb, .inr ⟨hpin, hl⟩⟩
  · exact ⟨h.next_of_pin hpin ((hlt _).mp hb), .inl hpin⟩

/-- `CNT` does not wrap inside a payload. -/
theorem cnt_succ_of_lt_blocksize {c : Half} {size : BlockSize} (h : c.toNat < blocksize size) :
    (c + 1).toNat = c.toNat + 1 := by
  refine cnt_succ (n := 1024) (BitVec.lt_def.mpr (h.trans_le ?_))
  cases size <;> decide

/-- Outside IDLE every line keeps the accumulators the checksums of the bytes absorbed so far (10_state.md R18). -/
theorem hasAbsorbed_line {i : Instr} {all : List Byte} {s s' : State} (hw : i.WellFormed)
    (hl : Line (planOfInstr i) s s') (hf : phaseFits (planOfInstr i) s.phase s.cnt = true) (hi : s.phase ≠ .idle)
    (h : HasAbsorbed i all s) : HasAbsorbed i all s' := by
  have hpa := planAbsorbs_planOfInstr hw
  generalize planOfInstr i = p at hl hf hpa
  cases hl with
  | refused hp => exact absurd hp hi
  | engineStart hp => exact absurd hp hi
  | readStart hp => exact absurd hp hi
  | frameStart hp => exact absurd hp hi
  | drainTake => exact hpa.elim
  | drainDone => exact hpa.elim
  | absorbTake hp hc hpin =>
    obtain ⟨hlen, -⟩ := hpa
    have hn : absorbedSoFar i s = s.cnt.toNat := by simp [absorbedSoFar, hp]
    have hlt : absorbedSoFar i s < (len i).toNat := by rw [hn, hlen]; exact BitVec.lt_def.mp hc
    exact h.absorb_next (h.next_of_pin hpin hlt) rfl rfl (by simp only [absorbedSoFar, absorb_phase, hp, cnt_succ hc]) (.inl hpin)
  | absorbDone hp hc =>
    obtain ⟨-, htotal⟩ := hpa
    have hcnt : s.cnt.toNat = absorbedTotal i := by
      simp only [hp, phaseFits, decide_eq_true_eq, BitVec.le_def, BitVec.lt_def] at hf hc; omega
    exact h.of_eq rfl rfl rfl (by simp [absorbedSoFar, hp, hcnt])
  | hdr hp => exact h.of_eq rfl rfl rfl (by simp [absorbedSoFar, hp])
  | seq hp => exact h.of_eq rfl rfl rfl (by simp [absorbedSoFar, hp])
  | nseq hp => exact h.of_eq rfl rfl rfl (by simp [absorbedSoFar, hp])
  | trlSum hp => exact h.of_eq rfl rfl rfl (by simp [absorbedSoFar, hp])
  | trlHigh hp => exact h.of_eq rfl rfl rfl (by simp [absorbedSoFar, hp])
  | trlLow hp => exact h.of_eq rfl rfl rfl (by simp [absorbedSoFar, hp])
  | rsp hp => exact h.of_eq rfl rfl rfl (by simp [absorbedSoFar, hp])
  | pay hp hb hr hc =>
    simp only [hp, phaseFits, decide_eq_true_eq] at hf
    obtain ⟨hnext, hpin⟩ := h.next_of_payByte hpa hp hf hb
    exact h.absorb_next hnext rfl rfl (by simp only [absorbedSoFar, absorb_phase, hp, cnt_succ_of_lt_blocksize hf]) hpin
  | payLast hp hb hr hc =>
    obtain ⟨hnext, hpin⟩ := h.next_of_payByte hpa hp (by omega) hb
    exact h.absorb_next hnext rfl rfl (by simp only [absorbedSoFar, hp, hpa.1, hc]) hpin

/-- The first line of an absorbing command: both accumulators are clear and no byte is absorbed (10_state.md R19). -/
theorem hasAbsorbed_start {i : Instr} {all : List Byte} {s s' : State} (hw : i.WellFormed)
    (hl : Line (planOfInstr i) s s') (hi : s.phase = .idle) (h : absorbedBytes s.pin i = some all) :
    HasAbsorbed i all s' := by
  have hpa := planAbsorbs_planOfInstr hw
  generalize planOfInstr i = p at hl hpa
  cases hl with
  | refused => exact hpa.elim
  | readStart => rw [hpa] at h; cases h
  | engineStart => constructor <;> simp [absorbedSoFar, h]
  | frameStart => constructor <;> simp [absorbedSoFar, h]
  | drainTake hp | drainDone hp | absorbTake hp | absorbDone hp | hdr hp | seq hp | nseq hp | pay hp | payLast hp
  | trlSum hp | trlHigh hp | trlLow hp | rsp hp => simp [hp] at hi

theorem hasAbsorbed_run {i : Instr} {all : List Byte} {n : Nat} {s t : State} (hw : i.WellFormed)
    (hr : PlanRun (planOfInstr i) n s t) (hf : phaseFits (planOfInstr i) s.phase s.cnt = true) (hi : s.phase ≠ .idle)
    (h : HasAbsorbed i all s) : HasAbsorbed i all t := by
  induction hr with
  | refl => exact h
  | cons hl hi' _ ih =>
    have hl := line_of_planTick hl
    exact ih (fits_line hl hf) hi' (hasAbsorbed_line hw hl hf hi h)

/-- A command taken up inside keeps the accumulators the checksums of the bytes absorbed so far. -/
theorem hasAbsorbed_perform {i : Instr} {all : List Byte} {s t : State} (hw : i.WellFormed)
    (hf : phaseFits (planOfInstr i) s.phase s.cnt = true) (hi : s.phase ≠ .idle) (h : HasAbsorbed i all s)
    (ht : perform (planOfInstr i) s = .next t) : HasAbsorbed i all t := by
  obtain ⟨m, u, hr, hiu, hfu, ⟨-, hu⟩ | ⟨v, hv, -, hu⟩⟩ := perform_cases hf <;> cases hu.symm.trans ht <;>
    have hu := hasAbsorbed_run hw hr hf hi h
  · exact hu
  · exact hasAbsorbed_line hw (line_of_planTick hv) hfu hiu hu

/-- A command from IDLE makes the accumulators the checksums of the bytes it has absorbed where it stops. -/
theorem hasAbsorbed_perform_idle {i : Instr} {all : List Byte} {s t : State} (hw : i.WellFormed) (hi : s.phase = .idle)
    (h : absorbedBytes s.pin i = some all) (ht : perform (planOfInstr i) s = .next t) : HasAbsorbed i all t := by
  obtain ⟨s', hs, hi', hf'⟩ := idle_starts (planOfInstr i) hi
  rw [perform_eq_of_run (.single hs hi') (by rw [hi, phaseFits_idle])] at ht
  exact hasAbsorbed_perform hw hf' hi' (hasAbsorbed_start hw (line_of_planTick hs) hi h) ht

/-! ### The list the accumulators stand for -/

/-- That bytes absorbed are the first of those a command absorbs does not depend on what PIN holds behind them: the ones
below `len` are PIN's own, and above it all of PIN's are among them. -/
theorem take_absorbedBytes_append {i : Instr} {bs rest all all' : List Byte} (h : absorbedBytes bs i = some all)
    (h' : absorbedBytes (bs ++ rest) i = some all') : all.take bs.length = all'.take bs.length := by
  obtain hl | hl := Nat.le_total bs.length (len i).toNat
  · have hb : bs <+: all := by simpa [List.take_of_length_le hl] using take_prefix_absorbedBytes h
    have hb' : bs <+: all' := by
      refine List.IsPrefix.trans ?_ (take_prefix_absorbedBytes h')
      rw [List.take_append, List.take_of_length_le hl]
      exact List.prefix_append _ _
    rw [← List.prefix_iff_eq_take.mp hb, ← List.prefix_iff_eq_take.mp hb']
  · have hc : absorbedBytes bs i = absorbedBytes (bs ++ rest) i :=
      absorbedBytes_congr (List.take_append_of_le_length hl).symm
    rw [hc, h'] at h
    cases h
    rfl

/-- Where a command has been begun, the list its state stands for is that of the bytes absorbed so far. -/
theorem hasAbsorbed_of_standFor {i : Instr} {bs all : List Byte} {s : State} (h : StandFor s bs) (hi : s.phase ≠ .idle)
    (hd : decode s.desc = .ok i) (hall : absorbedBytes (bs ++ s.pin) i = some all) : HasAbsorbed i all s := by
  obtain ⟨hcrc, hsum, hbytes⟩ := h
  obtain ⟨all', hall'⟩ := absorbedBytes_isSome hall bs
  obtain ⟨hlen, hbs⟩ := hbytes hi i all' hd hall'
  have htake : all.take (absorbedSoFar i s) = bs := by
    rw [← hlen, ← take_absorbedBytes_append hall' hall, hlen]; exact hbs.symm
  refine ⟨?_, by rw [htake, hcrc], by rw [htake, hsum], by rw [htake, hall]⟩
  rw [← hlen, ← htake]; exact List.length_take_le' _ all

theorem standFor_of_hasAbsorbed {i : Instr} {all : List Byte} {s : State} (h : HasAbsorbed i all s)
    (hd : decode s.desc = .ok i) : StandFor s (all.take (absorbedSoFar i s)) := by
  refine ⟨h.crc, h.sum, fun _ j all' hj hall' => ?_⟩
  cases hd.symm.trans hj
  have hlen : (all.take (absorbedSoFar i s)).length = absorbedSoFar i s := List.length_take_of_le h.le
  refine ⟨hlen, ?_⟩
  have := take_absorbedBytes_append hall' h.bytes
  rw [hlen] at this
  exact this.symm

/-- A list stays the one the accumulators stand for while these keep their values and the latched command, if it is
accepted, absorbs nothing. -/
theorem StandFor.of_eq {s t : State} {bs : List Byte} (h : StandFor s bs) (hc : t.crc = s.crc) (hs : t.sum = s.sum)
    (hn : ∀ i, decode t.desc = .ok i → absorbedBytes bs i = none) : StandFor t bs := by
  obtain ⟨hcrc, hsum, -⟩ := h
  refine ⟨hc.trans hcrc, hs.trans hsum, fun _ i all hi hall => ?_⟩
  rw [hn i hi] at hall
  cases hall

theorem standFor_reset (p : Platform) : StandFor { State.reset with platform := p } [] :=
  ⟨rfl, rfl, fun h => absurd rfl h⟩

theorem step_standFor {s t : State} {bs : List Byte} (hco : Coherent s) (hst : StandFor s bs) (h : step s = .next t) :
    StandFor t (absorbedAfter s t bs) := by
  obtain ⟨hn, rfl⟩ | ⟨d, ds, hd, hdesc, hp⟩ := step_eq_next h
  · simpa [absorbedAfter, currentCommand, hn] using hst
  have htd : t.desc = d := congrArg Prod.fst (perform_fixedFields hp)
  cases hdec : decode d with
  | error e =>
    rw [planOfDescriptor_of_error hdec] at hp
    obtain ⟨hcrc, hsum, -⟩ := perform_refuse_keeps hp
    have : absorbedAfter s t bs = bs := by simp [absorbedAfter, currentCommand, hd, hdec, Except.toOption]
    rw [this]
    exact hst.of_eq hcrc hsum fun i hi => by rw [htd, hdec] at hi; cases hi
  | ok i =>
    have hw : i.WellFormed := (decode_eq_ok.mp hdec).2
    rw [planOfDescriptor_of_ok hdec] at hp
    cases hall : absorbedBytes ((if s.phase = .idle then [] else bs) ++ s.pin) i with
    | none =>
      have : absorbedAfter s t bs = bs := by simp [absorbedAfter, currentCommand, hd, hdec, Except.toOption, hall]
      rw [this]
      obtain ⟨⟨acc, hplan⟩, hnone⟩ := readback_of_absorbedBytes_eq_none hall
      rw [hplan] at hp
      obtain ⟨hcrc, hsum, -⟩ := perform_readback_keeps hp
      refine hst.of_eq hcrc hsum fun j hj => ?_
      rw [htd, hdec] at hj
      cases hj
      exact hnone bs
    | some all =>
      have : absorbedAfter s t bs = all.take (absorbedSoFar i t) := by
        simp [absorbedAfter, currentCommand, hd, hdec, Except.toOption, hall]
      rw [this]
      refine standFor_of_hasAbsorbed ?_ (htd ▸ hdec)
      by_cases hi : s.phase = .idle
      · exact hasAbsorbed_perform_idle (s := { s with cmd := ds, desc := d }) hw hi (by simpa [hi] using hall) hp
      · rw [if_neg hi] at hall
        obtain rfl := hdesc hi
        have hf : phaseFits (planOfInstr i) s.phase s.cnt = true := planOfDescriptor_of_ok hdec ▸ hco.1
        have ha := hasAbsorbed_of_standFor (s := { s with cmd := ds }) hst hi hdec hall
        exact hasAbsorbed_perform (s := { s with cmd := ds }) hw hf hi ha hp

/-- What the host puts or takes keeps the list, and the release of `RST` empties it (R21). -/
theorem act_standFor {a : HostAction} {s t : State} {bs : List Byte} (h : StandFor s bs) (ha : act a s = some t) :
    StandFor t (if a = .releaseRst then [] else bs) := by
  cases a with
  | releaseRst =>
    simp only [act] at ha
    split at ha <;> cases ha
    exact ⟨rfl, rfl, fun hi => absurd rfl hi⟩
  | assertRst => cases ha; exact h
  | putCmd | putPin | takeWout | takeRsp =>
    simp only [act] at ha
    split at ha <;> cases ha
    exact h

/-- The bytes of a whole command, from IDLE to IDLE, are all it absorbs. -/
theorem absorbedAfter_complete {s t : State} {bs all : List Byte} {i : Instr} (hc : currentCommand s = some i)
    (hi : s.phase = .idle) (ht : t.phase = .idle) (hw : i.WellFormed) (hall : absorbedBytes s.pin i = some all) :
    absorbedAfter s t bs = all := by
  simp only [absorbedAfter, hc, hi, if_true, List.nil_append, hall, absorbedSoFar, ht]
  exact List.take_of_length_le (absorbedBytes_length_le hw hall)

theorem absorbedAfter_of_absorbs_nothing {s t : State} {bs : List Byte} {i : Instr} (hc : currentCommand s = some i)
    (hall : ∀ data, absorbedBytes data i = none) : absorbedAfter s t bs = bs := by
  simp only [absorbedAfter, hc, hall]

/-- Settles O56: the reset state, every step, every action of the host, and the lists of the single commands. -/
theorem stepKeepsAccumulatorsInAgreement : Obligations.StepKeepsAccumulatorsInAgreement := by
  refine ⟨standFor_reset, fun _ _ _ hco hst h => step_standFor hco hst h, fun _ _ _ _ h ha => act_standFor h ha,
    fun s t bs d ds i hr hi hcmd hd _ ht => ?_, fun s t bs hc => by simp only [absorbedAfter, hc]⟩
  have hc : currentCommand s = some i := by
    simp [currentCommand, currentDescriptor, hr, hi, hcmd, hd, Except.toOption]
  have hw : i.WellFormed := (decode_eq_ok.mp hd).2
  cases i with
  | rdsum => exact absorbedAfter_of_absorbs_nothing hc fun _ => rfl
  | rdcrc => exact absorbedAfter_of_absorbs_nothing hc fun _ => rfl
  | sum8 | crc16 | fdata | fmeta | fterm => exact absorbedAfter_complete hc hi ht hw rfl

end Sys2Proof.Machine
end

section
/-! PROOFS. `CNT` and `DESC` are not observable where the next line does not read them (spec/10_state.md R12, R13). -/

namespace Sys2Proof.Machine

/-- The two states differ at most in `CNT`, and only where the phase does not read it. -/
def SameButCnt (s u : State) : Prop := ∃ c, u = { s with cnt := c } ∧ (readsCnt s.phase = true → c = s.cnt)

/-- A line whose phase reads `CNT` sees equal states, and every other sets `CNT` before a phase that reads it. -/
theorem SameButCnt.line {p : Plan} {s u s' : State} (h : SameButCnt s u) (hl : planTick p s = .moves s') :
    ∃ u', planTick p u = .moves u' ∧ SameButCnt s' u' := by
  obtain ⟨c, rfl, hc⟩ := h
  by_cases hr : readsCnt s.phase = true
  · obtain rfl := hc hr
    exact ⟨s', hl, s'.cnt, rfl, fun _ => rfl⟩
  · cases line_of_planTick hl with
    | drainTake h | drainDone h | absorbTake h | absorbDone h | pay h | payLast h | trlSum h | trlHigh h | trlLow h =>
      simp [h, readsCnt] at hr
    | refused h => exact ⟨_, planTick_of_line (.refused (s := { s with cnt := c }) h), 0, rfl, fun _ => rfl⟩
    | engineStart h => exact ⟨_, planTick_of_line (.engineStart (s := { s with cnt := c }) h), 0, rfl, fun _ => rfl⟩
    | nseq h hw => exact ⟨_, planTick_of_line (.nseq (s := { s with cnt := c }) h hw), 0, rfl, fun _ => rfl⟩
    | readStart h => exact ⟨_, planTick_of_line (.readStart (s := { s with cnt := c }) h), c, rfl, nofun⟩
    | frameStart h => exact ⟨_, planTick_of_line (.frameStart (s := { s with cnt := c }) h), c, rfl, nofun⟩
    | hdr h hw => exact ⟨_, planTick_of_line (.hdr (s := { s with cnt := c }) h hw), c, rfl, nofun⟩
    | seq h hw => exact ⟨_, planTick_of_line (.seq (s := { s with cnt := c }) h hw), c, rfl, nofun⟩
    | rsp h hw =>
      refine ⟨_, planTick_of_line (.rsp (s := { s with cnt := c }) h hw), c, ?_, nofun⟩
      rw [answer_eq (s := { s with cnt := c }) (t := s) rfl rfl]

/-- A hold does not look at `CNT` where the phase does not read it. -/
theorem SameButCnt.hold {p : Plan} {s u : State} (h : SameButCnt s u) (hh : planTick p s = .hold) :
    planTick p u = .hold := by
  obtain ⟨c, rfl, hc⟩ := h
  by_cases hr : readsCnt s.phase = true
  · obtain rfl := hc hr
    exact hh
  · rw [planTick_eq_hold] at hh ⊢
    cases hh with
    | drain h | absorb h | pay h => simp [h, readsCnt] at hr
    | frame h hw => exact .frame (s := { s with cnt := c }) h hw
    | rsp h hw => exact .rsp (s := { s with cnt := c }) h hw

/-- A command run with another `CNT`, from a phase that does not read it. -/
theorem perform_sameButCnt {p : Plan} {s t : State} (c : Half) (hr : readsCnt s.phase = false)
    (h : perform p s = .next t) : ∃ t', perform p { s with cnt := c } = .next t' ∧ SameButCnt t t' :=
  perform_sim SameButCnt (fun _ _ ⟨_, hu, _⟩ => by rw [hu]) (fun _ _ _ hR hl => hR.line hl) (fun _ _ hR hh => hR.hold hh)
    ⟨c, rfl, by simp [hr]⟩ h

theorem SameButCnt.alike {s u : State} (h : SameButCnt s u) : AlikeToTheSequencer s u ∧ u.desc = s.desc := by
  obtain ⟨c, rfl, hc⟩ := h
  exact ⟨⟨rfl, rfl, rfl, rfl, rfl, rfl, rfl, rfl, rfl, fun hr => (hc hr).symm⟩, rfl⟩

theorem alike_of_readsCnt {s : State} (c : Half) (d : Descriptor) (hs : readsCnt s.phase = false) :
    AlikeToTheSequencer s { s with cnt := c, desc := d } :=
  ⟨rfl, rfl, rfl, rfl, rfl, rfl, rfl, rfl, rfl, by simp [hs]⟩

/-- From a phase that does not read `CNT`, a step forgets it, and in IDLE `DESC` too, unless it waits there. -/
theorem step_alike {s t : State} (c : Half) (d : Descriptor) (hs : readsCnt s.phase = false)
    (hd : s.phase ≠ .idle → d = s.desc) (h : step s = .next t) :
    ∃ t', step { s with cnt := c, desc := d } = .next t' ∧ AlikeToTheSequencer t t' ∧
      (d = s.desc ∨ s.rst = false ∧ s.cmd ≠ [] → t'.desc = t.desc) := by
  by_cases hr : s.rst = true
  · cases (step_of_rst hr).symm.trans h
    exact ⟨_, step_of_rst hr, alike_of_readsCnt c d hs, by simp [hr]⟩
  · rw [Bool.not_eq_true] at hr
    by_cases hi : s.phase = .idle
    · by_cases hc : s.cmd = []
      · cases (step_of_idle_nil hi hc).symm.trans h
        exact ⟨_, step_of_idle_nil hi hc, alike_of_readsCnt c d hs, by simp [hc]⟩
      · obtain ⟨e, es, hc⟩ := List.exists_cons_of_ne_nil hc
        rw [step_of_idle_cons hr hi hc] at h
        obtain ⟨t', ht', hR⟩ := perform_sameButCnt (s := { s with cmd := es, desc := e }) c hs h
        obtain ⟨ha, hd⟩ := hR.alike
        refine ⟨t', ?_, ha, fun _ => hd⟩
        exact (step_of_idle_cons (s := { s with cnt := c, desc := d }) hr hi hc).trans ht'
    · obtain rfl := hd hi
      rw [step_of_busy hr hi] at h
      obtain ⟨t', ht', hR⟩ := perform_sameButCnt c hs h
      obtain ⟨ha, hd⟩ := hR.alike
      exact ⟨t', (step_of_busy (s := { s with cnt := c }) hr hi).trans ht', ha, fun _ => hd⟩

/-- Settles O3: from IDLE with another `CNT` and `DESC`, and from the phases that do not read `CNT` with another one. -/
theorem idleCntAndDescAreUnobservable : Obligations.IdleCntAndDescAreUnobservable := by
  refine ⟨fun s t c d hi h => ?_, fun s t c hs h => ?_⟩
  · obtain ⟨t', ht', ha, hd⟩ := step_alike c d (by rw [hi]; rfl) (absurd hi) h
    exact ⟨t', ht', ha, fun hr hc => hd (.inr ⟨hr, hc⟩)⟩
  · obtain ⟨t', ht', ha, hd⟩ := step_alike c s.desc hs (fun _ => rfl) h
    exact ⟨t', ht', ha, hd (.inl rfl)⟩

end Sys2Proof.Machine
end

section
/-! PROOFS. The frame of a command (spec/10_state.md R23, spec/20_memory.md R26, R27, R39), and the command that a step
outside IDLE goes on with (spec/10_state.md R12, spec/42_framer.md R89, spec/60_exceptions.md R139). -/

namespace Sys2Proof.Machine

/-! ### The channels -/

/-- PIN only loses bytes at its head. -/
theorem line_pin {p : Plan} {s s' : State} (h : Line p s s') : s'.pin <:+ s.pin := by
  cases h with
  | drainTake _ _ hp | absorbTake _ _ hp => exact hp ▸ List.suffix_cons ..
  | pay _ hb | payLast _ hb =>
    obtain ⟨-, rfl⟩ | ⟨-, hp⟩ := hb
    · exact List.suffix_rfl
    · exact hp ▸ List.suffix_cons ..
  | _ => exact List.suffix_rfl

/-- WOUT only gains items at its end. -/
theorem line_wout {p : Plan} {s s' : State} (h : Line p s s') : s.wout <+: s'.wout := by
  obtain ⟨dw, -, hw, -⟩ := line_outputs h
  exact ⟨dw, hw.symm⟩

/-- Only the line that ends the command puts a response. -/
theorem line_rsp {p : Plan} {s s' : State} (h : Line p s s') :
    s'.rsp = s.rsp ∨ s'.phase = .idle ∧ ∃ r, s'.rsp = s.rsp ++ [r] := by
  cases h with
  | rsp => exact .inr ⟨rfl, _, rfl⟩
  | _ => exact .inl rfl

theorem perform_pin {p : Plan} {s t : State} (h : perform p s = .next t) : t.pin <:+ s.pin :=
  perform_induct (fun s t => t.pin <:+ s.pin) (fun _ => List.suffix_rfl)
    (fun _ _ _ hl ih => ih.trans (line_pin (line_of_planTick hl))) h

theorem perform_wout {p : Plan} {s t : State} (h : perform p s = .next t) : s.wout <+: t.wout :=
  perform_induct (fun s t => s.wout <+: t.wout) (fun _ => List.prefix_rfl)
    (fun _ _ _ hl ih => (line_wout (line_of_planTick hl)).trans ih) h

/-- From any state, coherent or not, a command is a run of lines, and at most one more, which ends it. -/
theorem run_of_advance {p : Plan} {n : Nat} {s t : State} (h : advance n p s = .next t) :
    ∃ m u, PlanRun p m s u ∧ (t = u ∨ planTick p u = .moves t) := by
  induction n generalizing s with
  | zero => cases h; exact ⟨0, _, .refl _, .inl rfl⟩
  | succ n ih =>
    rw [advance] at h
    split at h
    · next s' hs =>
      split at h
      · cases h; exact ⟨0, s, .refl s, .inr hs⟩
      · next hi =>
        obtain ⟨m, u, hr, hu⟩ := ih h
        exact ⟨m + 1, u, .cons hs hi hr, hu⟩
    · cases h; exact ⟨0, _, .refl _, .inl rfl⟩
    · cases h

theorem run_rsp {p : Plan} {n : Nat} {s t : State} (h : PlanRun p n s t) : t.rsp = s.rsp := by
  induction h with
  | refl => rfl
  | cons hl hi _ ih =>
    obtain hr | ⟨hi', -⟩ := line_rsp (line_of_planTick hl)
    · exact ih.trans hr
    · exact absurd hi' hi

/-- A command puts at most one response. -/
theorem perform_rsp {p : Plan} {s t : State} (h : perform p s = .next t) :
    t.rsp = s.rsp ∨ ∃ r, t.rsp = s.rsp ++ [r] := by
  obtain ⟨m, u, hr, rfl | hu⟩ := run_of_advance h
  · exact .inl (run_rsp hr)
  · rw [← run_rsp hr]
    exact (line_rsp (line_of_planTick hu)).imp_right And.right

/-! ### The kinds of command -/

theorem perform_engine_wout {n : Half} {acc : Accumulator} {s t : State} (h : perform (.engine n acc) s = .next t) :
    t.wout = s.wout :=
  perform_keeps State.wout (fun hl => by cases hl <;> rfl) h

/-- A frame of zeros takes no byte from PIN (42_framer.md R94). -/
theorem perform_zeros_pin {size : BlockSize} {seq : Byte} {mode : ChecksumMode} {s t : State}
    (h : perform (.framing size seq mode .zeros) s = .next t) : t.pin = s.pin :=
  perform_keeps State.pin (fun hl => by
    cases hl with
    | pay _ hb | payLast _ hb =>
      obtain ⟨-, rfl⟩ | ⟨hb, -⟩ := hb
      · rfl
      · cases hb
    | _ => rfl) h

/-- An overlong frame command is refused (42_framer.md R88, R93). -/
theorem planOfInstr_of_lengthError {i : Instr} (h : i.lengthError ≠ none) : ∃ n e, planOfInstr i = .refuse n e := by
  cases i with
  | fdata mode size seq n => exact ⟨n, _, if_pos (by simpa [Instr.lengthError] using h)⟩
  | fmeta mode n fsize => exact ⟨n, _, if_pos (by simpa [Instr.lengthError] using h)⟩
  | sum8 | crc16 | rdsum | rdcrc | fterm => exact absurd rfl h

/-- Settles O34: what every line keeps, and what the lines of each kind of command do. -/
theorem commandFrame : Obligations.CommandFrame := by
  intro i s t h
  rw [exec_eq_perform] at h
  have hfixed := perform_fixedFields h
  simp only [fixedFields, Prod.mk.injEq] at hfixed
  obtain ⟨hdesc, hrst, hplatform, hcmd⟩ := hfixed
  obtain ⟨taken, hpin⟩ := perform_pin h
  obtain ⟨put, hwout⟩ := perform_wout h
  refine ⟨hdesc, hrst, hplatform, hcmd, ⟨taken, hpin.symm⟩, ⟨put, hwout.symm⟩, perform_rsp h, ?_, ?_, ?_, ?_⟩
  · rintro (rfl | rfl)
    · exact perform_readback_keeps h
    · exact perform_readback_keeps h
  · rintro n (rfl | rfl)
    · exact perform_engine_wout h
    · exact perform_engine_wout h
  · rintro mode rfl
    exact perform_zeros_pin h
  · intro hl
    obtain ⟨n, e, hp⟩ := planOfInstr_of_lengthError hl
    exact perform_refuse_keeps (hp ▸ h)

/-! ### A refused descriptor, taken up inside its drain -/

/-- The missing bytes are there: they are taken and the error is answered. -/
theorem perform_refuse_supplied {n : Half} {e : CmdError} {s : State} (hp : s.phase = .drain) (hc : s.cnt ≤ n)
    (hpin : n.toNat - s.cnt.toNat ≤ s.pin.length) (hr : RspAccepts s) :
    perform (.refuse n e) s = .next { s with
      pin := s.pin.drop (n.toNat - s.cnt.toNat), rsp := s.rsp ++ [response (statusOf e) 0x0000], cnt := n,
      phase := .idle } := by
  rw [BitVec.le_def] at hc
  have hlen : (s.pin.take (n.toNat - s.cnt.toNat)).length = n.toNat - s.cnt.toNat := List.length_take_of_le hpin
  have hcnt : BitVec.ofNat 16 (s.cnt.toNat + (n.toNat - s.cnt.toNat)) = n := by
    rw [Nat.add_sub_cancel' hc]; simp
  have hdrain := run_drain (len := n) (e := e) (s.pin.take (n.toNat - s.cnt.toNat)) (s.pin.drop (n.toNat - s.cnt.toNat))
    s hp (List.take_append_drop _ _).symm (by omega)
  rw [hlen, hcnt] at hdrain
  have hdone := hdrain.trans (.line (.drainDone hp (by simp)) (by simp))
  have hf : phaseFits (.refuse n e) s.phase s.cnt = true := by simpa [hp, phaseFits, BitVec.le_def] using hc
  exact perform_of_run hdone (planTick_of_line (.rsp rfl (accepts_one.mp hr))) rfl (run_length_lt hdone hf)

/-- Too few bytes are there: they are taken and the drain goes on. -/
theorem perform_refuse_short {n : Half} {e : CmdError} {s : State} (hp : s.phase = .drain)
    (hpin : s.pin.length < n.toNat - s.cnt.toNat) :
    perform (.refuse n e) s = .next { s with
      pin := [], cnt := BitVec.ofNat 16 (s.cnt.toNat + s.pin.length) } := by
  have hn := n.isLt
  have hdrain := run_drain (len := n) (e := e) s.pin [] s hp (List.append_nil _).symm (by omega)
  have hlt : BitVec.ofNat 16 (s.cnt.toNat + s.pin.length) < n := by
    rw [BitVec.lt_def, BitVec.toNat_ofNat, Nat.mod_eq_of_lt (by omega)]; omega
  have hf : phaseFits (.refuse n e) s.phase s.cnt = true := by
    simp only [hp, phaseFits, BitVec.le_def, decide_eq_true_eq]; omega
  exact perform_of_hold hdrain (planTick_eq_hold.mpr (.drain hp hlt rfl)) (run_length_lt hdrain hf)

/-- All bytes are taken: the error is answered. -/
theorem perform_refuse_answers {n : Half} {e : CmdError} {s : State} (hp : s.phase = .rsp) (hr : RspAccepts s) :
    perform (.refuse n e) s = .next { s with
      rsp := s.rsp ++ [response (statusOf e) 0x0000], phase := .idle } :=
  perform_of_run (.refl s) (planTick_of_line (.rsp hp (accepts_one.mp hr))) rfl (by decide)

/-- Settles O38: the plan of `DESC`, and for a refused one the three ways its step ends. -/
theorem stepResumesTheCommandInDesc : Obligations.StepResumesTheCommandInDesc := by
  intro s hr hi
  have hstep := step_of_busy hr hi
  refine ⟨hstep.trans (runDescriptor_eq_perform _ _).symm, fun i hd => ?_, fun e hd => ?_⟩
  · rw [hstep, planOfDescriptor_of_ok hd, exec_eq_perform]
  · rw [planOfDescriptor_of_error hd] at hstep
    refine ⟨hstep, fun hp hc => ⟨fun hpin hr => ?_, fun hpin => ?_⟩, fun hp hr => ?_⟩
    · exact hstep.trans (perform_refuse_supplied hp hc hpin hr)
    · exact hstep.trans (perform_refuse_short hp hpin)
    · exact hstep.trans (perform_refuse_answers hp hr)

/-! ### One byte step and the accumulators -/

/-- What a line does to the accumulators (10_state.md R18, R19). -/
theorem line_accumulators {p : Plan} {s s' : State} (h : Line p s s') :
    (s'.crc = s.crc ∧ s'.sum = s.sum) ∨ (s'.crc = 0x0000 ∧ s'.sum = 0x00) ∨
      ∃ b, s'.crc = crcStep s.crc b ∧ s'.sum = sumStep s.sum b := by
  cases h with
  | engineStart | frameStart => exact .inr (.inl ⟨rfl, rfl⟩)
  | absorbTake | pay | payLast => exact .inr (.inr ⟨_, rfl, rfl⟩)
  | _ => exact .inl ⟨rfl, rfl⟩

/-- Settles O47: every byte step is a line. -/
theorem accumulatorsChangeOnlyByClearAndAbsorb : Obligations.AccumulatorsChangeOnlyByClearAndAbsorb := by
  intro s t h
  obtain ⟨d, ds, hl⟩ := tick_eq_moves h
  exact line_accumulators (s := { s with cmd := ds, desc := d }) hl

/-! ### Reset -/

theorem within_zero (cap : Option Nat) : within cap 0 = true := by
  cases cap <;> simp [within]

/-- Settles O1: the values R21 gives. -/
theorem resetClearsAccumulatorsAndIsIdle : Obligations.ResetClearsAccumulatorsAndIsIdle :=
  ⟨rfl, rfl, rfl⟩

/-- Settles O52: IDLE fits every command, and an empty channel every capacity. -/
theorem resetIsCoherent : Obligations.ResetIsCoherent := fun _ =>
  ⟨phaseFits_idle _ _, within_zero _, within_zero _, within_zero _, within_zero _⟩

end Sys2Proof.Machine
end

section
/-! SUPPORT. The step by its current descriptor, and the answer at the end of a run (spec/42_framer.md R89). -/

namespace Sys2Proof.Machine

/-- The state in which the command of `d` runs: in IDLE the head of CMD has been taken, and `d` is latched (10_state.md
R12). -/
abbrev latched (s : State) (d : Descriptor) : State :=
  { s with cmd := if s.phase = .idle then s.cmd.tail else s.cmd, desc := d }

theorem step_of_no_descriptor {s : State} (h : currentDescriptor s = none) : step s = .next s := by
  unfold currentDescriptor at h
  split_ifs at h with hr hi
  · exact step_of_rst hr
  · exact step_of_idle_nil hi (List.head?_eq_none_iff.mp h)

/-- With a current descriptor the step is the run of its command. -/
theorem step_of_descriptor {s : State} {d : Descriptor} (h : currentDescriptor s = some d) :
    step s = perform (planOfDescriptor d) (latched s d) := by
  unfold currentDescriptor at h
  split_ifs at h with hr hi
  · obtain ⟨ds, hc⟩ := List.head?_eq_some_iff.mp h
    simpa [latched, hi, hc] using step_of_idle_cons (Bool.eq_false_iff.mpr hr) hi hc
  · cases h
    simpa [latched, hi] using step_of_busy (Bool.eq_false_iff.mpr hr) hi

/-- In a coherent state the phase fits the current descriptor. -/
theorem fits_of_descriptor {s : State} {d : Descriptor} (hf : phaseFits (planOfDescriptor s.desc) s.phase s.cnt = true)
    (h : currentDescriptor s = some d) : phaseFits (planOfDescriptor d) s.phase s.cnt = true := by
  unfold currentDescriptor at h
  split_ifs at h with hr hi
  · rw [hi]; exact phaseFits_idle _ _
  · cases h; exact hf

theorem rst_of_descriptor {s : State} {d : Descriptor} (h : currentDescriptor s = some d) : s.rst = false := by
  unfold currentDescriptor at h
  split_ifs at h with hr hi <;> exact Bool.eq_false_iff.mpr hr

/-- A run up to the response, and the response: the whole command. -/
theorem perform_of_run_to_rsp {p : Plan} {n : Nat} {s u : State} (h : PlanRun p n s u)
    (hf : phaseFits p s.phase s.cnt = true) (hu : u.phase = .rsp) (hr : RspAccepts s) :
    perform p s = .next { u with rsp := s.rsp ++ [response (p.answer u).1 (p.answer u).2], phase := .idle } := by
  obtain ⟨-, -, hplatform, -⟩ := run_keeps h
  have hrsp := run_rsp h
  rw [RspAccepts, accepts_one, ← hplatform, ← hrsp] at hr
  rw [← hrsp]
  exact perform_of_run h (planTick_of_line (.rsp hu hr)) rfl (run_length_lt h hf)

/-- A run from the head of CMD is a run of the block. -/
theorem ticks_of_idle_run {n : Nat} {s t : State} {d : Descriptor} {ds : List Descriptor} (hr : s.rst = false)
    (hi : s.phase = .idle) (hc : s.cmd = d :: ds)
    (h : PlanRun (planOfDescriptor d) (n + 1) { s with cmd := ds, desc := d } t) : ticks (n + 1) s = some t := by
  cases h with
  | cons hl hi' hrun =>
    obtain ⟨hdesc, hrst, -, -⟩ := planTick_keeps hl
    rw [ticks, tick_of_idle_cons hr hi hc, hl]
    exact ticks_of_run hrun (by rw [hdesc]) (hrst.trans hr) hi'

end Sys2Proof.Machine
end

section
/-! PROOFS. What a command takes from PIN and puts on WOUT, in all and byte by byte
(spec/20_memory.md R27, R35, R36). -/

namespace Sys2Proof.Machine

open Sys2Proof.Laws.EncodesInFormatD (len)

/-- The `len` field of an accepted descriptor is its command's operand, and 0 where it has none (30_encoding.md R44). -/
theorem fieldLen_of_decodeRow {d : Descriptor} {i : Instr} (h : decodeRow d = .ok i) : fieldLen d = len i := by
  unfold decodeRow at h
  split at h
  case h_8 => cases h
  all_goals
    split_ifs at h with hzero
    cases h
    simp [len, hzero]

/-- The length of a frame (30_encoding.md R55). -/
theorem frame_length (k : Bool) (size : BlockSize) (seq : Byte) (pay : List Byte) (mode : ChecksumMode) :
    (frame k size seq pay mode).length = 3 + pay.length + trailerLength mode := by
  cases mode <;> simp [frame, trailerLength] <;> omega

/-- A run from IDLE to the response that takes `m` bytes from PIN and puts `k` bytes on WOUT. -/
def RunsToResponse (p : Plan) (m k : Nat) (s : State) : Prop :=
  ∃ n u put, PlanRun p n s u ∧ u.phase = .rsp ∧ u.pin = s.pin.drop m ∧ u.wout = s.wout ++ put ∧ put.length = k

theorem runsToResponse_refuse {n : Half} {e : CmdError} {s : State} (hi : s.phase = .idle) (hs : Supplied n s) :
    RunsToResponse (.refuse n e) n.toNat 0 s :=
  ⟨_, _, [], run_refuse hi hs, rfl, rfl, (List.append_nil _).symm, rfl⟩

theorem runsToResponse_engine {n : Half} {acc : Accumulator} {s : State} (hi : s.phase = .idle) (hs : Supplied n s) :
    RunsToResponse (.engine n acc) n.toNat 0 s :=
  ⟨_, _, [], run_engine hi hs, rfl, rfl, (List.append_nil _).symm, rfl⟩

theorem runsToResponse_readback {acc : Accumulator} {s : State} (hi : s.phase = .idle) :
    RunsToResponse (.readback acc) 0 0 s :=
  ⟨_, _, [], .line (.readStart hi) nofun, rfl, rfl, (List.append_nil _).symm, rfl⟩

theorem runsToResponse_framing {size : BlockSize} {seq : Byte} {mode : ChecksumMode} {src : PaySource} {m : Nat}
    {pay : List Byte} {s : State} (hi : s.phase = .idle)
    (hd : draw src 0 (blocksize size) s.pin = some (pay, s.pin.drop m))
    (hw : WoutAccepts (3 + blocksize size + trailerLength mode) s) :
    RunsToResponse (.framing size seq mode src) m (3 + blocksize size + trailerLength mode) s :=
  ⟨_, _, _, run_framing hi hd hw, rfl, rfl, rfl, by rw [marked_length, frame_length, draw_length hd]⟩

/-- An accepted command takes its `len` bytes and puts the bytes of its row (20_memory.md R27). -/
theorem runsToResponse_planOfInstr {i : Instr} {s : State} (hw : i.WellFormed) (hi : s.phase = .idle)
    (hs : Supplied (len i) s) (hr : WoutAccepts (woutCount i) s) :
    RunsToResponse (planOfInstr i) (len i).toNat (woutCount i) s := by
  cases i with
  | sum8 | crc16 => exact runsToResponse_engine hi hs
  | rdsum | rdcrc => exact runsToResponse_readback hi
  | fdata mode size seq n =>
    rw [wellFormed_fdata] at hw
    rw [planOfInstr, fdataPlan_of_le hw]
    exact runsToResponse_framing hi (draw_supplied hw hs) hr
  | fmeta mode n fsize =>
    rw [wellFormed_fmeta] at hw
    rw [planOfInstr, fmetaPlan_of_le hw]
    exact runsToResponse_framing hi (draw_metadata hw hs) hr
  | fterm mode => exact runsToResponse_framing hi (draw_zeros 128 s.pin) hr

/-- How many bytes a descriptor puts on WOUT: those of its row, and none where it is refused. -/
def woutCountOf (d : Descriptor) : Nat :=
  match decode d with
  | .ok i => woutCount i
  | .error _ => 0

theorem woutCountOf_of_ok {d : Descriptor} {i : Instr} (h : decode d = .ok i) : woutCountOf d = woutCount i := by
  rw [woutCountOf, h]

theorem woutCountOf_of_error {d : Descriptor} {e : CmdError} (h : decode d = .error e) : woutCountOf d = 0 := by
  rw [woutCountOf, h]

/-- Every descriptor, accepted or refused, takes its `len` bytes and puts the bytes of its row. -/
theorem runsToResponse_planOfDescriptor {d : Descriptor} {s : State} (hi : s.phase = .idle)
    (hs : Supplied (fieldLen d) s) (hw : ∀ i, decode d = .ok i → WoutAccepts (woutCount i) s) :
    RunsToResponse (planOfDescriptor d) (fieldLen d).toNat (woutCountOf d) s := by
  cases hd : decode d with
  | error e =>
    rw [planOfDescriptor_of_error hd, woutCountOf_of_error hd]
    exact runsToResponse_refuse hi hs
  | ok i =>
    obtain ⟨hrow, hwf⟩ := decode_eq_ok.mp hd
    rw [planOfDescriptor_of_ok hd, woutCountOf_of_ok hd]
    rw [fieldLen_of_decodeRow hrow] at hs ⊢
    exact runsToResponse_planOfInstr hwf hi hs (hw i hd)

/-- Settles O33: the run to the response, and the response. -/
theorem everyDescriptorTakesItsLenBytesAndAnswersOnce :
    Obligations.EveryDescriptorTakesItsLenBytesAndAnswersOnce := by
  intro d ds s hc ⟨hrst, hi, hs, hr, hw⟩
  obtain ⟨n, u, put, hrun, hu, hpin, hwout, hput⟩ :=
    runsToResponse_planOfDescriptor (s := { s with cmd := ds, desc := d }) hi hs hw
  obtain ⟨-, -, -, hcmd⟩ := run_keeps hrun
  refine ⟨_, (step_of_idle_cons hrst hi hc).trans (perform_of_run_to_rsp hrun (hi ▸ phaseFits_idle _ _) hu hr),
    rfl, hcmd, hpin, ?_, ?_, _, rfl⟩
  · exact (congrArg List.length hwout).trans (List.length_append.trans (congrArg (_ + ·) hput))
  · simp only [hwout, List.take_left]

/-! ### The payload of `FDATA`, up to a byte of it -/

/-- The first `k` payload bytes of `FDATA`, and the PIN bytes they leave (20_memory.md R36 item 3). -/
theorem draw_dataPayload {size : BlockSize} {n : Half} {k : Nat} {s : State} (hn : n.toNat ≤ blocksize size)
    (hs : Supplied n s) (hk : k ≤ blocksize size) :
    draw (.supplied n) 0 k s.pin = some ((dataPayload size n s).take k, s.pin.drop (min k n.toNat)) := by
  obtain ⟨m, hm⟩ := Nat.exists_eq_add_of_le hk
  have hall := draw_supplied hn hs
  rw [hm] at hall
  obtain ⟨pin', hfirst, -⟩ := draw_split hall
  have hrest : ∀ {bs rest}, draw (.supplied n) 0 k s.pin = some (bs, rest) → pin' = rest := fun h =>
    (Prod.mk.inj (Option.some.inj (hfirst.symm.trans h))).2
  rw [dataPayload, hm, hfirst]
  obtain hkn | hkn := Nat.le_total k n.toNat
  · rw [Nat.min_eq_left hkn, hrest (draw_pin 0 k s.pin (fun j hj => if_pos (by omega)) (hkn.trans hs))]
  · rw [Nat.min_eq_right hkn, hrest (draw_supplied hkn hs)]

/-- PAY up to any payload byte, the last included. -/
theorem run_pay_first {size : BlockSize} {seq : Byte} {mode : ChecksumMode} {src : PaySource} {k : Nat}
    {bs rest : List Byte} {s : State} (hp : s.phase = .pay) (hc : s.cnt = 0) (hd : draw src 0 k s.pin = some (bs, rest))
    (hk : k ≤ blocksize size) (hw : WoutAccepts k s) :
    ∃ u, PlanRun (.framing size seq mode src) k s u ∧ u.pin = rest ∧ u.rsp = s.rsp ∧
      u.wout = s.wout ++ bs.map (fun b => ⟨b, false⟩) := by
  obtain hk | rfl := Nat.lt_or_eq_of_le hk
  · exact ⟨_, run_pay k bs rest s hp (by simpa [hc] using hd) (by simpa [hc] using hk) hw, rfl, rfl, rfl⟩
  · exact ⟨_, run_payload hp hc hd hw, rfl, rfl, rfl⟩

/-- A frame from IDLE up to any payload byte, the last included. -/
theorem run_to_payload_byte {size : BlockSize} {seq : Byte} {mode : ChecksumMode} {src : PaySource} {k : Nat}
    {bs rest : List Byte} {s : State} (hi : s.phase = .idle) (hd : draw src 0 k s.pin = some (bs, rest))
    (hk : k ≤ blocksize size) (hw : WoutAccepts (3 + k) s) :
    ∃ u, PlanRun (.framing size seq mode src) (4 + k) s u ∧ u.pin = rest ∧ u.rsp = s.rsp ∧
      u.wout = s.wout ++ ([header size, seq, seqComplement seq] ++ bs).map (fun b => ⟨b, false⟩) := by
  obtain ⟨hw3, hwpay⟩ := accepts_add hw
  have hheader := run_header (size := size) (seq := seq) (mode := mode) (src := src) hi hw3
  obtain ⟨u, hpay, hpin, hrsp, hwout⟩ := run_pay_first (size := size) (seq := seq) (mode := mode)
    (s := { clear s with
      wout := s.wout ++ [⟨header size, false⟩, ⟨seq, false⟩, ⟨seqComplement seq, false⟩], phase := .pay, cnt := 0 })
    rfl rfl hd hk (by simpa [WoutAccepts] using hwpay)
  exact ⟨u, hheader.trans hpay, hpin, hrsp, by simp [hwout]⟩

/-- Settles O46: the accepted `FDATA` as a frame, run from IDLE to payload byte `i`. -/
theorem pinBytesTakenWhenPayloadByteAppears : Obligations.PinBytesTakenWhenPayloadByteAppears := by
  intro d ds mode size seq n s i hc hd ⟨hrst, hi, hs, _, hw⟩ hlt
  obtain ⟨hrow, hwf⟩ := decode_eq_ok.mp hd
  rw [wellFormed_fdata] at hwf
  rw [fieldLen_of_decodeRow hrow] at hs
  have hplan : planOfDescriptor d = .framing size seq mode (.supplied n) :=
    (planOfDescriptor_of_ok hd).trans (fdataPlan_of_le hwf)
  obtain ⟨k, hk⟩ : ∃ k, woutCount (.fdata mode size seq n) = 3 + (i + 1) + k :=
    Nat.exists_eq_add_of_le (by simp only [woutCount]; omega)
  have hroom : WoutAccepts (3 + (i + 1)) s := (accepts_add (hk ▸ hw _ hd)).1
  obtain ⟨u, hrun, hu⟩ := run_to_payload_byte (seq := seq) (mode := mode) (s := { s with cmd := ds, desc := d }) hi
    (draw_dataPayload hwf hs hlt) hlt hroom
  exact ⟨u, ticks_of_idle_run (n := 4 + i) hrst hi hc (hplan ▸ hrun), hu⟩

end Sys2Proof.Machine
end

section
/-! PROOFS. What the channels do to the block and the block to the channels: CMD inside a command, the order of the
response, the host's end (spec/20_memory.md R26, R33, R35, R37, R39). -/

namespace Sys2Proof.Machine

/-! ### CMD inside a command -/

/-- A line looks at no item of CMD. -/
theorem line_withCmd {p : Plan} {s s' : State} (h : Line p s s') (ds : List Descriptor) :
    Line p { s with cmd := ds } { s' with cmd := ds } := by
  cases h with
  | rsp h hr =>
    rw [← answer_eq (s := { s with cmd := ds }) (t := s) rfl rfl]
    exact .rsp (s := { s with cmd := ds }) h hr
  | _ => constructor <;> assumption

/-- A hold inside a command is not for CMD. -/
theorem blocked_withCmd {p : Plan} {s : State} (h : Blocked p s) (ds : List Descriptor) :
    Blocked p { s with cmd := ds } := by
  cases h with
  | drain h hc hp => exact .drain h hc hp
  | absorb h hc hp => exact .absorb h hc hp
  | frame h hr => exact .frame h hr
  | pay h hb hp => exact .pay h hb hp
  | rsp h hr => exact .rsp h hr

theorem perform_withCmd {p : Plan} {s t : State} (h : perform p s = .next t) (ds : List Descriptor) :
    perform p { s with cmd := ds } = .next { t with cmd := ds } := by
  obtain ⟨v, hv, rfl⟩ := perform_sim (fun s u => u = { s with cmd := ds }) (fun _ _ hu => by rw [hu])
    (fun _ _ s' hu hl => ⟨{ s' with cmd := ds },
      hu ▸ planTick_of_line (line_withCmd (line_of_planTick hl) ds), rfl⟩)
    (fun _ _ hu hh => hu ▸ planTick_eq_hold.mpr (blocked_withCmd (planTick_eq_hold.mp hh) ds)) rfl h
  exact hv

/-- Settles O39: outside IDLE the step is the latched command, whatever CMD holds. -/
theorem commandInProgressIgnoresCmd : Obligations.CommandInProgressIgnoresCmd := by
  intro s t ds hi h
  by_cases hr : s.rst = true
  · cases (step_of_rst hr).symm.trans h
    exact step_of_rst (s := { s with cmd := ds }) hr
  · rw [Bool.not_eq_true] at hr
    rw [step_of_busy hr hi] at h
    exact (step_of_busy (s := { s with cmd := ds }) hr hi).trans (perform_withCmd h ds)

/-! ### The response -/

/-- The line that puts the response does nothing else, and ends the command. -/
theorem line_of_rsp_ne {p : Plan} {s s' : State} (h : Line p s s') (hne : s'.rsp ≠ s.rsp) :
    s'.phase = .idle ∧ s'.crc = s.crc ∧ s'.sum = s.sum ∧ s'.pin = s.pin ∧ s'.wout = s.wout ∧
      ∃ r, s'.rsp = s.rsp ++ [r] := by
  cases h with
  | rsp => exact ⟨rfl, rfl, rfl, rfl, rfl, _, rfl⟩
  | _ => exact absurd rfl hne

/-- Settles O48: every byte step is a line. -/
theorem responseComesAfterEveryOtherEffect : Obligations.ResponseComesAfterEveryOtherEffect := by
  intro s t h hne
  obtain ⟨d, ds, hl⟩ := tick_eq_moves h
  exact line_of_rsp_ne (s := { s with cmd := ds, desc := d }) hl hne

/-! ### The next descriptor, and the host's end -/

/-- Settles O37: the plan of an accepted descriptor is its command's. -/
theorem stepRunsTheDecodedCommand : Obligations.StepRunsTheDecodedCommand := by
  intro s d ds i hr hi hc hd
  rw [step_of_idle_cons hr hi hc, planOfDescriptor_of_ok hd, exec_eq_perform]

/-- Settles O50: each action that is possible has its effect alone. -/
theorem channelsAreFirstInFirstOut : Obligations.ChannelsAreFirstInFirstOut := by
  intro s t
  simp only [act]
  refine ⟨fun d h => ?_, fun b h => ?_, fun h => ?_, fun h => ?_⟩
  · split at h <;> cases h
    rfl
  · split at h <;> cases h
    rfl
  · split at h <;> cases h
    next w ws hw => exact ⟨w, hw, rfl⟩
  · split at h <;> cases h
    next r rs hr => exact ⟨r, hr, rfl⟩

end Sys2Proof.Machine
end

section
/-! PROOFS. No result depends on a capacity (spec/20_memory.md R29, spec/70_reset_and_hazards.md R163): a command does
the same on unbounded channels, and there whatever its outputs hold. -/

namespace Sys2Proof.Machine

/-! ### Bounded and unbounded channels -/

/-- A run does the same on unbounded channels. -/
theorem run_unbounded {p : Plan} {n : Nat} {s t : State} (h : PlanRun p n s t) :
    PlanRun p n s.unbounded t.unbounded := by
  obtain ⟨dw, dr, hw, hr, hrun⟩ := run_outputs h
  have := hrun s.wout s.rsp
  rwa [← hw, ← hr] at this

theorem line_unbounded {p : Plan} {s t : State} (h : Line p s t) : Line p s.unbounded t.unbounded := by
  obtain ⟨dw, dr, hw, hr, hline⟩ := line_outputs h
  have := hline s.wout s.rsp
  rwa [← hw, ← hr] at this

/-- A command that completes does the same on unbounded channels. -/
theorem perform_unbounded_of_idle {p : Plan} {s t : State} (hf : phaseFits p s.phase s.cnt = true)
    (h : perform p s = .next t) (ht : t.phase = .idle) : perform p s.unbounded = .next t.unbounded := by
  obtain ⟨n, u, hrun, hu, -, ⟨-, hp⟩ | ⟨v, hv, hvi, hp⟩⟩ := perform_cases hf
  · cases hp.symm.trans h
    exact absurd ht hu
  · cases hp.symm.trans h
    exact perform_of_run (run_unbounded hrun) (planTick_of_line (line_unbounded (line_of_planTick hv))) hvi
      (run_length_lt hrun hf)

/-- A command that does not complete has run to where it holds. -/
theorem run_of_perform_busy {p : Plan} {s t : State} (hf : phaseFits p s.phase s.cnt = true)
    (h : perform p s = .next t) (ht : t.phase ≠ .idle) : ∃ n, PlanRun p n s t := by
  obtain ⟨n, u, hrun, -, -, ⟨-, hp⟩ | ⟨v, -, hvi, hp⟩⟩ := perform_cases hf
  · cases hp.symm.trans h
    exact ⟨n, hrun⟩
  · cases hp.symm.trans h
    exact absurd hvi ht

/-! ### Items taken from unbounded outputs -/

/-- The channels of `s` are unbounded, they hold at least `j` bytes and `k` words, and `u` is `s` without these. -/
structure Taken (j k : Nat) (s u : State) : Prop where
  unbounded : s.unbounded.platform = s.platform
  bytes : j ≤ s.wout.length
  words : k ≤ s.rsp.length
  eq : u = s.afterTaking j k

theorem unbounded_eq_self {s : State} (h : s.unbounded.platform = s.platform) : s.unbounded = s := by
  rw [show s.unbounded = { s with platform := s.unbounded.platform } from rfl, h]

/-- A line puts the same where items have been taken (20_memory.md R26). -/
theorem Taken.line {p : Plan} {j k : Nat} {s u s' : State} (h : Taken j k s u) (hl : planTick p s = .moves s') :
    ∃ u', planTick p u = .moves u' ∧ Taken j k s' u' := by
  obtain ⟨hs, hj, hk, rfl⟩ := h
  obtain ⟨-, -, hplatform, -⟩ := planTick_keeps hl
  obtain ⟨dw, dr, hw, hr, hline⟩ := line_outputs (line_of_planTick hl)
  have hs' : s'.unbounded.platform = s'.platform := by
    rw [unbounded_platform, hplatform]; exact hs
  have hafter : Line p (s.afterTaking j k) (s'.afterTaking j k) := by
    have := hline (s.wout.drop j) (s.rsp.drop k)
    rwa [← List.drop_append_of_le_length hj, ← List.drop_append_of_le_length hk, ← hw, ← hr, withOutputs, withOutputs,
      unbounded_eq_self hs, unbounded_eq_self hs'] at this
  exact ⟨_, planTick_of_line hafter, hs', by rw [hw, List.length_append]; omega,
    by rw [hr, List.length_append]; omega, rfl⟩

/-- Unbounded channels hold for PIN alone. -/
theorem Taken.hold {p : Plan} {j k : Nat} {s u : State} (h : Taken j k s u) (hh : planTick p s = .hold) :
    planTick p u = .hold := by
  obtain ⟨hs, -, -, rfl⟩ := h
  rw [planTick_eq_hold] at hh ⊢
  cases hh with
  | drain h hc hp => exact .drain h hc hp
  | absorb h hc hp => exact .absorb h hc hp
  | pay h hb hp => exact .pay h hb hp
  | frame _ hr | rsp _ hr => rw [← hs] at hr; cases hr

/-- A command on unbounded channels ends the same where items have been taken, but for these. -/
theorem perform_afterTaking {p : Plan} {j k : Nat} {s v : State} (hj : j ≤ s.wout.length) (hk : k ≤ s.rsp.length)
    (h : perform p s.unbounded = .next v) :
    perform p (s.unbounded.afterTaking j k) = .next (v.afterTaking j k) := by
  obtain ⟨u, hu, ht⟩ := perform_sim (Taken j k) (fun _ _ h => h.eq ▸ rfl) (fun _ _ _ hR hl => hR.line hl)
    (fun _ _ hR hh => hR.hold hh) (s := s.unbounded) ⟨rfl, hj, hk, rfl⟩ h
  rw [hu, ht.eq]

/-- From a phase of the command it never stops with a fault. -/
theorem perform_next {p : Plan} {s : State} (hf : phaseFits p s.phase s.cnt = true) : ∃ t, perform p s = .next t := by
  obtain ⟨_, _, -, -, -, ⟨-, hp⟩ | ⟨_, -, -, hp⟩⟩ := perform_cases hf
  · exact ⟨_, hp⟩
  · exact ⟨_, hp⟩

/-! ### The step -/

/-- A step that completes does the same on unbounded channels. -/
theorem step_unbounded_of_idle {s t : State} (hf : phaseFits (planOfDescriptor s.desc) s.phase s.cnt = true)
    (h : step s = .next t) (ht : t.phase = .idle) : step s.unbounded = .next t.unbounded := by
  cases hd : currentDescriptor s with
  | none =>
    cases (step_of_no_descriptor hd).symm.trans h
    exact step_of_no_descriptor (s := s.unbounded) hd
  | some d =>
    rw [step_of_descriptor hd] at h
    exact (step_of_descriptor (s := s.unbounded) hd).trans
      (perform_unbounded_of_idle (s := latched s d) (fits_of_descriptor (s := s) hf hd) h ht)

/-- Settles O51: a command that completes is the same run on unbounded channels; one that holds is taken up from there,
and its lines look at no item of the outputs. -/
theorem resultsDoNotDependOnCapacities : Obligations.ResultsDoNotDependOnCapacities := by
  intro s t hco h
  refine ⟨step_unbounded_of_idle hco.1 h, fun ht j k hj hk => ?_⟩
  cases hd : currentDescriptor s with
  | none =>
    cases (step_of_no_descriptor hd).symm.trans h
    refine ⟨s.unbounded, step_of_no_descriptor (s := s.unbounded) hd,
      step_of_no_descriptor (s := s.unbounded.afterTaking j k) hd, fun t' h' _ => ?_⟩
    cases (step_of_no_descriptor (s := s.afterTaking j k) hd).symm.trans h'
    rfl
  | some d =>
    rw [step_of_descriptor hd] at h
    have hf := fits_of_descriptor hco.1 hd
    obtain ⟨n, hrun⟩ := run_of_perform_busy (s := latched s d) hf h ht
    obtain ⟨hdesc, hrst, -, -⟩ := run_keeps hrun
    have hft : phaseFits (planOfDescriptor t.desc) t.phase t.cnt = true := hdesc ▸ fits_run hrun hf
    have hr : t.rst = false := hrst.trans (rst_of_descriptor (s := s) hd)
    obtain ⟨v, hv⟩ := perform_next (s := t.unbounded) hft
    have hv' : step (t.unbounded.afterTaking j k) = .next (v.afterTaking j k) :=
      (step_of_busy (s := t.unbounded.afterTaking j k) hr ht).trans (perform_afterTaking hj hk hv)
    refine ⟨v, ?_, hv', fun t' h' hi => ?_⟩
    · rw [step_of_descriptor (s := s.unbounded) hd, ← hv, hdesc]
      exact perform_eq_of_run (run_unbounded hrun) hf
    · have hunbounded := step_unbounded_of_idle (s := t.afterTaking j k) hft h' hi
      exact (Host.Outcome.next.inj (hv'.symm.trans hunbounded)).symm

end Sys2Proof.Machine
end

section
/-! PROOFS. The decoder and the encoder undo each other, and the decoder's row test is the match and mask of
opcode_table.json (spec/30_encoding.md R40 to R43, R49, R64). -/

namespace Sys2Proof

/-- A descriptor is assembled from its fields, and from no others. -/
theorem assemble_eq_iff {op : BitVec 4} {size mode : BitVec 1} {seq : Byte} {len : Half} {fsize : BitVec 32}
    {d : Descriptor} : assemble op size mode seq len fsize = d ↔
      fieldRsv d = 0 ∧ fieldOp d = op ∧ fieldSize d = size ∧ fieldMode d = mode ∧ fieldSeq d = seq ∧
        fieldLen d = len ∧ fieldFsize d = fsize := by
  constructor
  · rintro rfl
    simp
  · rintro ⟨hrsv, rfl, rfl, rfl, rfl, rfl, rfl⟩
    exact assemble_fields d hrsv

/-! ### Decoding and encoding -/

/-- The must-be-zero fields of an encoded command are 0, and its operands are read back. -/
theorem decodeRow_encode (i : Instr) : decodeRow (encode i) = .ok i := by
  cases i <;> simp [encode, decodeRow]

theorem fieldOp_eq_of_toNat {d : Descriptor} {n : Nat} (h : (fieldOp d).toNat = n) : fieldOp d = BitVec.ofNat 4 n := by
  rw [← h, BitVec.ofNat_toNat, BitVec.setWidth_eq]

/-- Each row of the decoder fixes every field that is no operand to the encoder's value. -/
theorem encode_of_decodeRow {d : Descriptor} {i : Instr} (h : decodeRow d = .ok i) : encode i = d := by
  unfold decodeRow at h
  split at h
  case h_8 => cases h
  all_goals
    next hop =>
    split_ifs at h with hzero
    cases h
    exact assemble_eq_iff.mpr (by simp [fieldOp_eq_of_toNat hop, hzero])

/-- A command has one descriptor, and the row test answers it for no other. -/
theorem decodeRow_eq_ok {d : Descriptor} {i : Instr} : decodeRow d = .ok i ↔ encode i = d :=
  ⟨encode_of_decodeRow, fun h => h ▸ decodeRow_encode i⟩

/-- Settles O4: the row test reads the command back, and the length test is the command's own. -/
theorem decodeOfEncodeIsTheCommand : Obligations.DecodeOfEncodeIsTheCommand := fun i =>
  ⟨decodeRow_encode i, fun hw => decode_eq_ok.mpr ⟨decodeRow_encode i, hw⟩⟩

/-- Settles O5: an accepted descriptor has passed the row test of its command. -/
theorem everyAcceptedDescriptorIsTheEncodingOfItsCommand :
    Obligations.EveryAcceptedDescriptorIsTheEncodingOfItsCommand := by
  intro d i h
  obtain ⟨hrow, hw⟩ := decode_eq_ok.mp h
  exact ⟨hw, encode_of_decodeRow hrow⟩

/-- Settles O6: each descriptor is run through the decoder. -/
theorem writtenDescriptorsDecodeToTheirCommands : Obligations.WrittenDescriptorsDecodeToTheirCommands := by
  unfold Obligations.WrittenDescriptorsDecodeToTheirCommands
  decide

/-! ### Match and mask -/

/-- A mask acts on each field of a descriptor by itself. -/
theorem and_eq_iff_fields {d mask pattern : Descriptor} (h : fieldRsv pattern = 0) :
    d &&& mask = pattern ↔
      fieldRsv d &&& fieldRsv mask = 0 ∧ fieldOp d &&& fieldOp mask = fieldOp pattern ∧
      fieldSize d &&& fieldSize mask = fieldSize pattern ∧ fieldMode d &&& fieldMode mask = fieldMode pattern ∧
      fieldSeq d &&& fieldSeq mask = fieldSeq pattern ∧ fieldLen d &&& fieldLen mask = fieldLen pattern ∧
      fieldFsize d &&& fieldFsize mask = fieldFsize pattern := by
  rw [eq_comm, ← assemble_fields pattern h, assemble_eq_iff, assemble_fields pattern h]
  simp only [fieldRsv, fieldOp, fieldSize, fieldMode, fieldSeq, fieldLen, fieldFsize, BitVec.extractLsb'_and]

/-- A mask of ones keeps a field. -/
theorem and_of_eq_allOnes {w : Nat} {x m : BitVec w} (h : m = BitVec.allOnes w) : x &&& m = x := by
  rw [h, BitVec.and_allOnes]

theorem BlockSize.exists_toBit (b : BitVec 1) : ∃ size : BlockSize, b = size.toBit := ⟨.ofBit b, by simp⟩

theorem ChecksumMode.exists_toBit (b : BitVec 1) : ∃ mode : ChecksumMode, b = mode.toBit := ⟨.ofBit b, by simp⟩

/-- Settles O9: both sides fix the same fields of the descriptor, row by row, to the same values: the mask has ones in
the fields that are no operand, and the match holds the encoder's values of them. -/
theorem decodingFollowsMatchAndMaskOfTheOpcodeTable : Obligations.DecodingFollowsMatchAndMaskOfTheOpcodeTable := by
  intro d
  simp only [decodeRow_eq_ok, encode, assemble_eq_iff]
  refine ⟨?_, ?_, ?_, ?_, ?_, ?_, ?_⟩
  all_goals
    rw [and_eq_iff_fields (by decide)]
    simp [fieldRsv, fieldOp, fieldSize, fieldMode, fieldSeq, fieldLen, fieldFsize, and_of_eq_allOnes,
      BlockSize.exists_toBit, ChecksumMode.exists_toBit]

end Sys2Proof
end

section
/-! PROOFS. The parts of a wire packet: the complement byte, the metadata payload, the frame
(spec/30_encoding.md R53, R55, R60, spec/42_framer.md R84, R95). -/

namespace Sys2Proof.Machine

/-! ### The complement byte -/

/-- Settles O19: NOT is XOR with ones, and the subtraction from ones has no borrow. -/
theorem seqComplementHasThreeEqualSpellings : Obligations.SeqComplementHasThreeEqualSpellings :=
  ⟨fun seq => ⟨BitVec.not_def, (BitVec.allOnes_sub_eq_not seq).symm.trans BitVec.and_allOnes.symm, BitVec.toNat_not⟩,
    by decide⟩

/-! ### The metadata payload -/

theorem length_metaParts (name : List Byte) (fsize : BitVec 32) :
    (name ++ [0x00] ++ dec fsize).length = name.length + 1 + (dec fsize).length := by
  rw [List.length_append, List.length_append, List.length_singleton]

/-- Settles O20: name, NUL and digits come before the padding, each where the part before it ends. -/
theorem metadataPayloadLayout : Obligations.MetadataPayloadLayout := by
  intro name fsize h
  have hlen := length_metaParts name fsize
  have hparts {i : Nat} (hi : i < name.length + 1 + (dec fsize).length) :
      (metaPayload name fsize)[i]? = (name ++ [0x00] ++ dec fsize)[i]? :=
    List.getElem?_append_left (hlen ▸ hi)
  refine ⟨pad_length (hlen ▸ h), fun i hi => ?_, ?_, fun i hi => ?_, fun i hi hi' => ?_⟩
  · rw [hparts (by omega), List.append_assoc, List.getElem?_append_left hi]
  · rw [hparts (by omega), List.append_assoc, List.getElem?_append_right le_rfl]
    simp
  · rw [hparts (by omega), List.getElem?_append_right (by simp)]
    simp
  · rw [metaPayload, pad, List.getElem?_append_right (hlen ▸ hi), List.getElem?_replicate_of_lt (by omega)]

/-! ### The trailer brings the CRC to zero -/

/-- A 0 in bit 15 is shifted out, and the polynomial does not enter (R65). -/
theorem crcShift_of_lt {c : Half} (h : c.toNat < 2 ^ 15) : crcShift c = c <<< 1 := by
  have hbit : c.getLsbD 15 = false := Nat.testBit_lt_two_pow h
  rw [crcShift, hbit]
  rfl

/-- While the bits shifted out are 0 the polynomial does not enter (R65). -/
theorem crcShifts_of_lt (n : Nat) (c : Half) (h : c.toNat * 2 ^ n < 2 ^ 16) : crcShifts n c = c <<< n := by
  induction n generalizing c with
  | zero => simp [crcShifts]
  | succ n ih =>
    have hlt : c.toNat < 2 ^ 15 := by
      rw [pow_succ, ← Nat.mul_assoc] at h
      exact lt_of_le_of_lt (Nat.le_mul_of_pos_right _ (Nat.two_pow_pos n)) (by omega)
    have htwice : (c <<< 1).toNat = c.toNat * 2 := by
      simp
      omega
    rw [crcShifts, crcShift_of_lt hlt, ih _ (by rwa [htwice, Nat.mul_assoc, ← pow_succ']), Nat.add_comm,
      BitVec.shiftLeft_add]

/-- A byte in the low half is shifted up whole. -/
theorem crcShifts_zero_append (b : Byte) : crcShifts 8 ((0 : Byte) ++ b) = b ++ (0 : Byte) := by
  have hlow : ((0 : Byte) ++ b).toNat = b.toNat := by
    rw [BitVec.toNat_append]
    simp
  have hhigh : (b ++ (0 : Byte)).toNat = b.toNat <<< 8 := by
    rw [BitVec.toNat_append]
    simp
  rw [crcShifts_of_lt 8 _ (by omega)]
  apply BitVec.eq_of_toNat_eq
  rw [BitVec.toNat_shiftLeft, hlow, hhigh, Nat.shiftLeft_eq]
  omega

/-- The high byte of the accumulator clears its high half, and the low byte moves up. -/
theorem crcStep_crcHigh (c : Half) : crcStep c (crcHigh c) = crcLow c ++ (0 : Byte) := by
  have hxor : c ^^^ (crcHigh c ++ (0 : Byte)) = (0 : Byte) ++ crcLow c := by
    calc c ^^^ (crcHigh c ++ (0 : Byte))
        = (crcHigh c ++ crcLow c) ^^^ (crcHigh c ++ (0 : Byte)) := by rw [crcHigh_append_crcLow]
      _ = (crcHigh c ^^^ crcHigh c) ++ (crcLow c ^^^ 0#8) := BitVec.xor_append
      _ = (0 : Byte) ++ crcLow c := by
        rw [BitVec.xor_self, BitVec.xor_zero]
        rfl
  rw [crcStep, hxor, crcShifts_zero_append]

/-- The low byte, moved up, then clears what is left. -/
theorem crcStep_append_zero_self (b : Byte) : crcStep (b ++ (0 : Byte)) b = 0 := by
  rw [crcStep, BitVec.xor_self]
  decide

/-- A list followed by its CRC, high byte first, has CRC 0 (R70 item 4). -/
theorem crc16_append_trailer (k : Bool) (bs : List Byte) : crc16 (bs ++ trailer k .crc16 bs) = 0 := by
  rw [trailer_crc16, List.append_cons, crc16_concat, crc16_concat, crcStep_crcHigh, crcStep_append_zero_self]

/-! ### The frame -/

/-- Settles O21: the parts of a frame in their order, each with its length. -/
theorem frameShape : Obligations.FrameShape := by
  intro size seq pay h
  refine ⟨?_, ?_, fun k mode => ⟨?_, rfl, rfl, ?_, ?_, rfl, crc16_append_trailer k pay⟩⟩
  · cases size <;> simp [frame_length, h, blocksize, trailerLength]
  · cases size <;> simp [frame_length, h, blocksize, trailerLength]
  · cases size <;> rfl
  · simp [frame, ← h]
  · simp [frame, ← h, Nat.add_comm 3]

end Sys2Proof.Machine
end

section
/-! PROOFS. The response word, and the words a step puts on RSP (spec/30_encoding.md R50, R51). -/

namespace Sys2Proof.Machine

theorem response_toNat (st : Byte) (v : Half) : (response st v).toNat = st.toNat * 2 ^ 24 + v.toNat := by
  rw [response, BitVec.toNat_append, ← Nat.shiftLeft_add_eq_or_of_lt v.isLt, BitVec.toNat_append]
  simp [Nat.shiftLeft_eq, Nat.mul_assoc]

/-- Settles O22: the concatenation of the three fields is the sum of their places. -/
theorem responseWordFields : Obligations.ResponseWordFields :=
  ⟨response_toNat, rfl, rfl, rfl, rfl⟩

theorem responseOk_response {st : Byte} {v : Half} (hst : st.toNat ≤ 3) (hv : st ≠ statusDone → v = 0) :
    ResponseOk (response st v) := by
  simpa [ResponseOk] using ⟨hst, hv⟩

theorem statusOf_le (e : CmdError) : (statusOf e).toNat ≤ 3 := by
  cases e <;> decide

/-- What a plan answers is well formed: the status is done, or an error's with the value 0. -/
theorem responseOk_answer (p : Plan) (s : State) : ResponseOk (response (p.answer s).1 (p.answer s).2) := by
  cases p with
  | refuse n e => exact responseOk_response (statusOf_le e) fun _ => rfl
  | engine | readback | framing => exact responseOk_response (Nat.zero_le 3) (absurd rfl)

theorem line_responsesOk {p : Plan} {s s' : State} (h : Line p s s') (hs : ∀ r ∈ s.rsp, ResponseOk r) :
    ∀ r ∈ s'.rsp, ResponseOk r := by
  cases h with
  | rsp => exact List.forall_mem_append.mpr ⟨hs, List.forall_mem_singleton.mpr (responseOk_answer p s)⟩
  | _ => exact hs

theorem perform_responsesOk {p : Plan} {s t : State} (h : perform p s = .next t) :
    (∀ r ∈ s.rsp, ResponseOk r) → ∀ r ∈ t.rsp, ResponseOk r :=
  perform_induct (fun s t => (∀ r ∈ s.rsp, ResponseOk r) → ∀ r ∈ t.rsp, ResponseOk r) (fun _ hs => hs)
    (fun _ _ _ hl ih hs => ih (line_responsesOk (line_of_planTick hl) hs)) h

/-- Settles O57: a step waits, or it is the run of a command. -/
theorem stepKeepsResponsesWellFormed : Obligations.StepKeepsResponsesWellFormed := by
  intro s t hs h
  obtain ⟨-, rfl⟩ | ⟨d, ds, -, -, hrun⟩ := step_eq_next h
  · exact hs
  · exact perform_responsesOk hrun hs

end Sys2Proof.Machine
end

section
/-! PROOFS. The laws of the CRC generator, its polynomial form, and the command `CRC16`
(spec/40_crc16.md R65 to R70). -/

namespace Sys2Proof.Machine

/-- Settles O10: each value is computed by the generator. -/
theorem workedCrcTracesAreReproduced : Obligations.WorkedCrcTracesAreReproduced := by
  unfold Obligations.WorkedCrcTracesAreReproduced
  decide

/-! ### Linearity over XOR -/

theorem crcStep_xor (c₁ c₂ : Half) (b₁ b₂ : Byte) :
    crcStep (c₁ ^^^ c₂) (b₁ ^^^ b₂) = crcStep c₁ b₁ ^^^ crcStep c₂ b₂ := by
  have happend : (b₁ ^^^ b₂) ++ (0 : Byte) = (b₁ ++ (0 : Byte)) ^^^ (b₂ ++ (0 : Byte)) := by
    rw [BitVec.xor_append, BitVec.xor_self]
    rfl
  rw [crcStep, happend, crcStep, crcStep, ← crcShifts_xor]
  ac_rfl

theorem crcStep_eq_crcStep_zero (c : Half) (b : Byte) : crcStep c b = crcStep (c ^^^ (b ++ (0 : Byte))) 0 := by
  have hzero : (0 : Byte) ++ (0 : Byte) = (0 : Half) := rfl
  rw [crcStep, crcStep, hzero]
  exact congrArg _ BitVec.xor_zero.symm

/-- Two lists of one length, each continued from an accumulator of its own. -/
theorem foldl_crcStep_zipWith_xor (xs ys : List Byte) (c d : Half) (h : xs.length = ys.length) :
    (xs.zipWith (· ^^^ ·) ys).foldl crcStep (c ^^^ d) = xs.foldl crcStep c ^^^ ys.foldl crcStep d := by
  induction xs generalizing ys c d with
  | nil => rw [List.length_eq_zero_iff.mp h.symm]; rfl
  | cons x xs ih =>
    cases ys with
    | nil => cases h
    | cons y ys =>
      rw [List.zipWith_cons_cons, List.foldl_cons, crcStep_xor]
      exact ih ys _ _ (Nat.succ.inj h)

/-- Settles O11: the inner steps are linear, and the byte enters by XOR. -/
theorem crcIsLinearOverXor : Obligations.CrcIsLinearOverXor :=
  ⟨crcStep_xor, crcStep_eq_crcStep_zero, fun xs ys => foldl_crcStep_zipWith_xor xs ys crcInit crcInit⟩

/-! ### Continuing a CRC -/

theorem crc16_append (xs ys : List Byte) : crc16 (xs ++ ys) = ys.foldl crcStep (crc16 xs) :=
  List.foldl_append

theorem crcStep_zero_zero : crcStep 0 0 = 0 := by decide

theorem crc16_zeros (n : Nat) : crc16 (zeros n) = 0 := by
  induction n with
  | zero => rfl
  | succ n ih => rw [zeros, List.replicate_succ', crc16_concat, ← zeros, ih, crcStep_zero_zero]

/-- Settles O12: zeros leave the accumulator as it starts, and the rest of a list sees nothing else. -/
theorem crcContinuesFromTheAccumulatorAlone : Obligations.CrcContinuesFromTheAccumulatorAlone := by
  refine ⟨crc16_zeros, fun n bs => ?_, crc16_append⟩
  rw [crc16_append, crc16_zeros]
  rfl

/-- Settles O13: the two bytes are the trailer of a CRC16 frame. -/
theorem crcOverPayloadAndTrailerIsZero : Obligations.CrcOverPayloadAndTrailerIsZero :=
  crc16_append_trailer false

/-! ### The polynomial form

The accumulator is followed through the residue classes of the generator, `AdjoinRoot.mk generator`: there an inner step
multiplies by `X`, so a byte step, and then a list, are computed in the ring. -/

section Polynomials

open Polynomial

/-- Where both bits are 1 the terms cancel, the characteristic being 2. -/
theorem ite_xor_eq_add (a b : Bool) (p : (ZMod 2)[X]) :
    (if a ^^ b then p else 0) = (if a then p else 0) + if b then p else 0 := by
  cases a <;> cases b <;> simp [CharTwo.add_self_eq_zero]

/-- XOR of bits is addition over GF(2). -/
theorem bitPoly_xor {w : Nat} (v u : BitVec w) : bitPoly (v ^^^ u) = bitPoly v + bitPoly u := by
  simp only [bitPoly, BitVec.getLsbD_xor, ite_xor_eq_add, Finset.sum_add_distrib]

/-- The bits of a concatenation are those of its parts, the high part moved up. -/
theorem bitPoly_append {m n : Nat} (v : BitVec m) (u : BitVec n) :
    bitPoly (v ++ u) = bitPoly v * X ^ n + bitPoly u := by
  have hlow : ∀ i ∈ Finset.range n, (if (v ++ u).getLsbD i then (X : (ZMod 2)[X]) ^ i else 0) =
      if u.getLsbD i then X ^ i else 0 := fun i hi => by
    rw [BitVec.getLsbD_append, if_pos (Finset.mem_range.mp hi)]
  have hhigh : ∀ i ∈ Finset.range m, (if (v ++ u).getLsbD (n + i) then (X : (ZMod 2)[X]) ^ (n + i) else 0) =
      (if v.getLsbD i then X ^ i else 0) * X ^ n := fun i _ => by
    rw [BitVec.getLsbD_append, if_neg (Nat.not_lt.mpr (Nat.le_add_right n i)), Nat.add_sub_cancel_left, ite_mul,
      zero_mul, pow_add, mul_comm]
  calc bitPoly (v ++ u)
      = ∑ i ∈ Finset.range (n + m), if (v ++ u).getLsbD i then X ^ i else 0 := by rw [bitPoly, Nat.add_comm n m]
    _ = bitPoly u + bitPoly v * X ^ n := by
      rw [Finset.sum_range_add, Finset.sum_congr rfl hlow, Finset.sum_congr rfl hhigh, ← Finset.sum_mul]
      rfl
    _ = bitPoly v * X ^ n + bitPoly u := add_comm _ _

theorem bitPoly_zero (w : Nat) : bitPoly (0 : BitVec w) = 0 := by
  simp [bitPoly]

/-- Multiplication by `X` shifts the bits up, and the highest bit out. -/
theorem bitPoly_mul_X {w : Nat} (v : BitVec (w + 1)) :
    bitPoly v * X = bitPoly (v <<< 1) + if v.getLsbD w then X ^ (w + 1) else 0 := by
  have hshift : ∀ i ∈ Finset.range w, (if (v <<< 1).getLsbD (i + 1) then (X : (ZMod 2)[X]) ^ (i + 1) else 0) =
      if v.getLsbD i then X ^ (i + 1) else 0 := fun i hi => by
    have hlt : i < w := Finset.mem_range.mp hi
    rw [BitVec.getLsbD_shiftLeft]
    simp [hlt]
  have hbottom : (v <<< 1).getLsbD 0 = false := by simp
  have hbits : bitPoly (v <<< 1) = ∑ i ∈ Finset.range w, if v.getLsbD i then X ^ (i + 1) else 0 := by
    rw [bitPoly, Finset.sum_range_succ', Finset.sum_congr rfl hshift, hbottom]
    simp
  rw [hbits, bitPoly, Finset.sum_range_succ, add_mul, Finset.sum_mul]
  simp only [ite_mul, zero_mul, pow_succ]

theorem degree_bitPoly_lt {w : Nat} (v : BitVec w) : (bitPoly v).degree < w := by
  rw [← mem_degreeLT, bitPoly]
  refine Submodule.sum_mem _ fun i hi => ?_
  rw [mem_degreeLT]
  split_ifs
  · rw [degree_X_pow]
    exact_mod_cast Finset.mem_range.mp hi
  · simp

/-- The generator has degree 16, and 0x1021 holds its lower terms (R70 item 6). -/
theorem generator_eq : generator = X ^ 16 + bitPoly crcPoly := by
  have hpoly : bitPoly crcPoly = 1 + X ^ 5 + X ^ 12 := by
    simp [bitPoly, crcPoly, Finset.sum_range_succ]
  rw [hpoly, generator]
  ring

theorem generator_monic : generator.Monic := by
  rw [generator_eq]
  exact monic_X_pow_add (degree_bitPoly_lt crcPoly)

theorem degree_generator : generator.degree = 16 := by
  have hlower : (bitPoly crcPoly).degree < (X ^ 16 : (ZMod 2)[X]).degree := by
    rw [degree_X_pow]
    exact degree_bitPoly_lt crcPoly
  rw [generator_eq, degree_add_eq_left_of_degree_lt hlower, degree_X_pow]
  rfl

theorem mk_X_pow_sixteen : AdjoinRoot.mk generator (X ^ 16) = AdjoinRoot.mk generator (bitPoly crcPoly) := by
  rw [AdjoinRoot.mk_eq_mk, CharTwo.sub_eq_add, ← generator_eq]

/-- An inner step of R65 multiplies by `X` modulo the generator: the bit shifted out comes back as the polynomial. -/
theorem mk_bitPoly_crcShift (c : Half) :
    AdjoinRoot.mk generator (bitPoly (crcShift c)) = AdjoinRoot.mk generator (bitPoly c * X) := by
  rw [bitPoly_mul_X, crcShift, map_add]
  split_ifs
  · rw [bitPoly_xor, map_add, mk_X_pow_sixteen]
  · rw [map_zero, add_zero]

theorem mk_bitPoly_crcShifts (n : Nat) (c : Half) :
    AdjoinRoot.mk generator (bitPoly (crcShifts n c)) = AdjoinRoot.mk generator (bitPoly c * X ^ n) := by
  induction n generalizing c with
  | zero => rw [pow_zero, mul_one]; rfl
  | succ n ih => rw [crcShifts, ih, map_mul, mk_bitPoly_crcShift, ← map_mul, mul_assoc, pow_succ']

/-- One byte more: the accumulator moves up by 8, and the byte enters at `X ^ 16`. -/
theorem mk_bitPoly_crcStep (c : Half) (b : Byte) :
    AdjoinRoot.mk generator (bitPoly (crcStep c b)) =
      AdjoinRoot.mk generator (bitPoly c * X ^ 8 + bitPoly b * X ^ 16) := by
  have henter : bitPoly (c ^^^ (b ++ (0 : Byte))) = bitPoly c + bitPoly b * X ^ 8 := by
    rw [bitPoly_xor, bitPoly_append, bitPoly_zero, add_zero]
  rw [crcStep, mk_bitPoly_crcShifts, henter]
  ring_nf

theorem messagePoly_concat (bs : List Byte) (b : Byte) :
    messagePoly (bs ++ [b]) = messagePoly bs * X ^ 8 + bitPoly b := by
  simp [messagePoly]

/-- The accumulator stands for `M(x) x^16` modulo the generator, byte after byte. -/
theorem mk_bitPoly_crc16 (bs : List Byte) :
    AdjoinRoot.mk generator (bitPoly (crc16 bs)) = AdjoinRoot.mk generator (messagePoly bs * X ^ 16) := by
  induction bs using List.reverseRecOn with
  | nil =>
    have hinit : bitPoly crcInit = 0 := bitPoly_zero 16
    simp [messagePoly, hinit]
  | append_singleton bs b ih =>
    rw [crc16_concat, messagePoly_concat, mk_bitPoly_crcStep, map_add, map_mul, ih, ← map_mul, ← map_add]
    ring_nf

/-- Settles O14: the accumulator is in the residue class of `M(x) x^16`, and of lower degree than the generator. -/
theorem crcIsThePolynomialRemainder : Obligations.CrcIsThePolynomialRemainder := by
  intro bs
  have hdegree : (bitPoly (crc16 bs)).degree < generator.degree :=
    lt_of_lt_of_eq (degree_bitPoly_lt _) degree_generator.symm
  calc bitPoly (crc16 bs)
      = bitPoly (crc16 bs) %ₘ generator := ((modByMonic_eq_self_iff generator_monic).mpr hdegree).symm
    _ = (messagePoly bs * X ^ 16) %ₘ generator :=
      modByMonic_eq_of_dvd_sub generator_monic (AdjoinRoot.mk_eq_mk.mp (mk_bitPoly_crc16 bs))

end Polynomials

/-! ### The command `CRC16` -/

/-- The whole of a command that absorbs its bytes and answers an accumulator. -/
theorem perform_engine {len : Half} {acc : Accumulator} {s : State} (hi : s.phase = .idle) (hs : Supplied len s)
    (hr : RspAccepts s) :
    perform (.engine len acc) s = .next { s with
      crc := crc16 (s.pin.take len.toNat), sum := sum8 (s.pin.take len.toNat), pin := s.pin.drop len.toNat,
      rsp := s.rsp ++ [response 0x00 (acc.value { s with
        crc := crc16 (s.pin.take len.toNat), sum := sum8 (s.pin.take len.toNat) })], cnt := len } := by
  rw [perform_of_run_to_rsp (run_engine hi hs) (hi ▸ phaseFits_idle _ _) rfl hr]
  cases s
  cases hi
  cases acc <;> rfl

/-- Settles O24: the run that absorbs the bytes, and the CRC as the answer. -/
theorem crc16AnswersTheCrcOfItsBytes : Obligations.Crc16AnswersTheCrcOfItsBytes :=
  fun _ _ hi hs hr => perform_engine hi hs hr

end Sys2Proof.Machine
end

section
/-! PROOFS. The laws of the checksum, and the commands `SUM8`, `RDSUM` and `RDCRC`
(spec/41_sum8.md R75 to R78, R80, spec/40_crc16.md R69). -/

namespace Sys2Proof.Machine

/-! ### The sum modulo 256 and its laws -/

theorem sumStep_toNat (s b : Byte) : (sumStep s b).toNat = (s.toNat + b.toNat) % 256 :=
  BitVec.toNat_add s b

/-- Reducing after every addition or once at the end (R76). -/
theorem sum8_toNat (bs : List Byte) : (sum8 bs).toNat = (bs.map BitVec.toNat).sum % 256 := by
  induction bs using List.reverseRecOn with
  | nil => rfl
  | append_singleton bs b ih =>
    rw [sum8_concat, sumStep_toNat, ih, List.map_append, List.sum_append, Nat.mod_add_mod]
    rfl

/-- Settles O15: a sum of bytes is reduced at the end. -/
theorem sum8IsTheSumModulo256 : Obligations.Sum8IsTheSumModulo256 :=
  ⟨sumStep_toNat, by decide, by decide, by decide, by decide, by decide, rfl, fun b bs => sum8_concat bs b, sum8_toNat⟩

/-- Lists with the same unreduced sum have the same checksum. -/
theorem sum8_eq_of_sum_eq {xs ys : List Byte} (h : (xs.map BitVec.toNat).sum = (ys.map BitVec.toNat).sum) :
    sum8 xs = sum8 ys :=
  BitVec.eq_of_toNat_eq (by rw [sum8_toNat, sum8_toNat, h])

theorem sum8_perm {xs ys : List Byte} (h : xs.Perm ys) : sum8 xs = sum8 ys :=
  sum8_eq_of_sum_eq (h.map _).sum_eq

theorem sum8_append_zeros (bs : List Byte) (n : Nat) : sum8 (bs ++ zeros n) = sum8 bs :=
  sum8_eq_of_sum_eq (by simp)

theorem sum8_append_toNat (xs ys : List Byte) :
    (sum8 (xs ++ ys)).toNat = ((sum8 xs).toNat + (sum8 ys).toNat) % 256 := by
  rw [sum8_toNat, sum8_toNat, sum8_toNat, List.map_append, List.sum_append, Nat.add_mod]

theorem sum_map_replicate (n : Nat) (b : Byte) : ((List.replicate n b).map BitVec.toNat).sum = n * b.toNat := by
  rw [List.map_replicate, List.sum_replicate, smul_eq_mul]

theorem sum8_replicate_toNat (n : Nat) (b : Byte) : (sum8 (List.replicate n b)).toNat = (n * b.toNat) % 256 := by
  rw [sum8_toNat, sum_map_replicate]

/-- 1024 is a multiple of 256, so that equal bytes cancel (R80). -/
theorem sum8_replicate_1024 (b : Byte) : sum8 (List.replicate 1024 b) = 0x00 := by
  apply BitVec.eq_of_toNat_eq
  rw [sum8_replicate_toNat, show 1024 * b.toNat = 256 * (4 * b.toNat) by omega, Nat.mul_mod_right]
  rfl

theorem sum_le_length_mul (bs : List Byte) : (bs.map BitVec.toNat).sum ≤ bs.length * 255 := by
  have hbyte : ∀ n ∈ bs.map BitVec.toNat, n ≤ 255 :=
    List.forall_mem_map.mpr fun b _ => Nat.le_of_lt_succ b.isLt
  simpa using List.sum_le_card_nsmul _ 255 hbyte

/-- Settles O16: each law is one of unreduced sums. -/
theorem sum8Laws : Obligations.Sum8Laws :=
  ⟨fun _ _ => sum8_perm, sum8_append_zeros, sum8_append_toNat, sum8_replicate_toNat,
    BitVec.eq_of_toNat_eq (sum8_replicate_toNat 128 0xFF), sum8_replicate_1024,
    fun bs h => (sum_le_length_mul bs).trans (by rw [h]), sum_map_replicate 1024 0xFF, by decide, by decide⟩

/-! ### The commands `SUM8`, `RDSUM` and `RDCRC` -/

/-- Settles O23: the run that absorbs the bytes, and the sum as the answer. -/
theorem sum8AnswersTheSumOfItsBytes : Obligations.Sum8AnswersTheSumOfItsBytes :=
  fun _ _ hi hs hr => perform_engine hi hs hr

/-- The whole of a command that answers an accumulator as it stands. -/
theorem perform_readback {acc : Accumulator} {s : State} (hi : s.phase = .idle) (hr : RspAccepts s) :
    perform (.readback acc) s = .next { s with rsp := s.rsp ++ [response 0x00 (acc.value s)] } := by
  rw [perform_of_run_to_rsp (.line (.readStart hi) nofun) (hi ▸ phaseFits_idle _ _) rfl hr]
  cases s
  cases hi
  cases acc <;> rfl

/-- Settles O25: a read-back answers without absorbing. -/
theorem readbackAnswersTheAccumulator : Obligations.ReadbackAnswersTheAccumulator :=
  fun _ hi hr => ⟨perform_readback hi hr, perform_readback hi hr⟩

end Sys2Proof.Machine
end

section
/-! PROOFS. The build parameter `SUM8_COMPLEMENT`: a command runs alike in both builds, and only the trailer byte of
Arithmetic8 differs (spec/41_sum8.md R79, spec/42_framer.md R85). -/

namespace Sys2Proof.Machine

/-! ### The trailer in both builds -/

theorem a8Trailer_eq (k : Bool) (s : Byte) : a8Trailer k s = if k then (0xFF - s) &&& 0xFF else s := by
  cases k with
  | false => rfl
  | true => exact (BitVec.allOnes_sub_eq_not s).symm.trans BitVec.and_allOnes.symm

/-- The trailers of the two builds are equal, or each is the complement of the other. -/
theorem a8Trailer_eq_or_not (k l : Bool) (s : Byte) :
    a8Trailer l s = a8Trailer k s ∨ a8Trailer l s = ~~~a8Trailer k s := by
  cases k <;> cases l <;> simp [a8Trailer]

/-! ### A command in both builds -/

/-- The state in a build whose `SUM8_COMPLEMENT` is `k`, with `w` on WOUT. -/
abbrev builtWith (k : Bool) (w : List WireByte) (s : State) : State :=
  { s with platform := { s.platform with sum8Complement := k }, wout := w }

/-- The plan of a frame command in Arithmetic8 mode. -/
def Plan.IsArithmetic8 (p : Plan) : Prop := ∃ size seq src, p = .framing size seq .arithmetic8 src

/-- `w` is `v` with its last byte, which is marked, complemented. -/
def LastComplemented (v w : List WireByte) : Prop := ∃ ws b, v = ws ++ [⟨b, true⟩] ∧ w = ws ++ [⟨~~~b, true⟩]

theorem LastComplemented.length_eq {v w : List WireByte} (h : LastComplemented v w) : w.length = v.length := by
  obtain ⟨ws, b, rfl, rfl⟩ := h
  simp

theorem LastComplemented.map_last {v w : List WireByte} (h : LastComplemented v w) :
    w.map WireByte.last = v.map WireByte.last := by
  obtain ⟨ws, b, rfl, rfl⟩ := h
  simp

theorem LastComplemented.of_ne {v w : List WireByte} (h : LastComplemented v w) {j : Nat} {a b : WireByte}
    (ha : v[j]? = some a) (hb : w[j]? = some b) (hab : a ≠ b) :
    a.last = true ∧ a.byte = ~~~b.byte ∧ j + 1 = v.length := by
  obtain ⟨ws, c, rfl, rfl⟩ := h
  obtain hj | rfl | hj := Nat.lt_trichotomy j ws.length
  · rw [List.getElem?_append_left hj] at ha hb
    exact absurd (Option.some.inj (ha.symm.trans hb)) hab
  · simp at ha hb
    subst ha hb
    simp
  · rw [List.getElem?_eq_none (by simp; omega)] at ha
    cases ha

/-- A line that finds the same on WOUT in both builds leaves the same there, but for the trailer of Arithmetic8, after
which the command only has to answer. -/
theorem line_builtWith {p : Plan} {s s' : State} (h : Line p s s') (k : Bool) :
    ∃ w, Line p (builtWith k s.wout s) (builtWith k w s') ∧
      (w = s'.wout ∨ p.IsArithmetic8 ∧ s'.phase = .rsp ∧ LastComplemented s'.wout w) := by
  cases h with
  | trlSum h hr =>
    refine ⟨_, .trlSum (s := builtWith k s.wout s) h hr, ?_⟩
    obtain heq | hnot := a8Trailer_eq_or_not s.platform.sum8Complement k s.sum
    · exact .inl (by rw [heq])
    · exact .inr ⟨⟨_, _, _, rfl⟩, rfl, _, _, rfl, by rw [hnot]⟩
  | rsp h hr =>
    refine ⟨_, ?_, .inl rfl⟩
    rw [← answer_eq (s := builtWith k s.wout s) (t := s) rfl rfl]
    exact .rsp (s := builtWith k s.wout s) h hr
  | _ => exact ⟨_, by constructor <;> assumption, .inl rfl⟩

/-- The line that answers looks at nothing on WOUT. -/
theorem line_builtWith_of_rsp {p : Plan} {s s' : State} (h : Line p s s') (hp : s.phase = .rsp) (k : Bool)
    (w : List WireByte) :
    Line p (builtWith k w s) (builtWith k w s') ∧ s'.phase = .idle ∧ s'.wout = s.wout := by
  cases h with
  | rsp h hr =>
    refine ⟨?_, rfl, rfl⟩
    rw [← answer_eq (s := builtWith k w s) (t := s) rfl rfl]
    exact .rsp (s := builtWith k w s) h hr
  | _ h => cases hp.symm.trans h

/-- A hold looks at how much is on WOUT, not at what. -/
theorem blocked_builtWith {p : Plan} {s : State} (h : Blocked p s) (k : Bool) {w : List WireByte}
    (hw : w.length = s.wout.length) : Blocked p (builtWith k w s) := by
  cases h with
  | drain h hc hp => exact .drain h hc hp
  | absorb h hc hp => exact .absorb h hc hp
  | frame h hr => exact .frame (s := builtWith k w s) h (by rw [hw]; exact hr)
  | pay h hb hp => exact .pay h hb hp
  | rsp h hr => exact .rsp (s := builtWith k w s) h hr

/-- WOUT in two builds: the same, or, only where `c` allows it, with the last byte complemented. -/
abbrev SameButTrailer (c : Prop) (v w : List WireByte) : Prop := w = v ∨ c ∧ LastComplemented v w

/-- Two builds with the same on WOUT, or with a complemented trailer and only the answer to come, go on alike. -/
theorem advance_builtWith {p : Plan} (k : Bool) {n : Nat} {s t : State} {w : List WireByte}
    (hw : w = s.wout ∨ p.IsArithmetic8 ∧ s.phase = .rsp ∧ LastComplemented s.wout w) (h : advance n p s = .next t) :
    ∃ w', advance n p (builtWith k w s) = .next (builtWith k w' t) ∧ SameButTrailer p.IsArithmetic8 t.wout w' := by
  have hsame : ∀ {v w : List WireByte} {c : Prop}, w = v ∨ p.IsArithmetic8 ∧ c ∧ LastComplemented v w →
      SameButTrailer p.IsArithmetic8 v w := .imp_right fun ⟨ha, _, hl⟩ => ⟨ha, hl⟩
  induction n generalizing s w with
  | zero => cases h; exact ⟨w, rfl, hsame hw⟩
  | succ n ih =>
    rw [advance] at h ⊢
    split at h
    · next s' hs =>
      have hline := line_of_planTick hs
      obtain rfl | ⟨ha, hp, hl⟩ := hw
      · obtain ⟨w', hline', hw'⟩ := line_builtWith hline k
        rw [planTick_of_line hline']
        split at h
        · next hi =>
          cases h
          exact ⟨w', if_pos hi, hsame hw'⟩
        · next hi =>
          simp only [hi, if_false]
          exact ih hw' h
      · obtain ⟨hline', hi, hwout⟩ := line_builtWith_of_rsp hline hp k w
        rw [planTick_of_line hline']
        rw [if_pos hi] at h
        cases h
        exact ⟨w, if_pos hi, hwout ▸ .inr ⟨ha, hl⟩⟩
    · next hs =>
      have hlen : w.length = s.wout.length := hw.elim (congrArg _) fun ⟨_, _, hl⟩ => hl.length_eq
      cases h
      rw [planTick_eq_hold.mpr (blocked_builtWith (planTick_eq_hold.mp hs) k hlen)]
      exact ⟨w, rfl, hsame hw⟩
    · cases h

/-! ### The step in both builds -/

theorem modeOf_of_planOfInstr {i : Instr} (h : (planOfInstr i).IsArithmetic8) : modeOf i = some .arithmetic8 := by
  obtain ⟨size, seq, src, h⟩ := h
  cases i with
  | sum8 | crc16 | rdsum | rdcrc => cases h
  | fdata => simp only [planOfInstr, fdataPlan] at h; split at h <;> cases h; rfl
  | fmeta => simp only [planOfInstr, fmetaPlan] at h; split at h <;> cases h; rfl
  | fterm => cases h; rfl

/-- Only an accepted frame command in Arithmetic8 mode has such a plan. -/
theorem currentCommand_of_isArithmetic8 {s : State} {d : Descriptor} (hd : currentDescriptor s = some d)
    (h : (planOfDescriptor d).IsArithmetic8) : (currentCommand s).bind modeOf = some .arithmetic8 := by
  cases hdec : decode d with
  | error e =>
    rw [planOfDescriptor_of_error hdec] at h
    obtain ⟨_, _, _, h⟩ := h
    cases h
  | ok i =>
    rw [planOfDescriptor_of_ok hdec] at h
    simpa [currentCommand, hd, hdec, Except.toOption] using modeOf_of_planOfInstr h

/-- A step in the other build has the same outcome, but for the trailer byte of Arithmetic8. -/
theorem step_builtWith (k : Bool) {s t : State} (h : step s = .next t) :
    ∃ w, step (builtWith k s.wout s) = .next (builtWith k w t) ∧
      SameButTrailer ((currentCommand s).bind modeOf = some .arithmetic8) t.wout w := by
  cases hd : currentDescriptor s with
  | none =>
    cases (step_of_no_descriptor hd).symm.trans h
    exact ⟨_, step_of_no_descriptor (s := builtWith k s.wout s) hd, .inl rfl⟩
  | some d =>
    rw [step_of_descriptor hd] at h
    obtain ⟨w, hstep, hw⟩ := advance_builtWith k (.inl rfl) h
    exact ⟨w, (step_of_descriptor (s := builtWith k s.wout s) hd).trans hstep,
      hw.imp_right fun ⟨ha, hl⟩ => ⟨currentCommand_of_isArithmetic8 hd ha, hl⟩⟩

/-- Settles O36: at most the last line before the answer differs in the two builds, and there by the complement. -/
theorem complementParameterChangesOnlyTheTrailerByte : Obligations.ComplementParameterChangesOnlyTheTrailerByte := by
  refine ⟨fun k pay => congrArg (fun b => [b]) (a8Trailer_eq k (sum8 pay)), fun _ => rfl, fun k s t h => ?_⟩
  obtain ⟨w, hstep, rfl | ⟨ha, hl⟩⟩ := step_builtWith k h
  · exact ⟨_, hstep, rfl, rfl, fun _ => rfl,
      fun _ _ _ ha hb hab => absurd (Option.some.inj (ha.symm.trans hb)) hab⟩
  · exact ⟨w, hstep, hl.length_eq, hl.map_last, (absurd ha ·), fun _ _ _ hv hw hab => ⟨ha, hl.of_ne hv hw hab⟩⟩

end Sys2Proof.Machine
end

section
/-! PROOFS. What a step and a byte step keep: the phase and the counter inside their command, the channels within their
capacities; and where a step ends, by which byte steps (spec/42_framer.md R89, spec/20_memory.md R29). -/

namespace Sys2Proof.Machine

/-! ### Coherence, line by line -/

/-- No channel holds more than its capacity (20_memory.md R29): the part of `Coherent` that no plan enters. -/
abbrev ChannelsWithin (s : State) : Prop :=
  within s.platform.cmdCap s.cmd.length = true ∧ within s.platform.pinCap s.pin.length = true ∧
  within s.platform.woutCap s.wout.length = true ∧ within s.platform.rspCap s.rsp.length = true

theorem within_append_singleton {α : Type} {cap : Option Nat} {xs : List α} (x : α)
    (h : hasRoom cap xs.length = true) : within cap (xs ++ [x]).length = true :=
  List.length_append ▸ within_succ h

theorem within_of_cons {α : Type} {cap : Option Nat} {xs : List α} {x : α}
    (h : within cap (x :: xs).length = true) : within cap xs.length = true :=
  within_le (Nat.le_succ _) h

/-- The lines that put on WOUT have the room there. -/
theorem line_wout_within {p : Plan} {s s' : State} (h : Line p s s')
    (hw : within s.platform.woutCap s.wout.length = true) : within s'.platform.woutCap s'.wout.length = true := by
  cases h with
  | hdr _ hr | seq _ hr | nseq _ hr | pay _ _ hr | payLast _ _ hr | trlSum _ hr | trlHigh _ hr | trlLow _ hr =>
    exact within_append_singleton _ hr
  | _ => exact hw

/-- The line that answers has the room on RSP. -/
theorem line_rsp_within {p : Plan} {s s' : State} (h : Line p s s')
    (hw : within s.platform.rspCap s.rsp.length = true) : within s'.platform.rspCap s'.rsp.length = true := by
  cases h with
  | rsp _ hr => exact within_append_singleton _ hr
  | _ => exact hw

theorem line_channelsWithin {p : Plan} {s s' : State} (h : Line p s s') (hw : ChannelsWithin s) :
    ChannelsWithin s' := by
  obtain ⟨hcmd, hpin, hwout, hrsp⟩ := hw
  obtain ⟨-, -, hplatform, hcmd'⟩ := planTick_keeps (planTick_of_line h)
  exact ⟨by rw [hplatform, hcmd']; exact hcmd, by rw [hplatform]; exact within_le (line_pin h).length_le hpin,
    line_wout_within h hwout, line_rsp_within h hrsp⟩

/-- Inside the command whose plan is `p`: coherence, for a plan that need not be that of `DESC`. -/
abbrev CoherentIn (p : Plan) (s : State) : Prop := phaseFits p s.phase s.cnt = true ∧ ChannelsWithin s

theorem line_coherentIn {p : Plan} {s s' : State} (h : Line p s s') (hs : CoherentIn p s) : CoherentIn p s' :=
  ⟨fits_line h hs.1, line_channelsWithin h hs.2⟩

theorem coherent_of_coherentIn {d : Descriptor} {s : State} (h : CoherentIn (planOfDescriptor d) s) (hd : s.desc = d) :
    Coherent s := by
  subst hd
  exact h

theorem perform_coherentIn {p : Plan} {s t : State} (h : perform p s = .next t) : CoherentIn p s → CoherentIn p t :=
  perform_induct (fun s t => CoherentIn p s → CoherentIn p t) (fun _ hs => hs)
    (fun _ _ _ hl ih hs => ih (line_coherentIn (line_of_planTick hl) hs)) h

/-- Taking the next descriptor from CMD leaves the block inside its command, before the first line. -/
theorem latched_coherentIn {s : State} {d : Descriptor} (hd : currentDescriptor s = some d) (hs : Coherent s) :
    CoherentIn (planOfDescriptor d) (latched s d) := by
  obtain ⟨hf, hcmd, hrest⟩ := hs
  have hlen : (latched s d).cmd.length ≤ s.cmd.length := by
    simp only
    split_ifs
    · exact s.cmd.tail_sublist.length_le
    · exact le_rfl
  exact ⟨fits_of_descriptor (s := s) hf hd, within_le hlen hcmd, hrest⟩

/-- Settles O53: a step waits, or every line of the command it runs keeps the block coherent. -/
theorem stepKeepsCoherence : Obligations.StepKeepsCoherence := by
  intro s t hs h
  cases hd : currentDescriptor s with
  | none =>
    cases (step_of_no_descriptor hd).symm.trans h
    exact hs
  | some d =>
    rw [step_of_descriptor hd] at h
    exact coherent_of_coherentIn (perform_coherentIn h (latched_coherentIn hd hs))
      (congrArg Prod.fst (perform_fixedFields h))

/-! ### The byte step by its current descriptor -/

theorem tick_of_no_descriptor {s : State} (h : currentDescriptor s = none) : tick s = .hold := by
  unfold currentDescriptor at h
  split_ifs at h with hr hi
  · exact tick_of_rst hr
  · exact tick_of_idle_nil hi (List.head?_eq_none_iff.mp h)

/-- With a current descriptor the byte step is the line of its command. -/
theorem tick_of_descriptor {s : State} {d : Descriptor} (h : currentDescriptor s = some d) :
    tick s = planTick (planOfDescriptor d) (latched s d) := by
  unfold currentDescriptor at h
  split_ifs at h with hr hi
  · obtain ⟨ds, hc⟩ := List.head?_eq_some_iff.mp h
    simpa [latched, hi, hc] using tick_of_idle_cons (Bool.eq_false_iff.mpr hr) hi hc
  · cases h
    simpa [latched, hi] using tick_of_busy (Bool.eq_false_iff.mpr hr) hi

theorem tick_coherent {s t : State} (hs : Coherent s) (h : tick s = .moves t) : Coherent t := by
  cases hd : currentDescriptor s with
  | none => cases (tick_of_no_descriptor hd).symm.trans h
  | some d =>
    rw [tick_of_descriptor hd] at h
    obtain ⟨hdesc, -⟩ := planTick_keeps h
    exact coherent_of_coherentIn (line_coherentIn (line_of_planTick h) (latched_coherentIn hd hs)) hdesc

/-- The host puts only where there is room; what it takes, and `RST`, make no channel longer. -/
theorem act_coherent {a : HostAction} {s t : State} (hs : Coherent s) (h : act a s = some t) : Coherent t := by
  obtain ⟨hf, hcmd, hpin, hwout, hrsp⟩ := hs
  cases a with
  | putCmd d =>
    simp only [act] at h
    split at h <;> cases h
    next hr => exact ⟨hf, within_append_singleton d hr, hpin, hwout, hrsp⟩
  | putPin b =>
    simp only [act] at h
    split at h <;> cases h
    next hr => exact ⟨hf, hcmd, within_append_singleton b hr, hwout, hrsp⟩
  | takeWout =>
    simp only [act] at h
    split at h <;> cases h
    next hw => exact ⟨hf, hcmd, hpin, within_of_cons (hw ▸ hwout), hrsp⟩
  | takeRsp =>
    simp only [act] at h
    split at h <;> cases h
    next hr => exact ⟨hf, hcmd, hpin, hwout, within_of_cons (hr ▸ hrsp)⟩
  | assertRst => cases h; exact ⟨hf, hcmd, hpin, hwout, hrsp⟩
  | releaseRst =>
    simp only [act] at h
    split at h <;> cases h
    exact ⟨phaseFits_idle _ _, hcmd, hpin, hwout, hrsp⟩

/-- Settles O54: a byte step is a line, and the host respects the capacities. -/
theorem byteStepsAndHostActionsKeepCoherence : Obligations.ByteStepsAndHostActionsKeepCoherence :=
  fun _ _ hs => ⟨tick_coherent hs, fun _ => act_coherent hs⟩

/-! ### Where a step ends -/

/-- A plan takes bytes from PIN only below the count `n` (30_encoding.md R44). -/
def Plan.TakesBelow (n : Half) : Plan → Prop
  | .refuse len _ => len = n
  | .engine len _ => len = n
  | .readback _ => True
  | .framing _ _ _ src => ∀ k, src.paybyte k = none → k < n.toNat

theorem planOfDescriptor_takesBelow (d : Descriptor) : (planOfDescriptor d).TakesBelow (fieldLen d) := by
  obtain ⟨_, h⟩ | ⟨_, h⟩ | ⟨_, h⟩ | ⟨_, _, _, h⟩ | ⟨_, _, _, h⟩ | ⟨_, _, h, -⟩ := planOfDescriptor_cases d <;> rw [h]
  · exact rfl
  · exact rfl
  · trivial
  · intro k hk
    simpa [PaySource.paybyte] using hk
  · intro k hk
    simp only [PaySource.paybyte] at hk
    split_ifs at hk with hlt
    exact hlt
  · nofun

/-- Where a line of the latched command waits, the block holds as R163 says. -/
theorem holds_of_blocked {s : State} (h : Blocked (planOfDescriptor s.desc) s) : Holds s := by
  have htakes := planOfDescriptor_takesBelow s.desc
  generalize planOfDescriptor s.desc = p at h htakes
  by_cases hrst : s.rst = true
  · simp [Holds, waitsFor, hrst]
  simp only [Holds, waitsFor, hrst]
  cases h with
  | drain h hc hp | absorb h hc hp =>
    obtain rfl := htakes
    simp [h, hc, hp]
  | frame h hr =>
    obtain h | h | h | h | h := h
    case inr.inr.inr.inl =>
      simp only [h, hr]
      split_ifs <;> nofun
    all_goals simp [h, hr]
  | pay h hb hp =>
    have hc : s.cnt < fieldLen s.desc := BitVec.lt_def.mpr (htakes _ hb)
    simp [h, hc, hp]
  | rsp h hr => simp [h, hr]

/-- With no descriptor to work on the block holds: for the release of `RST`, or for a descriptor. -/
theorem holds_of_no_descriptor {s : State} (h : currentDescriptor s = none) : Holds s := by
  unfold currentDescriptor at h
  split_ifs at h with hr hi
  · simp [Holds, waitsFor, hr]
  · simp [Holds, waitsFor, hr, hi, List.head?_eq_none_iff.mp h]

/-- A command ends in IDLE, or where one of its lines waits. -/
theorem perform_ends {p : Plan} {s t : State} (hf : phaseFits p s.phase s.cnt = true) (h : perform p s = .next t) :
    t.phase = .idle ∨ Blocked p t := by
  obtain ⟨_, u, -, -, -, ⟨hhold, hp⟩ | ⟨v, -, hvi, hp⟩⟩ := perform_cases hf <;> cases hp.symm.trans h
  · exact .inr (planTick_eq_hold.mp hhold)
  · exact .inl hvi

/-- Settles O41: a step waits for a descriptor or `RST`, or its command has answered or waits. -/
theorem stepEndsIdleOrHolding : Obligations.StepEndsIdleOrHolding := by
  intro s t hs h
  cases hd : currentDescriptor s with
  | none =>
    cases (step_of_no_descriptor hd).symm.trans h
    exact .inr (holds_of_no_descriptor hd)
  | some d =>
    rw [step_of_descriptor hd] at h
    have hdesc : t.desc = d := congrArg Prod.fst (perform_fixedFields h)
    exact (perform_ends (latched_coherentIn hd hs).1 h).imp_right fun hb => holds_of_blocked (hdesc ▸ hb)

/-! ### A step as a run of byte steps -/

/-- A run from the latched descriptor that does not stay in IDLE is a run of the block. -/
theorem ticks_of_latched_run {n : Nat} {s t : State} {d : Descriptor} (hd : currentDescriptor s = some d)
    (h : PlanRun (planOfDescriptor d) n (latched s d) t) (ht : t.phase ≠ .idle) : ticks n s = some t := by
  have hr := rst_of_descriptor hd
  cases h with
  | refl =>
    have hi : s.phase ≠ .idle := ht
    have hdesc : s.desc = d := by simpa [currentDescriptor, hr, hi] using hd
    simp [ticks, latched, hi, ← hdesc]
  | cons hl hi' hrun =>
    obtain ⟨hdesc, hrst, -, -⟩ := planTick_keeps hl
    rw [ticks, tick_of_descriptor hd, hl]
    exact ticks_of_run hrun (by rw [hdesc]) (hrst.trans hr) hi'

/-- Settles O43: the lines of the command up to where it ends, and the one that answers. -/
theorem stepIsARunOfByteSteps : Obligations.StepIsARunOfByteSteps := by
  intro s t hs h
  cases hd : currentDescriptor s with
  | none =>
    cases (step_of_no_descriptor hd).symm.trans h
    exact ⟨0, rfl⟩
  | some d =>
    rw [step_of_descriptor hd] at h
    obtain ⟨n, u, hrun, hu, -, hend⟩ := perform_cases (latched_coherentIn hd hs).1
    have hticks := ticks_of_latched_run hd hrun hu
    obtain ⟨-, hp⟩ | ⟨v, hv, -, hp⟩ := hend <;> cases hp.symm.trans h
    · exact ⟨n, hticks⟩
    · obtain ⟨hdesc, hrst, -, -⟩ := run_keeps hrun
      have hlast : tick u = .moves t := by
        rw [tick_of_busy (hrst.trans (rst_of_descriptor (s := s) hd)) hu, hdesc, hv]
      refine ⟨n + 1, ?_⟩
      rw [ticks_add, hticks, Option.bind_some]
      simp [ticks, hlast]

end Sys2Proof.Machine
end

section
/-! PROOFS. The ASCII digits of a file size (spec/42_framer.md R92). -/

namespace Sys2Proof.Machine

/-- The ASCII code of a decimal digit (R92). -/
abbrev asciiDigit (d : Nat) : Byte := BitVec.ofNat 8 (0x30 + d)

theorem asciiDigit_toNat {d : Nat} (h : d < 10) : (asciiDigit d).toNat = 0x30 + d := by
  rw [BitVec.toNat_ofNat]
  omega

/-- The recursion of R92 lists the digits of a positive number, most significant first. -/
theorem decDigits_eq_digits {k n : Nat} (hpos : n ≠ 0) (hlt : n < 10 ^ k) :
    decDigits k n = ((Nat.digits 10 n).map asciiDigit).reverse := by
  induction k generalizing n with
  | zero => omega
  | succ k ih =>
    rw [decDigits_succ]
    split_ifs with h
    · rw [Nat.digits_of_lt 10 n hpos h]
      rfl
    · rw [Nat.digits_def' (by decide) (Nat.pos_of_ne_zero hpos), ih (by omega) (by omega), List.map_cons,
        List.reverse_cons]

theorem dec_eq_digits {n : BitVec 32} (h : n.toNat ≠ 0) : dec n = ((Nat.digits 10 n.toNat).map asciiDigit).reverse :=
  decDigits_eq_digits h (n.isLt.trans (by decide))

/-- Settles O17: the digits of a positive number by division, and their number by the logarithm. -/
theorem decIsTheDecimalNumeral : Obligations.DecIsTheDecimalNumeral := by
  refine ⟨by decide, fun n h => ?_, fun n h1 h9 => ?_, fun n k hlow hhigh => ?_, by decide, by decide, by decide⟩
  · have hdiv : (BitVec.ofNat 32 (n.toNat / 10)).toNat = n.toNat / 10 :=
      Nat.mod_eq_of_lt ((Nat.div_le_self _ _).trans_lt n.isLt)
    rw [dec_eq_digits (by omega), dec_eq_digits (by omega), hdiv, Nat.digits_def' (by decide) (by omega), List.map_cons,
      List.reverse_cons]
  · exact if_pos (by omega)
  · have hpos : n.toNat ≠ 0 := (Nat.pow_pos (by decide) |>.trans_le hlow).ne'
    rw [dec_eq_digits hpos, List.length_reverse, List.length_map, Nat.length_digits 10 _ (by decide) hpos,
      Nat.log_eq_of_pow_le_of_lt_pow hlow hhigh]

/-- The value of a list of digits, most significant first. -/
theorem foldl_asciiDigits {ds : List Nat} (h : ∀ d ∈ ds, d < 10) :
    ((ds.map asciiDigit).reverse).foldl (fun v b => 10 * v + (b.toNat - 0x30)) 0 = Nat.ofDigits 10 ds := by
  rw [List.foldl_reverse]
  induction ds with
  | nil => rfl
  | cons d ds ih =>
    obtain ⟨hd, hds⟩ := List.forall_mem_cons.mp h
    rw [List.map_cons, List.foldr_cons, ih hds, asciiDigit_toNat hd, Nat.ofDigits_cons]
    simp
    omega

/-- Settles O18: the digits of a positive number evaluate to it, and its first digit is not 0. -/
theorem decDigitsEvaluateToTheFileSize : Obligations.DecDigitsEvaluateToTheFileSize := by
  intro n
  by_cases hn : n = 0
  · subst hn
    decide
  have hpos : n.toNat ≠ 0 := fun h => hn (BitVec.eq_of_toNat_eq h)
  have hdigits : ∀ d ∈ Nat.digits 10 n.toNat, d < 10 := fun d => Nat.digits_lt_base (by decide)
  rw [dec_eq_digits hpos]
  refine ⟨fun b hb => ?_, ?_, fun hhead => ?_⟩
  · obtain ⟨d, hd, rfl⟩ := List.mem_map.mp (List.mem_reverse.mp hb)
    have := hdigits d hd
    rw [asciiDigit_toNat this]
    omega
  · rw [foldl_asciiDigits hdigits, Nat.ofDigits_digits]
  · have hne : Nat.digits 10 n.toNat ≠ [] := Nat.digits_ne_nil_iff_ne_zero.mpr hpos
    rw [List.head?_reverse, List.getLast?_map, List.getLast?_eq_some_getLast hne] at hhead
    have hlast := congrArg BitVec.toNat (Option.some.inj hhead)
    rw [asciiDigit_toNat (hdigits _ (List.getLast_mem hne))] at hlast
    exact absurd (Nat.add_left_cancel hlast) (Nat.getLast_digit_ne_zero 10 hpos)

end Sys2Proof.Machine
end

section
/-! PROOFS. The frame commands: the frame each puts on WOUT, what it depends on, the header lines, the overlong commands
(spec/42_framer.md R86 to R95, spec/30_encoding.md R52 to R57). -/

namespace Sys2Proof.Machine

/-! ### The whole of a frame command -/

/-- The whole of a command that draws its payload and puts one frame. -/
theorem perform_framing {size : BlockSize} {seq : Byte} {mode : ChecksumMode} {src : PaySource} {pay rest : List Byte}
    {s : State} (hi : s.phase = .idle) (hd : draw src 0 (blocksize size) s.pin = some (pay, rest))
    (hw : WoutAccepts (3 + blocksize size + trailerLength mode) s) (hr : RspAccepts s) :
    perform (.framing size seq mode src) s = .next { s with
      crc := crc16 pay, sum := sum8 pay, pin := rest,
      wout := s.wout ++ marked (frame s.platform.sum8Complement size seq pay mode),
      rsp := s.rsp ++ [response 0x00 0x0000], cnt := if mode = .crc16 then 1 else 0 } := by
  rw [perform_of_run_to_rsp (run_framing hi hd hw) (hi ▸ phaseFits_idle _ _) rfl hr]
  cases s
  cases hi
  rfl

/-- Settles O26: the payload is drawn from PIN and padded. -/
theorem fdataPutsTheFrameOfItsPaddedBytes : Obligations.FdataPutsTheFrameOfItsPaddedBytes := by
  intro mode size seq n s hn hi hs hr hw
  rw [exec_eq_perform, planOfInstr, fdataPlan_of_le hn]
  exact perform_framing hi (draw_supplied hn hs) hw hr

/-- Settles O27: the payload is the name drawn from PIN, NUL, the digits, and padding. -/
theorem fmetaPutsTheMetadataBlock : Obligations.FmetaPutsTheMetadataBlock := by
  intro mode n fsize s hn hi hs hr hw
  rw [exec_eq_perform, planOfInstr, fmetaPlan_of_le hn]
  exact perform_framing hi (draw_metadata hn hs) hw hr

/-- Settles O28: the payload is zeros, and both checksums of zeros are 0. -/
theorem ftermPutsTheTerminatorBlock : Obligations.FtermPutsTheTerminatorBlock := by
  intro mode s hi hr hw
  have hsum : sum8 (zeros 128) = 0x00 := sum8_append_zeros [] 128
  have h := perform_framing (seq := 0x00) hi (draw_zeros (blocksize .small) s.pin) hw hr
  rw [blocksize, crc16_zeros, hsum] at h
  exact h

/-! ### Two sources of the same payload -/

/-- A command is its lines. -/
theorem perform_congr {p q : Plan} (h : ∀ s, planTick p s = planTick q s) (s : State) : perform p s = perform q s := by
  rw [perform, perform]
  induction commandBound generalizing s with
  | zero => rfl
  | succ n ih => simp only [advance, h, ih]

/-- The lines of a frame see no more of the source than its bytes. -/
theorem planTick_congr_src {size : BlockSize} {seq : Byte} {mode : ChecksumMode} {src src' : PaySource}
    (h : ∀ k, src.paybyte k = src'.paybyte k) (s : State) :
    planTick (.framing size seq mode src) s = planTick (.framing size seq mode src') s := by
  cases hp : s.phase with
  | pay => rw [planTick_pay hp, planTick_pay hp, payLine, payLine, payTake, payTake, h]
  | _ => simp only [planTick, hp] <;> rfl

/-- Settles O29: a supply of no byte gives zeros. -/
theorem ftermIsFdataOfNothing : Obligations.FtermIsFdataOfNothing := by
  intro mode s
  rw [exec_eq_perform, exec_eq_perform, planOfInstr, planOfInstr, ftermPlan, fdataPlan_of_le (Nat.zero_le _)]
  have hsame : ∀ k, PaySource.zeros.paybyte k = (PaySource.supplied 0).paybyte k := fun k => by
    simp [PaySource.paybyte]
  exact perform_congr (planTick_congr_src hsame) s

/-! ### The overlong commands -/

/-- The whole of a refused command. -/
theorem perform_refuse {n : Half} {e : CmdError} {s : State} (hi : s.phase = .idle) (hs : Supplied n s)
    (hr : RspAccepts s) :
    perform (.refuse n e) s = .next { s with
      pin := s.pin.drop n.toNat, rsp := s.rsp ++ [response (statusOf e) 0x0000], cnt := n } := by
  rw [perform_of_run_to_rsp (run_refuse hi hs) (hi ▸ phaseFits_idle _ _) rfl hr]
  cases s
  cases hi
  rfl

/-- Settles O30: the plan is a refusal above the block size, and the boundaries are those of the length test. -/
theorem overlongFdataIsRefused : Obligations.OverlongFdataIsRefused := by
  refine ⟨fun mode size seq n s hn hi hs hr => ?_, fun mode seq => ?_⟩
  · rw [exec_eq_perform, planOfInstr, fdataPlan, if_pos hn]
    exact perform_refuse hi hs hr
  · simp only [wellFormed_fdata]
    decide

/-- Settles O31: the plan is a refusal above 127 bytes, and the boundaries are those of the length test. -/
theorem overlongFmetaIsRefused : Obligations.OverlongFmetaIsRefused := by
  refine ⟨fun mode n fsize s hn hi hs hr => ?_, fun mode => ?_⟩
  · rw [exec_eq_perform, planOfInstr, fmetaPlan, if_pos hn]
    exact perform_refuse hi hs hr
  · simp only [wellFormed_fmeta]
    decide

/-! ### What a frame depends on -/

/-- Payload byte `i` is `b`, made by the command or taken from PIN, which is left as `pin'`. -/
abbrev NextByte (src : PaySource) (i : Nat) (pin : List Byte) (b : Byte) (pin' : List Byte) : Prop :=
  (src.paybyte i = some b ∧ pin' = pin) ∨ (src.paybyte i = none ∧ pin = b :: pin')

theorem dry_or_nextByte (src : PaySource) (i : Nat) (pin : List Byte) :
    (src.paybyte i = none ∧ pin = []) ∨ ∃ b pin', NextByte src i pin b pin' :=
  match h : src.paybyte i, pin with
  | some b, pin => .inr ⟨b, pin, .inl ⟨h, rfl⟩⟩
  | none, [] => .inl ⟨rfl, rfl⟩
  | none, b :: pin => .inr ⟨b, pin, .inr ⟨h, rfl⟩⟩

theorem draw_of_nextByte {src : PaySource} {i : Nat} {pin pin' : List Byte} {b : Byte} (h : NextByte src i pin b pin')
    (k : Nat) : draw src i (k + 1) pin = (draw src (i + 1) k pin').map fun (bs, rest) => (b :: bs, rest) := by
  obtain ⟨hb, rfl⟩ | ⟨hb, rfl⟩ := h <;> simp only [draw, hb]

/-- A draw fails where PIN is dry and the next byte is to come from it. -/
theorem draw_eq_none {src : PaySource} {i n : Nat} {pin : List Byte} (h : draw src i n pin = none) :
    ∃ k bs, k < n ∧ draw src i k pin = some (bs, []) ∧ src.paybyte (i + k) = none := by
  induction n generalizing i pin with
  | zero => cases h
  | succ n ih =>
    obtain ⟨hb, rfl⟩ | ⟨b, pin', hb⟩ := dry_or_nextByte src i pin
    · exact ⟨0, [], Nat.succ_pos n, rfl, hb⟩
    · rw [draw_of_nextByte hb, Option.map_eq_none_iff] at h
      obtain ⟨k, bs, hk, hd, hnone⟩ := ih h
      exact ⟨k + 1, b :: bs, Nat.succ_lt_succ hk, by rw [draw_of_nextByte hb, hd, Option.map_some],
        by rwa [← Nat.add_assoc, Nat.add_right_comm]⟩

/-- Where PIN has too few bytes for the payload, the command holds in PAY. -/
theorem perform_framing_short {size : BlockSize} {seq : Byte} {mode : ChecksumMode} {src : PaySource} {s : State}
    (hi : s.phase = .idle) (hd : draw src 0 (blocksize size) s.pin = none)
    (hw : WoutAccepts (3 + blocksize size) s) :
    ∃ t, perform (.framing size seq mode src) s = .next t ∧ t.phase = .pay := by
  obtain ⟨k, bs, hk, hd, hnone⟩ := draw_eq_none hd
  obtain ⟨j, hj⟩ := Nat.exists_eq_add_of_lt hk
  obtain ⟨hw3, hwpay⟩ := accepts_add hw
  rw [hj, Nat.add_assoc] at hwpay
  have hheader := run_header (size := size) (seq := seq) (mode := mode) (src := src) hi hw3
  have hpay := run_pay (seq := seq) (mode := mode) k bs []
    { clear s with
      wout := s.wout ++ [⟨header size, false⟩, ⟨seq, false⟩, ⟨seqComplement seq, false⟩], phase := .pay, cnt := 0 }
    rfl hd (by simpa using hk) (by simpa [WoutAccepts] using (accepts_add hwpay).1)
  have hdry : src.paybyte (BitVec.ofNat 16 (0 + k)).toNat = none := by
    have hB : blocksize size ≤ 1024 := by cases size <;> decide
    rwa [BitVec.toNat_ofNat, Nat.mod_eq_of_lt (by omega)]
  have hrun := hheader.trans hpay
  exact ⟨_, perform_of_hold hrun (planTick_eq_hold.mpr (.pay rfl hdry rfl))
    (run_length_lt hrun (hi ▸ phaseFits_idle _ _)), rfl⟩

/-- A frame command that completes has drawn its payload, put its frame, and left the checksums of the payload: on
unbounded channels only PIN can hold it up. -/
theorem frame_of_perform_idle {size : BlockSize} {seq : Byte} {mode : ChecksumMode} {src : PaySource} {s t : State}
    (hi : s.phase = .idle) (h : perform (.framing size seq mode src) s = .next t) (ht : t.phase = .idle) :
    ∃ pay, draw src 0 (blocksize size) s.pin = some (pay, t.pin) ∧ t.crc = crc16 pay ∧ t.sum = sum8 pay ∧
      t.wout = s.wout ++ marked (frame s.platform.sum8Complement size seq pay mode) := by
  have hunbounded := perform_unbounded_of_idle (hi ▸ phaseFits_idle _ _) h ht
  cases hd : draw src 0 (blocksize size) s.pin with
  | none =>
    obtain ⟨u, hu, hpay⟩ := perform_framing_short (seq := seq) (mode := mode) (s := s.unbounded) hi hd trivial
    cases hu.symm.trans hunbounded
    cases hpay.symm.trans ht
  | some drawn =>
    obtain ⟨pay, rest⟩ := drawn
    have hframe := perform_framing (seq := seq) (mode := mode) (s := s.unbounded) hi hd trivial trivial
    have hend := Host.Outcome.next.inj (hframe.symm.trans hunbounded)
    exact ⟨pay, congrArg (fun u => some (pay, u.pin)) hend, (congrArg State.crc hend).symm,
      (congrArg State.sum hend).symm, (congrArg State.wout hend).symm⟩

/-- The three frame commands. -/
abbrev IsFrameCommand (i : Instr) : Prop :=
  (∃ mode size seq len, i = .fdata mode size seq len) ∨ (∃ mode len fsize, i = .fmeta mode len fsize) ∨
    (∃ mode, i = .fterm mode)

/-- The plan of an accepted frame command puts a frame. -/
theorem planOfInstr_of_isFrameCommand {i : Instr} (hw : i.WellFormed) (hf : IsFrameCommand i) :
    ∃ size seq mode src, planOfInstr i = .framing size seq mode src := by
  obtain ⟨mode, size, seq, n, rfl⟩ | ⟨mode, n, fsize, rfl⟩ | ⟨mode, rfl⟩ := hf
  · exact ⟨_, _, _, _, fdataPlan_of_le (wellFormed_fdata.mp hw)⟩
  · exact ⟨_, _, _, _, fmetaPlan_of_le (wellFormed_fmeta.mp hw)⟩
  · exact ⟨_, _, _, _, rfl⟩

/-- Settles O35: both commands have put the frame of the one payload that is drawn from the bytes on PIN. -/
theorem framesDependOnOperandsAndPinBytesAlone : Obligations.FramesDependOnOperandsAndPinBytesAlone := by
  intro i s t s' t' hw hf hs ht hk hpin hs' ht' hsi hti
  obtain ⟨size, seq, mode, src, hplan⟩ := planOfInstr_of_isFrameCommand hw hf
  rw [exec_eq_perform, hplan] at hs' ht'
  obtain ⟨pay, hd, hcrc, hsum, hwout⟩ := frame_of_perform_idle hs hs' hsi
  obtain ⟨pay', hd', hcrc', hsum', hwout'⟩ := frame_of_perform_idle ht ht' hti
  rw [hpin, hd'] at hd
  obtain ⟨rfl, hrest⟩ := Prod.mk.inj (Option.some.inj hd)
  rw [hwout, hwout', List.drop_left, List.drop_left, hk, hcrc, hcrc', hsum, hsum']
  exact ⟨rfl, rfl, rfl, hrest.symm⟩

/-! ### The header lines -/

/-- The plan of an accepted frame command has the header and the block number that `DESC` gives it. -/
theorem planOfDescriptor_header {d : Descriptor} {i : Instr} (h : decode d = .ok i) (hf : IsFrameCommand i) :
    ∃ size mode src,
      planOfDescriptor d = .framing size (if fieldOp d = 0x8 then fieldSeq d else 0x00) mode src ∧
      header size = if fieldOp d = 0x8 ∧ fieldSize d = 1 then 0x02 else 0x01 := by
  obtain ⟨hrow, hw⟩ := decode_eq_ok.mp h
  rw [planOfDescriptor_of_ok h]
  obtain rfl := decodeRow_eq_ok.mp hrow
  obtain ⟨mode, size, seq, n, rfl⟩ | ⟨mode, n, fsize, rfl⟩ | ⟨mode, rfl⟩ := hf
  · refine ⟨size, mode, .supplied n, ?_, ?_⟩
    · rw [planOfInstr, fdataPlan_of_le (wellFormed_fdata.mp hw)]
      simp [encode]
    · cases size <;> simp [encode, header, BlockSize.toBit]
  · refine ⟨.small, mode, .metadata n fsize, ?_, ?_⟩
    · rw [planOfInstr, fmetaPlan_of_le (wellFormed_fmeta.mp hw)]
      simp [encode]
    · simp [encode, header]
  · exact ⟨.small, mode, .zeros, by simp [encode, planOfInstr, ftermPlan], by simp [encode, header]⟩

/-- Settles O49: the three lines put what the plan says, and the plan says what `DESC` says. -/
theorem headerStepsFollowTheDescriptor : Obligations.HeaderStepsFollowTheDescriptor := by
  intro s i hrst hd hf hw
  obtain ⟨size, mode, src, hplan, hheader⟩ := planOfDescriptor_header hd hf
  have hroom : WoutRoom s := accepts_one.mp hw
  have htick {s' : State} (hi : s.phase ≠ .idle) (hl : Line (planOfDescriptor s.desc) s s') : tick s = .moves s' :=
    (tick_of_busy hrst hi).trans (planTick_of_line hl)
  rw [hplan] at htick
  refine ⟨fun hp => ?_, fun hp => ?_, fun hp => ?_⟩
  · rw [← hheader]
    exact htick (by simp [hp]) (.hdr hp hroom)
  · exact htick (by simp [hp]) (.seq hp hroom)
  · exact htick (by simp [hp]) (.nseq hp hroom)

end Sys2Proof.Machine
end

section
/-! PROOFS. The host session of spec/43_host_session.md (Machine/Session.lean): one invariant of a session and what one
event may send, from which the claims about modes, retransmission and acceptance follow. -/

namespace Sys2Proof.Machine

/-! ### The outputs, and the host's operations on the session -/

@[simp] theorem commandsOf_append (os os' : List HostOutput) :
    commandsOf (os ++ os') = commandsOf os ++ commandsOf os' := by
  induction os with
  | nil => rfl
  | cons o os ih => cases o <;> simp [commandsOf, ih]

@[simp] theorem commandsOf_nil : commandsOf [] = [] := rfl

@[simp] theorem commandsOf_raw (b : Byte) : commandsOf [.raw b] = [] := rfl

@[simp] theorem commandsOf_command (i : Instr) (pin : List Byte) : commandsOf [.command i pin] = [(i, pin)] := rfl

/-- The block at `filePosition` as a command with its PIN bytes (R110 steps 3 and 4). -/
def Session.dataCommand (s : Session) (m : ChecksumMode) : HostOutput :=
  .command (.fdata m s.blockSize s.blockNumber (BitVec.ofNat 16 (blockBytes s).length)) (blockBytes s)

theorem sendBlock_outputs {s : Session} {m : ChecksumMode} (hm : s.checksumMode = some m) :
    (sendBlock s).outputs = s.outputs ++ [s.dataCommand m] := by
  simp [sendBlock, hm, Session.issue, Session.dataCommand]

theorem sendBlock_counters (s : Session) :
    (sendBlock s).retryCount = s.retryCount ∧ (sendBlock s).blockNumber = s.blockNumber ∧
      (sendBlock s).filePosition = s.filePosition := by
  unfold sendBlock
  split
  · exact ⟨rfl, rfl, rfl⟩
  · exact ⟨rfl, rfl, rfl⟩

theorem nextBlock_counters {s : Session} (hr : s.retryCount = 0) :
    (nextBlock s).retryCount = 0 ∧ (nextBlock s).blockNumber = s.blockNumber ∧
      (nextBlock s).filePosition = s.filePosition := by
  unfold nextBlock
  split
  · exact sendBlock_counters _
  · exact ⟨hr, rfl, rfl⟩

theorem retryBlock_of_gt {p : HostParams} {s : Session} (h : s.retryCount + 1 > p.maxRetry) :
    retryBlock p s = { s with retryCount := s.retryCount + 1 }.abort .retryExhausted := if_pos h

theorem retryBlock_of_le {p : HostParams} {s : Session} (h : s.retryCount + 1 ≤ p.maxRetry) :
    retryBlock p s = sendBlock { s with retryCount := s.retryCount + 1 } := if_neg (Nat.not_lt.mpr h)

theorem retryBlock_counters (p : HostParams) (s : Session) :
    (retryBlock p s).filePosition = s.filePosition ∧ (retryBlock p s).retryCount = s.retryCount + 1 := by
  rcases Nat.lt_or_ge p.maxRetry (s.retryCount + 1) with h | h
  · rw [retryBlock_of_gt h]
    exact ⟨rfl, rfl⟩
  · obtain ⟨hretry, -, hpos⟩ := sendBlock_counters { s with retryCount := s.retryCount + 1 }
    rw [retryBlock_of_le h]
    exact ⟨hpos, hretry⟩

theorem acknowledgeBlock_counters (s : Session) :
    (acknowledgeBlock s).retryCount = 0 ∧ (acknowledgeBlock s).blockNumber = s.blockNumber + 1 ∧
      (acknowledgeBlock s).filePosition = s.filePosition + (blockBytes s).length :=
  nextBlock_counters rfl

/-! ### The commands a session may issue -/

/-- A command with its PIN bytes as a session of mode `m` may issue it (R118 items 2 and 6). -/
structure Issuable (m : ChecksumMode) (i : Instr) (pin : List Byte) : Prop where
  mode : modeOf i = some m
  wellFormed : i.WellFormed
  supplied : (fieldLen (encode i)).toNat = pin.length

theorem blockBytes_length_le (s : Session) : (blockBytes s).length ≤ blocksize s.blockSize := by
  simp [blockBytes]

theorem issuable_block (s : Session) (m : ChecksumMode) :
    Issuable m (.fdata m s.blockSize s.blockNumber (BitVec.ofNat 16 (blockBytes s).length)) (blockBytes s) := by
  have hle := blockBytes_length_le s
  have hlt : (blockBytes s).length < 2 ^ 16 := hle.trans_lt (by cases s.blockSize <;> decide)
  have hnat : (BitVec.ofNat 16 (blockBytes s).length).toNat = (blockBytes s).length := Nat.mod_eq_of_lt hlt
  exact ⟨rfl, wellFormed_fdata.mpr (hnat.trans_le hle), by simpa [encode] using hnat⟩

theorem issuable_metadata {m : ChecksumMode} {name : List Byte} {fsize : BitVec 32} (hlen : name.length < 2 ^ 16)
    (hw : (Instr.fmeta m (BitVec.ofNat 16 name.length) fsize).WellFormed) :
    Issuable m (.fmeta m (BitVec.ofNat 16 name.length) fsize) name :=
  ⟨rfl, hw, by simpa [encode] using hlen⟩

theorem issuable_terminator (m : ChecksumMode) : Issuable m (.fterm m) [] :=
  ⟨rfl, rfl, by simp [encode]⟩

/-! ### The invariant of a session -/

/-- Every command so far is one that a session of the mode it holds may issue. -/
def Session.CommandsOk (s : Session) : Prop :=
  ∀ c ∈ commandsOf s.outputs, ∃ m, s.checksumMode = some m ∧ Issuable m c.1 c.2

/-- What the stage says about the rest of the session: nothing is sent before the handshake has chosen a mode; every other
wait has a mode; and a data block that waits for its reply is the last output. -/
def Session.StageOk (s : Session) : Prop :=
  match s.stage with
  | .handshake _ => s.outputs = []
  | .dataReply _ => ∃ m, s.checksumMode = some m ∧ s.outputs.getLast? = some (s.dataCommand m)
  | .metaReply _ | .eotReply _ _ | .secondSync _ | .termReply _ => ∃ m, s.checksumMode = some m
  | .done | .aborted _ => True

/-- The invariant of a session. -/
structure Session.Valid (s : Session) : Prop where
  commands : s.CommandsOk
  stage : s.StageOk

/-- What every event keeps and does: the invariant, and that a command it issues leaves its response due. -/
structure Session.Follows (s t : Session) : Prop where
  valid : t.Valid
  due : ∀ i pin, t.outputs = s.outputs ++ [.command i pin] → t.responseDue = true

/-- What an event sends is read off the outputs before it alone. -/
theorem Session.Follows.of_outputs_eq {s s' t : Session} (h : s'.Follows t) (hout : s'.outputs = s.outputs) :
    s.Follows t where
  valid := h.valid
  due := hout ▸ h.due

theorem startSession_valid (v : Variant) (name file : List Byte) : (startSession v name file).Valid :=
  ⟨by simp [Session.CommandsOk, startSession], rfl⟩

theorem Session.Valid.outputs_of_handshake {s : Session} {n : Nat} (hv : s.Valid) (hst : s.stage = .handshake n) :
    s.outputs = [] := by
  simpa [StageOk, hst] using hv.stage

theorem Session.Valid.lastOutput_of_dataReply {s : Session} {n : Nat} (hv : s.Valid) (hst : s.stage = .dataReply n) :
    ∃ m, s.checksumMode = some m ∧ s.outputs.getLast? = some (s.dataCommand m) := by
  simpa [StageOk, hst] using hv.stage

/-! ### What the host's operations keep -/

section Operations

variable {s t : Session} {m : ChecksumMode}

/-- An event that sends nothing. -/
theorem Session.CommandsOk.follows_silent (hc : s.CommandsOk) (hout : t.outputs = s.outputs)
    (hmode : t.checksumMode = s.checksumMode) (hst : t.StageOk) : s.Follows t where
  valid := ⟨by simpa [CommandsOk, hout, hmode] using hc, hst⟩
  due := by simp [hout]

theorem Session.CommandsOk.follows_abort (hc : s.CommandsOk) (e : HostError) : s.Follows (s.abort e) :=
  hc.follows_silent rfl rfl trivial

theorem Session.CommandsOk.follows_write_eot (hc : s.CommandsOk) (hm : s.checksumMode = some m) (k n : Nat) :
    s.Follows (s.write wireEot (.eotReply k n)) where
  valid := ⟨by simpa [CommandsOk, Session.write] using hc, ⟨m, hm⟩⟩
  due := by simp [Session.write]

theorem Session.CommandsOk.follows_issue {i : Instr} {pin : List Byte} {stage : Stage} (hc : s.CommandsOk)
    (hm : s.checksumMode = some m) (hi : Issuable m i pin) (hst : (s.issue i pin stage).StageOk) :
    s.Follows (s.issue i pin stage) where
  valid := by
    refine ⟨fun c hmem => ?_, hst⟩
    obtain hold | rfl : c ∈ commandsOf s.outputs ∨ c = (i, pin) := by simpa [Session.issue] using hmem
    · exact hc c hold
    · exact ⟨m, hm, hi⟩
  due _ _ _ := rfl

theorem Session.CommandsOk.follows_sendBlock (hc : s.CommandsOk) (hm : s.checksumMode = some m) :
    s.Follows (sendBlock s) := by
  have hlast : (sendBlock s).outputs.getLast? = some (s.dataCommand m) := by simp [sendBlock_outputs hm]
  simp only [sendBlock, hm] at hlast ⊢
  exact hc.follows_issue hm (issuable_block s m) ⟨m, hm, hlast⟩

/-- Neither the block's size, number and position nor the retry count matters to what the session has sent so far. -/
theorem Session.CommandsOk.follows_nextBlock (hc : s.CommandsOk) (hm : s.checksumMode = some m) :
    s.Follows (nextBlock s) := by
  unfold nextBlock
  split
  · exact (follows_sendBlock (s := { s with blockSize := _, retryCount := 0 }) hc hm).of_outputs_eq rfl
  · exact hc.follows_write_eot hm 1 0

theorem Session.CommandsOk.follows_acknowledgeBlock (hc : s.CommandsOk) (hm : s.checksumMode = some m) :
    s.Follows (acknowledgeBlock s) :=
  (follows_nextBlock (s := { s with blockNumber := _, filePosition := _, retryCount := 0 }) hc hm).of_outputs_eq rfl

theorem Session.CommandsOk.follows_retryBlock (hc : s.CommandsOk) (hm : s.checksumMode = some m) (p : HostParams) :
    s.Follows (retryBlock p s) := by
  rcases Nat.lt_or_ge p.maxRetry (s.retryCount + 1) with h | h
  · rw [retryBlock_of_gt h]
    exact hc.follows_silent rfl rfl trivial
  · rw [retryBlock_of_le h]
    exact (follows_sendBlock (s := { s with retryCount := s.retryCount + 1 }) hc hm).of_outputs_eq rfl

theorem Session.CommandsOk.follows_sendMetadata (hc : s.CommandsOk) (hm : s.checksumMode = some m) :
    s.Follows (sendMetadata s) := by
  simp only [sendMetadata, hm]
  split
  next h =>
    obtain ⟨hlen, -, hw⟩ := h
    exact hc.follows_issue hm (issuable_metadata hlen hw) ⟨m, hm⟩
  next => exact hc.follows_abort _

theorem Session.CommandsOk.follows_sendTerminator (hc : s.CommandsOk) (hm : s.checksumMode = some m) :
    s.Follows (sendTerminator s) := by
  simp only [sendTerminator, hm]
  exact hc.follows_issue hm (issuable_terminator m) ⟨m, hm⟩

theorem Session.CommandsOk.follows_retryEot (hc : s.CommandsOk) (hm : s.checksumMode = some m) (p : HostParams)
    (sends : Nat) : s.Follows (retryEot p sends s) := by
  unfold retryEot
  split
  · exact hc.follows_write_eot hm _ 0
  · exact hc.follows_abort _

/-- The handshake may set the mode because no command has been issued yet. -/
theorem Session.follows_afterHandshake (hout : s.outputs = []) (m : ChecksumMode) :
    s.Follows (afterHandshake m s) := by
  have hc : { s with checksumMode := some m }.CommandsOk := by simp [CommandsOk, hout]
  refine Follows.of_outputs_eq (s' := { s with checksumMode := some m }) ?_ rfl
  dsimp only [afterHandshake]
  split
  · exact hc.follows_nextBlock rfl
  · exact hc.follows_sendMetadata rfl

end Operations

/-! ### What an event keeps -/

section Events

variable {p : HostParams} {s : Session}

/-- A read, by the stage it is made in. -/
theorem Session.Valid.follows_onRead (hv : s.Valid) (r : ReadResult) : s.Follows (onRead p s r) := by
  have hc := hv.commands
  have hstage := hv.stage
  unfold onRead
  unfold StageOk at hstage
  cases hst : s.stage <;> simp only [hst] at hstage ⊢
  case handshake n =>
    split_ifs
    · exact follows_afterHandshake hstage _
    · exact follows_afterHandshake hstage _
    · exact hc.follows_silent rfl rfl hstage
    · exact hc.follows_abort _
  case metaReply n =>
    obtain ⟨m, hm⟩ := hstage
    split_ifs
    · exact hc.follows_nextBlock hm
    · cases waitAck p n r with
      | wait k => exact hc.follows_silent rfl rfl ⟨m, hm⟩
      | cancelled | reply _ | timedOut => exact hc.follows_nextBlock hm
  case dataReply n =>
    obtain ⟨m, hm, hlast⟩ := hstage
    cases waitAck p n r with
    | cancelled | timedOut => exact hc.follows_abort _
    | wait k => exact hc.follows_silent rfl rfl ⟨m, hm, hlast⟩
    | reply b =>
      dsimp only
      split_ifs
      · exact hc.follows_acknowledgeBlock hm
      · exact hc.follows_retryBlock hm p
      · cases p.onCReply with
        | asNak => exact hc.follows_retryBlock hm p
        | waitAgain => exact hc.follows_silent rfl rfl ⟨m, hm, hlast⟩
        | abort => exact hc.follows_abort _
  case eotReply k n =>
    obtain ⟨m, hm⟩ := hstage
    cases waitAck p n r with
    | cancelled => exact hc.follows_abort _
    | timedOut => exact hc.follows_retryEot hm p k
    | wait n' => exact hc.follows_silent rfl rfl ⟨m, hm⟩
    | reply b =>
      dsimp only
      split_ifs
      · cases s.variant with
        | xmodem => exact hc.follows_silent rfl rfl trivial
        | ymodem => exact hc.follows_silent rfl rfl ⟨m, hm⟩
      · exact hc.follows_retryEot hm p k
  case secondSync n =>
    obtain ⟨m, hm⟩ := hstage
    split_ifs
    · exact hc.follows_sendTerminator hm
    · exact hc.follows_silent rfl rfl ⟨m, hm⟩
    · exact hc.follows_abort _
  case termReply n =>
    obtain ⟨m, hm⟩ := hstage
    cases waitAck p n r with
    | cancelled | timedOut => exact hc.follows_abort _
    | wait k => exact hc.follows_silent rfl rfl ⟨m, hm⟩
    | reply b =>
      dsimp only
      split_ifs
      · exact hc.follows_silent rfl rfl trivial
      · exact hc.follows_abort _
  case done | aborted => exact hc.follows_silent rfl rfl hv.stage

theorem onEvent_read_of_due (hd : s.responseDue = true) (r : ReadResult) : onEvent p s (.read r) = s := by
  simp [onEvent, hd]

theorem onEvent_read (ho : s.over = false) (hd : s.responseDue = false) (r : ReadResult) :
    onEvent p s (.read r) = onRead p s r := by
  simp [onEvent, ho, hd]

theorem onEvent_response (ho : s.over = false) (hd : s.responseDue = true) (w : Response) :
    onEvent p s (.response w) = takeResponse s w := by
  simp [onEvent, ho, hd]

theorem takeResponse_of_done {w : Response} (h : responseStatus w = 0x00) :
    takeResponse s w = { s with responseDue := false } := if_pos h

theorem takeResponse_of_ne {w : Response} (h : responseStatus w ≠ 0x00) :
    takeResponse s w = { s with responseDue := false }.abort .refusedByBlock := if_neg h

/-- A response sends nothing, whatever its status. -/
theorem Session.Valid.follows_takeResponse (hv : s.Valid) (w : Response) : s.Follows (takeResponse s w) := by
  by_cases h : responseStatus w = 0x00
  · rw [takeResponse_of_done h]
    exact hv.commands.follows_silent rfl rfl hv.stage
  · rw [takeResponse_of_ne h]
    exact hv.commands.follows_silent rfl rfl trivial

theorem Session.Valid.follows_onEvent (hv : s.Valid) (r : HostEvent) : s.Follows (onEvent p s r) := by
  have hself : s.Follows s := hv.commands.follows_silent rfl rfl hv.stage
  unfold onEvent
  split
  · exact hself
  · cases r with
    | transportFailed | storageFailed => exact hv.commands.follows_abort _
    | response w =>
      dsimp only
      split
      · exact hv.follows_takeResponse w
      · exact hself
    | read r =>
      dsimp only
      split
      · exact hself
      · exact hv.follows_onRead r

theorem Session.Valid.valid_runSession (hv : s.Valid) (rs : List HostEvent) : (runSession p s rs).Valid := by
  induction rs generalizing s with
  | nil => exact hv
  | cons r rs ih => exact ih (hv.follows_onEvent r).valid

end Events

/-- A session holds its invariant, whatever the transport and the block answer. -/
theorem runSession_valid (p : HostParams) (v : Variant) (name file : List Byte) (rs : List HostEvent) :
    (runSession p (startSession v name file) rs).Valid :=
  (startSession_valid v name file).valid_runSession rs

/-! ### The claims -/

/-- Settles O58: the invariant holds of every session, and the modes are part of it. -/
theorem sessionFramesCarryOneChecksumMode : Obligations.SessionFramesCarryOneChecksumMode := by
  intro p v name file rs c hmem
  obtain ⟨m, hm, hi⟩ := (runSession_valid p v name file rs).commands c hmem
  rw [hm, hi.mode]
  exact ⟨rfl, Option.some_ne_none m⟩

/-- A NAK or an ACK read while a data block waits for its reply. -/
theorem onEvent_nak_of_dataReply {p : HostParams} {s : Session} {n : Nat} (hst : s.stage = .dataReply n)
    (hd : s.responseDue = false) : onEvent p s (.read (.byte wireNak)) = retryBlock p s := by
  rw [onEvent_read (by simp [Session.over, hst]) hd]
  simp [onRead, hst, waitAck, wireNak, wireCan, wireAck]

/-- See `onEvent_nak_of_dataReply`. -/
theorem onEvent_ack_of_dataReply {p : HostParams} {s : Session} {n : Nat} (hst : s.stage = .dataReply n)
    (hd : s.responseDue = false) : onEvent p s (.read (.byte wireAck)) = acknowledgeBlock s := by
  rw [onEvent_read (by simp [Session.over, hst]) hd]
  simp [onRead, hst, waitAck, wireCan, wireAck]

/-- Settles O59: the last output is the block at the file position, and a retry sends that block. -/
theorem retransmissionRepeatsTheSameCommand : Obligations.RetransmissionRepeatsTheSameCommand := by
  intro p v name file rs n s hst hd t u
  have ht : t = retryBlock p s := onEvent_nak_of_dataReply hst hd
  have hu : u = acknowledgeBlock s := onEvent_ack_of_dataReply hst hd
  obtain ⟨hpos, hretry⟩ := retryBlock_counters p s
  rw [ht, hu, hretry]
  refine ⟨hpos, rfl, fun hle => ?_, fun hgt => ?_, acknowledgeBlock_counters s⟩
  · obtain ⟨m, hm, hlast⟩ := (runSession_valid p v name file rs).lastOutput_of_dataReply hst
    rw [retryBlock_of_le hle]
    exact ⟨s.dataCommand m, hlast, sendBlock_outputs (s := { s with retryCount := _ }) hm⟩
  · rw [retryBlock_of_gt hgt]
    exact ⟨rfl, rfl⟩

/-- Settles O60: the invariant gives the commands' acceptance and their bytes, and every event that issues one leaves its
response due. -/
theorem sessionCommandsAreAcceptedAndSupplied : Obligations.SessionCommandsAreAcceptedAndSupplied := by
  intro p v name file rs s
  have hv : s.Valid := runSession_valid p v name file rs
  refine ⟨fun c hmem => ?_, fun hd ho w => ?_, fun i pin r => (hv.follows_onEvent r).due i pin⟩
  · obtain ⟨m, -, hi⟩ := hv.commands c hmem
    exact ⟨hi.wellFormed, hi.supplied⟩
  · rw [onEvent_response ho hd]
    refine ⟨takeResponse_of_done, fun hne => ?_, onEvent_read_of_due hd⟩
    rw [takeResponse_of_ne hne]
    exact ⟨rfl, rfl⟩

end Sys2Proof.Machine
end

section
/-! PROOFS. Refused descriptors: which error the decoder answers and when, what a refusal does, and that it is no stop of
the machine (spec/60_exceptions.md R135 to R140, R149). -/

namespace Sys2Proof

/-! ### The error of a descriptor -/

/-- The error is that of the row test or, where that passes, of the command's length test (60_exceptions.md R140). -/
theorem decode_eq_error {d : Descriptor} {e : CmdError} :
    decode d = .error e ↔ decodeRow d = .error e ∨ ∃ i, decodeRow d = .ok i ∧ i.lengthError = some e := by
  unfold decode
  cases decodeRow d with
  | error e' => simp
  | ok i => cases hl : i.lengthError <;> simp [hl]

/-- The row test knows one error (60_exceptions.md R136). -/
theorem eq_illegalCommand_of_decodeRow {d : Descriptor} {e : CmdError} (h : decodeRow d = .error e) :
    e = .illegalCommand := by
  unfold decodeRow at h
  split at h
  case h_8 => cases h; rfl
  all_goals
    split_ifs at h
    cases h
    rfl

theorem lengthError_ne_illegalCommand (i : Instr) : i.lengthError ≠ some .illegalCommand := by
  cases i <;> simp [Instr.lengthError]

theorem lengthError_eq_payloadTooLong {i : Instr} : i.lengthError = some .payloadTooLong ↔
    ∃ mode size seq len, i = .fdata mode size seq len ∧ len.toNat > Machine.blocksize size := by
  cases i <;> simp [Instr.lengthError]

theorem lengthError_eq_nameTooLong {i : Instr} : i.lengthError = some .nameTooLong ↔
    ∃ mode len fsize, i = .fmeta mode len fsize ∧ len.toNat + (Machine.dec fsize).length > 127 := by
  cases i <;> simp [Instr.lengthError]

/-- `IllegalCommand` is the row test's error alone. -/
theorem decode_eq_illegalCommand {d : Descriptor} :
    decode d = .error .illegalCommand ↔ decodeRow d = .error .illegalCommand := by
  rw [decode_eq_error, or_iff_left]
  rintro ⟨i, -, hl⟩
  exact lengthError_ne_illegalCommand i hl

/-- The other two errors are the length test's alone. -/
theorem decode_eq_lengthError {d : Descriptor} {e : CmdError} (he : e ≠ .illegalCommand) :
    decode d = .error e ↔ ∃ i, decodeRow d = .ok i ∧ i.lengthError = some e := by
  rw [decode_eq_error, or_iff_right]
  exact fun h => he (eq_illegalCommand_of_decodeRow h)

/-- An opcode is one of the nine reserved ones or has a row (30_encoding.md R48). -/
theorem opcode_reserved : ∀ op : BitVec 4, op ∈ ([0x0, 0x5, 0x6, 0x7, 0xB, 0xC, 0xD, 0xE, 0xF] : List (BitVec 4)) ↔
    op ∉ ([0x1, 0x2, 0x3, 0x4, 0x8, 0x9, 0xA] : List (BitVec 4)) := by decide

/-- Settles O7: the row test, opcode by opcode; an opcode in no row is a reserved one. -/
theorem illegalCommandIsExactlyReservedOpcodeOrField : Obligations.IllegalCommandIsExactlyReservedOpcodeOrField := by
  intro d
  rw [decode_eq_illegalCommand]
  unfold decodeRow
  split
  case h_8 h1 h2 h3 h4 h8 h9 hA =>
    have hreserved := (opcode_reserved (fieldOp d)).mpr
      (by simpa [BitVec.toNat_eq] using ⟨h1, h2, h3, h4, h8, h9, hA⟩)
    exact iff_of_true rfl (.inl hreserved)
  all_goals
    next hop =>
    simp [fieldOp_eq_of_toNat hop, imp_iff_not_or]

/-- Settles O8: each length error is that of one command, which has passed the row test. -/
theorem lengthErrorsAreExactlyTheirCommandsOverlong : Obligations.LengthErrorsAreExactlyTheirCommandsOverlong := by
  intro d
  rw [decode_eq_lengthError (by decide), decode_eq_lengthError (by decide)]
  simp only [lengthError_eq_payloadTooLong, lengthError_eq_nameTooLong]
  constructor <;> constructor
  · rintro ⟨_, hrow, mode, size, seq, len, rfl, hlen⟩
    exact ⟨mode, size, seq, len, hrow, hlen⟩
  · rintro ⟨mode, size, seq, len, hrow, hlen⟩
    exact ⟨_, hrow, mode, size, seq, len, rfl, hlen⟩
  · rintro ⟨_, hrow, mode, len, fsize, rfl, hlen⟩
    exact ⟨mode, len, fsize, hrow, hlen⟩
  · rintro ⟨mode, len, fsize, hrow, hlen⟩
    exact ⟨_, hrow, mode, len, fsize, rfl, hlen⟩

end Sys2Proof

namespace Sys2Proof.Machine

/-! ### A refused descriptor -/

/-- A refused command with too few bytes on PIN: it takes them and holds in DRAIN. -/
theorem perform_refuse_idle_short {n : Half} {e : CmdError} {s : State} (hi : s.phase = .idle)
    (hpin : s.pin.length < n.toNat) :
    perform (.refuse n e) s = .next { s with
      pin := [], phase := .drain, cnt := BitVec.ofNat 16 s.pin.length } := by
  have hraise : PlanRun (.refuse n e) 1 s (raise s) := .line (.refused hi) (by simp)
  rw [perform_eq_of_run hraise (hi ▸ phaseFits_idle _ _), perform_refuse_short (raise_phase s) (by simpa using hpin)]
  simp [raise]

/-- Settles O32: the step is the refusal, with all bytes there and with too few. -/
theorem refusedDescriptorIsDrainedAndAnswered : Obligations.RefusedDescriptorIsDrainedAndAnswered := by
  intro d ds e s hc hd hr hi
  rw [step_of_idle_cons hr hi hc, planOfDescriptor_of_error hd]
  exact ⟨fun hs hrsp => perform_refuse (s := { s with cmd := ds, desc := d }) hi hs hrsp,
    fun hpin => perform_refuse_idle_short (s := { s with cmd := ds, desc := d }) hi hpin⟩

/-! ### No stop -/

/-- In a coherent state the step waits, or the phase fits the command it runs. -/
theorem step_next {s : State} (hs : Coherent s) : ∃ t, step s = .next t := by
  cases hd : currentDescriptor s with
  | none => exact ⟨s, step_of_no_descriptor hd⟩
  | some d =>
    obtain ⟨hf, -⟩ := latched_coherentIn hd hs
    rw [step_of_descriptor hd]
    exact perform_next hf

theorem coherent_of_reachable {s : State} (h : Reachable s) : Coherent s := by
  induction h with
  | reset p _ => exact resetIsCoherent p
  | tick s s' _ h' ih => exact tick_coherent ih h'
  | act a s s' _ h' ih => exact act_coherent ih h'

/-- Settles O55: coherent states are kept by the step, and every reachable state is one. -/
theorem reachableStatesNeverStop : Obligations.ReachableStatesNeverStop := by
  refine ⟨fun s hs => ?_, fun s hs => step_next (coherent_of_reachable hs)⟩
  obtain ⟨t, ht⟩ := step_next hs
  exact ⟨t, ht, stepKeepsCoherence s t hs ht⟩

end Sys2Proof.Machine
end

section
/-! PROOFS. Reset, where the block holds, and the count of byte steps
(spec/70_reset_and_hazards.md R155, R157, R163, R164). -/

namespace Sys2Proof.Machine

/-! ### Reset -/

/-- Settles O2: `RST` is looked at before anything else, and its release writes no channel. -/
theorem resetAbandonsTheCommandInProgress : Obligations.ResetAbandonsTheCommandInProgress := fun _ =>
  ⟨_, rfl, tick_of_rst rfl, step_of_rst rfl, _, rfl, rfl, rfl, rfl, rfl, rfl, rfl, rfl, rfl⟩

/-! ### The current descriptor, in IDLE and inside a command -/

/-- In IDLE it is the oldest on CMD (20_memory.md R35). -/
theorem cmd_of_idle_descriptor {s : State} {d : Descriptor} (h : currentDescriptor s = some d)
    (hi : s.phase = .idle) : ∃ ds, s.cmd = d :: ds :=
  List.head?_eq_some_iff.mp (by simpa [currentDescriptor, rst_of_descriptor h, hi] using h)

/-- Inside a command it is latched already (10_state.md R12). -/
theorem desc_of_busy_descriptor {s : State} {d : Descriptor} (h : currentDescriptor s = some d)
    (hi : s.phase ≠ .idle) : s.desc = d := by
  simpa [currentDescriptor, rst_of_descriptor h, hi] using h

/-! ### Holds -/

/-- A frame takes from PIN every payload byte below `len` (42_framer.md R86, R90, R94). -/
theorem paybyte_of_lt_fieldLen {d : Descriptor} {size : BlockSize} {seq : Byte} {mode : ChecksumMode}
    {src : PaySource} {k : Nat} (h : planOfDescriptor d = .framing size seq mode src)
    (hk : k < (fieldLen d).toNat) : src.paybyte k = none := by
  obtain ⟨_, h'⟩ | ⟨_, h'⟩ | ⟨_, h'⟩ | ⟨_, _, _, h'⟩ | ⟨_, _, _, h'⟩ | ⟨_, _, h', hlen⟩ :=
    planOfDescriptor_cases d <;> cases h.symm.trans h'
  · simp [PaySource.paybyte, hk]
  · simp [PaySource.paybyte, hk]
  · simp [hlen] at hk

/-- Where a line of the latched command moves the block waits for nothing. -/
theorem not_holds_of_line {s t : State} (h : Line (planOfDescriptor s.desc) s t) (hi : s.phase ≠ .idle)
    (hr : s.rst = false) : ¬ Holds s := by
  have htakes := planOfDescriptor_takesBelow s.desc
  have hmade := @paybyte_of_lt_fieldLen s.desc
  generalize planOfDescriptor s.desc = p at h htakes hmade
  simp only [Holds, waitsFor, hr]
  cases h with
  | refused h | engineStart h | readStart h | frameStart h => exact absurd h hi
  | drainTake h hc hp | absorbTake h hc hp => simp [h, hp]
  | drainDone h hc | absorbDone h hc =>
    obtain rfl := htakes
    simp [h, hc]
  | hdr h hw | seq h hw | nseq h hw | trlSum h hw | trlHigh h hw | trlLow h hw => simp [h, hw]
  | pay h hb hw | payLast h hb hw =>
    have hpin : ¬ (s.cnt < fieldLen s.desc ∧ s.pin = []) := by
      rintro ⟨hc, hpin⟩
      have hnone := hmade rfl (BitVec.lt_def.mp hc)
      simp [PayByte, hnone, hpin] at hb
    simp [h, hpin, hw]
  | rsp h hw => simp [h, hw]

/-- With a descriptor to take, IDLE is no hold. -/
theorem not_holds_of_idle_descriptor {s : State} {d : Descriptor} (h : currentDescriptor s = some d)
    (hi : s.phase = .idle) : ¬ Holds s := by
  obtain ⟨ds, hc⟩ := cmd_of_idle_descriptor h hi
  simp [Holds, waitsFor, rst_of_descriptor h, hi, hc]

/-- The first line of a command never waits. -/
theorem tick_ne_hold_of_idle_descriptor {s : State} {d : Descriptor} (h : currentDescriptor s = some d)
    (hi : s.phase = .idle) : tick s ≠ .hold := by
  obtain ⟨t, ht, -, -⟩ := idle_starts (planOfDescriptor d) (s := latched s d) hi
  rw [tick_of_descriptor h, ht]
  nofun

/-- The byte step is not enabled exactly where R163 says that the block holds. -/
theorem tick_eq_hold_iff_holds {s : State} (hs : Coherent s) : tick s = .hold ↔ Holds s := by
  cases hd : currentDescriptor s with
  | none => exact iff_of_true (tick_of_no_descriptor hd) (holds_of_no_descriptor hd)
  | some d =>
    by_cases hi : s.phase = .idle
    · exact iff_of_false (tick_ne_hold_of_idle_descriptor hd hi) (not_holds_of_idle_descriptor hd hi)
    · have hr := rst_of_descriptor hd
      rw [tick_of_busy hr hi]
      cases hm : planTick (planOfDescriptor s.desc) s with
      | moves t => exact iff_of_false nofun (not_holds_of_line (line_of_planTick hm) hi hr)
      | hold => exact iff_of_true rfl (holds_of_blocked (planTick_eq_hold.mp hm))
      | stray => exact absurd hm (planTick_ne_stray hs.1)

/-- The step leaves a coherent state as it is exactly where no byte step is enabled: a command that moves leaves CMD
shorter, or ends elsewhere. -/
theorem step_eq_self_iff_tick_eq_hold {s : State} (hs : Coherent s) : step s = .next s ↔ tick s = .hold := by
  cases hd : currentDescriptor s with
  | none => exact iff_of_true (step_of_no_descriptor hd) (tick_of_no_descriptor hd)
  | some d =>
    by_cases hi : s.phase = .idle
    · refine iff_of_false (fun h => ?_) (tick_ne_hold_of_idle_descriptor hd hi)
      obtain ⟨ds, hc⟩ := cmd_of_idle_descriptor hd hi
      rw [step_of_descriptor hd] at h
      have hkeeps := perform_fixedFields h
      simp [hi, hc] at hkeeps
    · have hr := rst_of_descriptor hd
      rw [step_of_busy hr hi, tick_of_busy hr hi]
      refine ⟨fun h => planTick_eq_hold.mpr ((perform_ends hs.1 h).resolve_left hi), fun h => ?_⟩
      exact perform_of_hold (.refl s) h (by decide)

/-- Settles O40: the byte step and the step, each with R163. -/
theorem holdsExactlyWhereTheSpecSays : Obligations.HoldsExactlyWhereTheSpecSays := fun _ hs =>
  ⟨tick_eq_hold_iff_holds hs, (step_eq_self_iff_tick_eq_hold hs).trans (tick_eq_hold_iff_holds hs)⟩

/-! ### Late bytes -/

/-- Settles O42: the run to the hold is a run with the later bytes behind it too, and its end goes on as its start. -/
theorem lateBytesGiveTheSameResult : Obligations.LateBytesGiveTheSameResult := by
  intro s u bs hs h hu
  cases hd : currentDescriptor s with
  | none =>
    cases (step_of_no_descriptor hd).symm.trans h
    rfl
  | some d =>
    obtain ⟨hf, -⟩ := latched_coherentIn hd hs
    rw [step_of_descriptor hd] at h
    obtain ⟨n, hrun⟩ := run_of_perform_busy hf h hu
    obtain ⟨hdesc, hrst, -, -⟩ := run_keeps hrun
    have hr : u.rst = false := hrst.trans (rst_of_descriptor (s := s) hd)
    calc step { u with pin := u.pin ++ bs }
        = perform (planOfDescriptor u.desc) { u with pin := u.pin ++ bs } := step_of_busy hr hu
      _ = perform (planOfDescriptor d) { u with pin := u.pin ++ bs } := by rw [hdesc]
      _ = perform (planOfDescriptor d) (latched { s with pin := s.pin ++ bs } d) :=
        (perform_eq_of_run (run_append_pin hrun bs) hf).symm
      _ = step { s with pin := s.pin ++ bs } :=
        (step_of_descriptor (s := { s with pin := s.pin ++ bs }) hd).symm

/-! ### The count of byte steps -/

/-- How many lines of 42_framer.md R89 the command of a plan takes if nothing holds (R164): one for each byte, one to
leave IDLE, one to leave ABSORB or DRAIN, one for the response. -/
def Plan.lineCount : Plan → Nat
  | .refuse len _ => len.toNat + 3
  | .engine len _ => len.toNat + 3
  | .readback _ => 2
  | .framing size _ mode _ => blocksize size + 5 + trailerLength mode

/-- The count of a descriptor is that of its plan. -/
theorem stepCount_eq_lineCount (d : Descriptor) : stepCount d = (planOfDescriptor d).lineCount := by
  unfold stepCount
  cases hd : decode d with
  | error e => rw [planOfDescriptor_of_error hd]; rfl
  | ok i =>
    obtain ⟨-, hw⟩ := decode_eq_ok.mp hd
    rw [planOfDescriptor_of_ok hd]
    cases i with
    | sum8 | crc16 | rdsum | rdcrc | fterm => rfl
    | fdata => rw [planOfInstr, fdataPlan_of_le (wellFormed_fdata.mp hw)]; rfl
    | fmeta => rw [planOfInstr, fmetaPlan_of_le (wellFormed_fmeta.mp hw)]; rfl

/-- The line that leaves IDLE leaves one line less than the whole count. -/
theorem stepsLeft_of_idle_line {p : Plan} {s t : State} (h : Line p s t) (hi : s.phase = .idle) :
    stepsLeft p t.phase t.cnt + 1 = p.lineCount := by
  cases h with
  | refused | engineStart | readStart => rfl
  | frameStart => simp only [stepsLeft, Plan.lineCount]; omega
  | drainTake h | drainDone h | absorbTake h | absorbDone h | hdr h | seq h | nseq h | pay h | payLast h | trlSum h
  | trlHigh h | trlLow h | rsp h => cases hi.symm.trans h

/-- No action of the host but the release of `RST` touches what the count of lines left is read from. -/
theorem act_keeps_sequencer {a : HostAction} {s t : State} (ha : a ≠ .releaseRst) (h : act a s = some t) :
    t.desc = s.desc ∧ t.phase = s.phase ∧ t.cnt = s.cnt := by
  cases a with
  | releaseRst => exact absurd rfl ha
  | assertRst => cases h; exact ⟨rfl, rfl, rfl⟩
  | putCmd | putPin | takeWout | takeRsp =>
    simp only [act] at h
    split at h <;> cases h
    exact ⟨rfl, rfl, rfl⟩

/-- A byte step is a line of the command whose descriptor it leaves latched. -/
theorem line_of_tick {s t : State} (h : tick s = .moves t) :
    currentDescriptor s = some t.desc ∧ Line (planOfDescriptor t.desc) (latched s t.desc) t := by
  cases hd : currentDescriptor s with
  | none => cases (tick_of_no_descriptor hd).symm.trans h
  | some d =>
    rw [tick_of_descriptor hd] at h
    obtain ⟨rfl, -⟩ := planTick_keeps h
    exact ⟨rfl, line_of_planTick h⟩

/-- Settles O45: a line of the command, the line that takes its descriptor, and what the host puts and takes. -/
theorem everyByteStepBringsTheResponseNearer : Obligations.EveryByteStepBringsTheResponseNearer := by
  intro s t hs
  refine ⟨fun hi h => ?_, fun hi h => ?_, fun a ha h => ?_⟩
  · obtain ⟨hd, hl⟩ := line_of_tick h
    obtain ⟨hf, -⟩ := latched_coherentIn hd hs
    rw [desc_of_busy_descriptor hd hi]
    exact stepsLeft_line (s := latched s t.desc) hl hf hi
  · obtain ⟨-, hl⟩ := line_of_tick h
    rw [stepCount_eq_lineCount]
    exact stepsLeft_of_idle_line hl hi
  · obtain ⟨hdesc, hphase, hcnt⟩ := act_keeps_sequencer ha h
    rw [hdesc, hphase, hcnt]

theorem stepsLeft_rsp (p : Plan) (c : Half) : stepsLeft p .rsp c = 1 := by cases p <;> rfl

/-- A run from IDLE to the response is the whole command but for its last line. -/
theorem run_to_rsp_length {p : Plan} {n : Nat} {s u : State} (h : PlanRun p n s u) (hi : s.phase = .idle)
    (hu : u.phase = .rsp) : n + 1 = p.lineCount := by
  cases h with
  | refl => cases hi.symm.trans hu
  | @cons n _ s' _ hl hi' hrun =>
    have hf : phaseFits p s'.phase s'.cnt = true := fits_line (line_of_planTick hl) (hi ▸ phaseFits_idle p s.cnt)
    have hleft := run_stepsLeft hrun hf hi'
    rw [hu, stepsLeft_rsp] at hleft
    have hstart := stepsLeft_of_idle_line (line_of_planTick hl) hi
    omega

/-- Inside a run the block is not in IDLE. -/
theorem PlanRun.busy_prefix {p : Plan} {k n : Nat} {s t : State} (h : PlanRun p n s t) (hpos : 0 < k) (hk : k ≤ n) :
    ∃ u, PlanRun p k s u ∧ u.phase ≠ .idle := by
  induction h generalizing k with
  | refl => omega
  | @cons n s s' t hl hi' _ ih =>
    match k, hpos with
    | 1, _ => exact ⟨s', .single hl hi', hi'⟩
    | k + 2, _ =>
      obtain ⟨u, hrun, hu⟩ := ih (Nat.succ_pos k) (Nat.le_of_succ_le_succ hk)
      exact ⟨u, .cons hl hi' hrun, hu⟩

/-- A run from the latched descriptor and the line after it are byte steps of the block. -/
theorem ticks_of_latched_run_line {n : Nat} {s u t : State} {d : Descriptor} (hd : currentDescriptor s = some d)
    (h : PlanRun (planOfDescriptor d) n (latched s d) u) (hu : u.phase ≠ .idle)
    (ht : planTick (planOfDescriptor d) u = .moves t) : ticks (n + 1) s = some t := by
  obtain ⟨hdesc, hrst, -, -⟩ := run_keeps h
  have hlast : tick u = .moves t := by
    rw [tick_of_busy (hrst.trans (rst_of_descriptor (s := s) hd)) hu, hdesc, ht]
  rw [ticks_add, ticks_of_latched_run hd h hu, Option.bind_some]
  simp only [ticks, hlast]

/-- A command with room for its response ends with the line that puts it (20_memory.md R37). -/
theorem answers_of_run_to_rsp {p : Plan} {n : Nat} {s u : State} (h : PlanRun p n s u) (hu : u.phase = .rsp)
    (hr : RspAccepts s) : ∃ t, planTick p u = .moves t ∧ t.phase = .idle := by
  obtain ⟨-, -, hplatform, -⟩ := run_keeps h
  rw [RspAccepts, accepts_one, ← hplatform, ← run_rsp h] at hr
  exact ⟨_, planTick_of_line (.rsp hu hr), rfl⟩

/-- Settles O44: the run to the response and the response, counted by the lines left at its two ends. -/
theorem commandTakesItsCountOfByteSteps : Obligations.CommandTakesItsCountOfByteSteps := by
  intro d ds s hc ⟨hrst, hi, hs, hr, hw⟩
  have hd : currentDescriptor s = some d := by simp [currentDescriptor, hrst, hi, hc]
  obtain ⟨n, u, -, hrun, hu, -⟩ := runsToResponse_planOfDescriptor (s := latched s d) hi hs hw
  have hbusy : u.phase ≠ .idle := by simp [hu]
  obtain ⟨t, ht, hti⟩ := answers_of_run_to_rsp hrun hu hr
  rw [stepCount_eq_lineCount, ← run_to_rsp_length hrun hi hu]
  refine ⟨t, ticks_of_latched_run_line hd hrun hbusy ht, ?_, hti, fun k v hpos hk hv => ?_⟩
  · have hlen := run_length_lt hrun (hi ▸ phaseFits_idle _ _)
    exact (step_of_descriptor hd).trans (perform_of_run hrun ht hti hlen)
  · obtain ⟨w, hrun', hwi⟩ := hrun.busy_prefix hpos (Nat.le_of_lt_succ hk)
    cases (ticks_of_latched_run hd hrun' hwi).symm.trans hv
    exact hwi

end Sys2Proof.Machine
end
